-- ==== Sys2Proof/Word.lean ====
section
/-! DEFINITION. The word types of the block: a byte is 8 bits (spec/00_scope.md section 5); the frame-control
field is the only wider word (rule R103). -/
namespace Sys2Proof

/-- A byte, 8 bits, bit 0 the least significant (00_scope.md section 5). -/
abbrev Byte := BitVec 8

/-- A 16-bit word: the frame-control field (R103). -/
abbrev HalfWord := BitVec 16

/-- The byte whose value is `n` modulo 256. -/
abbrev Byte.ofNat (n : Nat) : Byte := BitVec.ofNat 8 n

end Sys2Proof
end

