-- ==== Sys2Proof/Config.lean ====
section
/-! DEFINITION. What is fixed before the block leaves reset: the parameter set of R6 to R19, latched and read-only
(R48), and the free values of the environment's draws. State holds one parameter set (State.cfg), so every
statement about a state holds for every parameter set. -/
namespace Sys2Proof

/-- Three time fields, hours, minutes and seconds. A TimeOfDay (R113) is one whose fields are in range; `tod_last`
(R32) may hold wider values, so the type itself does not bound them. -/
structure TimeFields where
  hours   : Nat
  minutes : Nat
  seconds : Nat
deriving DecidableEq, Repr

/-- `VIS_LAG` (R18, R83). -/
inductive VisLag where
  | exact
  | conservative
deriving DecidableEq, Repr

/-- `PH[0..3]`, the four placeholder bytes in the order of R15. -/
structure Placeholders where
  weekday : Byte
  date    : Byte
  month   : Byte
  year    : Byte
deriving DecidableEq, Repr

/-- The parameters of 00_scope.md R6 to R19 (table in 10_state.md R48). No operation writes one. The last six are
recognised and never read (R17, R19). -/
structure Params where
  /-- `REC_BYTES` (R6). -/
  recBytes      : Nat
  /-- `CAP_BYTES` (R7). -/
  capBytes      : Nat
  /-- `META_BYTES` (R8). -/
  metaBytes     : Nat
  /-- `FC_OFF` (R9). -/
  fcOff         : Nat
  /-- `ADDR_A_OFF` (R9). -/
  addrAOff      : Nat
  /-- `ADDR_B_OFF` (R9). -/
  addrBOff      : Nat
  /-- `FC_LE` (R10). -/
  fcLe          : Bool
  /-- `SAMPLE_N` (R11). -/
  sampleN       : Nat
  /-- `SEED_TOD` (R12). -/
  seedTod       : TimeFields
  /-- `DEV_ADDR` (R13), 7 bits. -/
  devAddr       : BitVec 7
  /-- `TIME_BASE` (R14). -/
  timeBase      : Byte
  /-- `PH[0..3]` (R15). -/
  ph            : Placeholders
  /-- `VIS_LAG` (R18). -/
  visLag        : VisLag
  /-- `RTC_ATOMIC_READ` (R18). -/
  rtcAtomicRead : Bool
  /-- `T_RD` (R17), not read by any rule. -/
  readTimeout   : Nat
  /-- `T_WR` (R17), not read by any rule. -/
  writeTimeout  : Nat
  /-- SCL pin number (R19), not read. -/
  sclPin        : Nat
  /-- SDA pin number (R19), not read. -/
  sdaPin        : Nat
  /-- Bus clock frequency (R19), not read. -/
  busFrequency  : Nat
  /-- Radio channel number (R19), not read. -/
  radioChannel  : Nat
deriving DecidableEq, Repr

namespace Config

/-- `READ_LEN` (R16): the three time bytes. -/
def readLen : Nat := 3

/-- The free value behind `draw x in S` (00_scope.md section 5) when the schedule names no outcome: nothing
constrains it. It is applied to the counter State.draws.taken, so that two draws are two values. -/
opaque freeDraw : Nat → Nat

/-- The parameter set State.reset carries. The defaults the spec gives are taken (`SAMPLE_N` 50, offsets 0, 4, 10,
`FC_LE` true, `VIS_LAG` exact, `RTC_ATOMIC_READ` true); the OPEN ones are a DESIGN CHOICE (notes/assumptions/1.md),
the illustrative values of 95_test_vectors.md program P3, and no statement rests on them. -/
def resetParams : Params where
  recBytes      := 24
  capBytes      := 48
  metaBytes     := 4
  fcOff         := 0
  addrAOff      := 4
  addrBOff      := 10
  fcLe          := true
  sampleN       := 50
  seedTod       := ⟨16, 25, 25⟩
  devAddr       := 0x68#7
  timeBase      := 0x00#8
  ph            := ⟨0#8, 0#8, 0#8, 0#8⟩
  visLag        := .exact
  rtcAtomicRead := true
  readTimeout   := 0
  writeTimeout  := 0
  sclPin        := 0
  sdaPin        := 0
  busFrequency  := 0
  radioChannel  := 0

end Config
end Sys2Proof
end

