-- ==== Sys2Proof/Syntax.lean ====
section
/-! DEFINITION. The syntax, whole: one constructor per row of spec/opcode_table.json. The first 21 are the operations
of R114; the last nine are the table's data formats (R100), which are no operations and have no operation code. -/
namespace Sys2Proof

/-- The operand of `FIFO.POP` (R142). -/
inductive Deadline where
  | forever
  | finite
deriving DecidableEq, Repr

/-- The rows of spec/opcode_table.json, in the table's order. Operands travel beside the code (R114): they are the
constructors' arguments. A natural-number operand is a natural here; what the encoding admits is in WellFormed. -/
inductive Instr where
  /-- `FIFO.INIT`, code 0x00 (R140). -/
  | fifoInit
  /-- `FIFO.TRY_PUSH b`, code 0x01 (R141). -/
  | fifoTryPush (block : List Byte)
  /-- `FIFO.POP deadline`, code 0x02 (R142). -/
  | fifoPop (deadline : Deadline)
  /-- `FIFO.RELEASE h`, code 0x03 (R143). -/
  | fifoRelease (handle : Nat)
  /-- `BCD.ENC v`, code 0x10 (R170). -/
  | bcdEnc (value : Nat)
  /-- `BCD.DEC b`, code 0x11 (R171). -/
  | bcdDec (byte : Byte)
  /-- `TIME.PACK t`, code 0x12 (R173). -/
  | timePack (tod : TimeFields)
  /-- `TIME.UNPACK [r0, r1, r2]`, code 0x13 (R174). -/
  | timeUnpack (r0 r1 r2 : Byte)
  /-- `I2C.INIT`, code 0x20 (R190). -/
  | i2cInit
  /-- `I2C.WRITE L`, code 0x21 (R191). -/
  | i2cWrite (bytes : List Byte)
  /-- `I2C.WRITE_READ W, n`, code 0x22 (R192). -/
  | i2cWriteRead (bytes : List Byte) (length : Nat)
  /-- `RTC.WRITE_TIME t`, code 0x23 (R193). -/
  | rtcWriteTime (tod : TimeFields)
  /-- `RTC.READ_REGS a, n`, code 0x24 (R194). -/
  | rtcReadRegs (start : Byte) (length : Nat)
  /-- `MAC.FC_LOAD h`, code 0x30 (R220). -/
  | macFcLoad (handle : Nat)
  /-- `MAC.FC_DECODE fc`, code 0x31 (R221). -/
  | macFcDecode (fc : HalfWord)
  /-- `MAC.ADDR_EXTRACT h`, code 0x32 (R222). -/
  | macAddrExtract (handle : Nat)
  /-- `MAC.PARSE h`, code 0x33 (R223). -/
  | macParse (handle : Nat)
  /-- `PROD.ON_FRAME p, t`, code 0x40 (R240); `none` is the null pointer. -/
  | prodOnFrame (pointer : Option Nat) (frameType : Nat)
  /-- `CONS.INIT`, code 0x41 (R241). -/
  | consInit
  /-- `CONS.STEP`, code 0x42 (R242 to R246). -/
  | consStep
  /-- `CONS.CYCLE`, code 0x43 (R247). -/
  | consCycle
  /-- Format `FMT.FRAME_CONTROL` (R103). -/
  | fmtFrameControl (fc : HalfWord)
  /-- Format `FMT.BCD_BYTE` (R105). -/
  | fmtBcdByte (byte : Byte)
  /-- Format `FMT.SECONDS_REG` (R106). -/
  | fmtSecondsReg (byte : Byte)
  /-- Format `FMT.MINUTES_REG` (R107). -/
  | fmtMinutesReg (byte : Byte)
  /-- Format `FMT.HOURS_REG` (R108). -/
  | fmtHoursReg (byte : Byte)
  /-- Format `FMT.CLOCK_REGISTER_FRAME` (R109), byte 0 first. -/
  | fmtClockRegisterFrame (b0 b1 b2 b3 b4 b5 b6 b7 : Byte)
  /-- Format `FMT.I2C_ADDRESS_BYTE` (R110). -/
  | fmtI2cAddressByte (byte : Byte)
  /-- Format `FMT.LINK_HEADER` (R102): header bytes, offset 0 first. -/
  | fmtLinkHeader (bytes : List Byte)
  /-- Format `FMT.CAPTURE_RECORD` (R101): record bytes, offset 0 first. -/
  | fmtCaptureRecord (bytes : List Byte)
deriving DecidableEq, Repr

end Sys2Proof
end

