-- ==== Sys2Proof/WellFormed.lean ====
section
/-! DEFINITION. Which terms of Instr the encoding of Decode.lean can carry. The encoding of operands is the model's own
(notes/assumptions/2.md): a natural operand takes four bytes, a time field one byte, a list a four-byte length. -/
namespace Sys2Proof

/-- One more than the largest natural a four-byte operand carries. -/
def Instr.natLimit : Nat := 4294967296

/-- A natural operand fits four bytes. -/
def Instr.natFits (n : Nat) : Bool := decide (n < Instr.natLimit)

/-- Each time field fits its operand byte. -/
def Instr.todFits (t : TimeFields) : Bool :=
  decide (t.hours < 256) && decide (t.minutes < 256) && decide (t.seconds < 256)

/-- The term is one of the 21 operations of R114 (the nine data formats are not). -/
def Instr.isOperation : Instr → Bool
  | .fifoInit | .fifoTryPush _ | .fifoPop _ | .fifoRelease _ => true
  | .bcdEnc _ | .bcdDec _ | .timePack _ | .timeUnpack _ _ _ => true
  | .i2cInit | .i2cWrite _ | .i2cWriteRead _ _ | .rtcWriteTime _ | .rtcReadRegs _ _ => true
  | .macFcLoad _ | .macFcDecode _ | .macAddrExtract _ | .macParse _ => true
  | .prodOnFrame _ _ | .consInit | .consStep | .consCycle => true
  | .fmtFrameControl _ | .fmtBcdByte _ | .fmtSecondsReg _ | .fmtMinutesReg _ | .fmtHoursReg _ => false
  | .fmtClockRegisterFrame _ _ _ _ _ _ _ _ | .fmtI2cAddressByte _ | .fmtLinkHeader _ | .fmtCaptureRecord _ => false

/-- An operation whose operands the encoding carries. -/
def Instr.wellFormed : Instr → Bool
  | .fifoInit => true
  | .fifoTryPush b => Instr.natFits b.length
  | .fifoPop _ => true
  | .fifoRelease h => Instr.natFits h
  | .bcdEnc v => Instr.natFits v
  | .bcdDec _ => true
  | .timePack t => Instr.todFits t
  | .timeUnpack _ _ _ => true
  | .i2cInit => true
  | .i2cWrite l => Instr.natFits l.length
  | .i2cWriteRead w n => Instr.natFits w.length && Instr.natFits n
  | .rtcWriteTime t => Instr.todFits t
  | .rtcReadRegs _ n => Instr.natFits n
  | .macFcLoad h => Instr.natFits h
  | .macFcDecode _ => true
  | .macAddrExtract h => Instr.natFits h
  | .macParse h => Instr.natFits h
  | .prodOnFrame p t => Instr.natFits (p.getD 0) && Instr.natFits t
  | .consInit => true
  | .consStep => true
  | .consCycle => true
  | .fmtFrameControl _ => false
  | .fmtBcdByte _ => false
  | .fmtSecondsReg _ => false
  | .fmtMinutesReg _ => false
  | .fmtHoursReg _ => false
  | .fmtClockRegisterFrame _ _ _ _ _ _ _ _ => false
  | .fmtI2cAddressByte _ => false
  | .fmtLinkHeader _ => false
  | .fmtCaptureRecord _ => false

end Sys2Proof
end

