-- ==== Sys2Proof/Decode.lean ====
section
/-! DEFINITION. The decode layer of R114 and R115 (operation code to operation), the operand bytes beside the code
(the model's own layout, notes/assumptions/2.md), and the encoder from the same tables. -/
namespace Sys2Proof

/-- The 21 operations of R114, without operands. -/
inductive Opcode where
  | fifoInit | fifoTryPush | fifoPop | fifoRelease
  | bcdEnc | bcdDec | timePack | timeUnpack
  | i2cInit | i2cWrite | i2cWriteRead | rtcWriteTime | rtcReadRegs
  | macFcLoad | macFcDecode | macAddrExtract | macParse
  | prodOnFrame | consInit | consStep | consCycle
deriving DecidableEq, Repr

/-- `op[7:4]`, the unit (R114, opcode_table.json `source_fields`). -/
def Opcode.unit : Opcode → BitVec 4
  | .fifoInit | .fifoTryPush | .fifoPop | .fifoRelease => 0#4
  | .bcdEnc | .bcdDec | .timePack | .timeUnpack => 1#4
  | .i2cInit | .i2cWrite | .i2cWriteRead | .rtcWriteTime | .rtcReadRegs => 2#4
  | .macFcLoad | .macFcDecode | .macAddrExtract | .macParse => 3#4
  | .prodOnFrame | .consInit | .consStep | .consCycle => 4#4

/-- `op[3:0]`, the function (R114). -/
def Opcode.function : Opcode → BitVec 4
  | .fifoInit | .bcdEnc | .i2cInit | .macFcLoad | .prodOnFrame => 0#4
  | .fifoTryPush | .bcdDec | .i2cWrite | .macFcDecode | .consInit => 1#4
  | .fifoPop | .timePack | .i2cWriteRead | .macAddrExtract | .consStep => 2#4
  | .fifoRelease | .timeUnpack | .rtcWriteTime | .macParse | .consCycle => 3#4
  | .rtcReadRegs => 4#4

/-- The 8-bit operation code (R114). -/
def Opcode.code (o : Opcode) : Byte := o.unit ++ o.function

/-- Every operation, in the order of R114. -/
def Opcode.all : List Opcode :=
  [.fifoInit, .fifoTryPush, .fifoPop, .fifoRelease, .bcdEnc, .bcdDec, .timePack, .timeUnpack] ++
  [.i2cInit, .i2cWrite, .i2cWriteRead, .rtcWriteTime, .rtcReadRegs] ++
  [.macFcLoad, .macFcDecode, .macAddrExtract, .macParse, .prodOnFrame, .consInit, .consStep, .consCycle]

/-- The operation a code stands for; `none` for the unassigned codes of R115. -/
def Opcode.ofCode (c : Byte) : Option Opcode := Opcode.all.find? (fun o => o.code == c)

/-- Why a line of a schedule is no operation. -/
inductive DecodeError where
  /-- There is no operation code. -/
  | noCode
  /-- The code is none of the 21 of R114: "invalid" (R115, U28). -/
  | unassignedCode (code : Byte)
  /-- The operand bytes end before the operation's operands do (the model's own operand layout). -/
  | operandsTruncated (code : Byte)
  /-- A selector byte of the model's own operand layout has a value that layout does not use. -/
  | operandReserved (code : Byte)
deriving DecidableEq, Repr

namespace Operand

/-- A natural in four bytes, the low byte first. -/
def encNat (n : Nat) : List Byte :=
  [Byte.ofNat n, Byte.ofNat (n / 256), Byte.ofNat (n / 65536), Byte.ofNat (n / 16777216)]

/-- Reads `encNat`. -/
def decNat : List Byte → Option (Nat × List Byte)
  | b0 :: b1 :: b2 :: b3 :: r =>
    some (b0.toNat + 256 * b1.toNat + 65536 * b2.toNat + 16777216 * b3.toNat, r)
  | _ => none

/-- A byte list: its length, then the bytes in list order. -/
def encList (l : List Byte) : List Byte := encNat l.length ++ l

/-- Reads `encList`. -/
def decList (bs : List Byte) : Option (List Byte × List Byte) :=
  match decNat bs with
  | some (n, r) => if n ≤ r.length then some (r.take n, r.drop n) else none
  | none => none

/-- A time of day: hours, minutes, seconds, one byte each. -/
def encTod (t : TimeFields) : List Byte := [Byte.ofNat t.hours, Byte.ofNat t.minutes, Byte.ofNat t.seconds]

/-- Reads `encTod`. -/
def decTod : List Byte → Option (TimeFields × List Byte)
  | h :: m :: s :: r => some (⟨h.toNat, m.toNat, s.toNat⟩, r)
  | _ => none

end Operand

/-- Reads a natural operand and builds the instruction from it. -/
def decodeNat (c : Byte) (mk : Nat → Instr) (bs : List Byte) : Except DecodeError (Instr × List Byte) :=
  match Operand.decNat bs with
  | some (n, r) => .ok (mk n, r)
  | none => .error (.operandsTruncated c)

/-- Reads a list operand and builds the instruction from it. -/
def decodeList (c : Byte) (mk : List Byte → Instr) (bs : List Byte) : Except DecodeError (Instr × List Byte) :=
  match Operand.decList bs with
  | some (l, r) => .ok (mk l, r)
  | none => .error (.operandsTruncated c)

/-- Reads a time-of-day operand and builds the instruction from it. -/
def decodeTod (c : Byte) (mk : TimeFields → Instr) (bs : List Byte) : Except DecodeError (Instr × List Byte) :=
  match Operand.decTod bs with
  | some (t, r) => .ok (mk t, r)
  | none => .error (.operandsTruncated c)

/-- Reads the operands of one operation; the bytes after them are returned unread. -/
def decodeOperands (o : Opcode) (bs : List Byte) : Except DecodeError (Instr × List Byte) :=
  match o with
  | .fifoInit => .ok (.fifoInit, bs)
  | .fifoTryPush => decodeList o.code .fifoTryPush bs
  | .fifoPop =>
    match bs with
    | d :: r =>
      if d = 0#8 then .ok (.fifoPop .forever, r)
      else if d = 1#8 then .ok (.fifoPop .finite, r)
      else .error (.operandReserved o.code)
    | [] => .error (.operandsTruncated o.code)
  | .fifoRelease => decodeNat o.code .fifoRelease bs
  | .bcdEnc => decodeNat o.code .bcdEnc bs
  | .bcdDec =>
    match bs with
    | b :: r => .ok (.bcdDec b, r)
    | [] => .error (.operandsTruncated o.code)
  | .timePack => decodeTod o.code .timePack bs
  | .timeUnpack =>
    match bs with
    | r0 :: r1 :: r2 :: r => .ok (.timeUnpack r0 r1 r2, r)
    | _ => .error (.operandsTruncated o.code)
  | .i2cInit => .ok (.i2cInit, bs)
  | .i2cWrite => decodeList o.code .i2cWrite bs
  | .i2cWriteRead =>
    match Operand.decList bs with
    | some (w, r) => decodeNat o.code (.i2cWriteRead w) r
    | none => .error (.operandsTruncated o.code)
  | .rtcWriteTime => decodeTod o.code .rtcWriteTime bs
  | .rtcReadRegs =>
    match bs with
    | a :: r => decodeNat o.code (.rtcReadRegs a) r
    | [] => .error (.operandsTruncated o.code)
  | .macFcLoad => decodeNat o.code .macFcLoad bs
  | .macFcDecode =>
    match bs with
    | lo :: hi :: r => .ok (.macFcDecode (hi ++ lo), r)
    | _ => .error (.operandsTruncated o.code)
  | .macAddrExtract => decodeNat o.code .macAddrExtract bs
  | .macParse => decodeNat o.code .macParse bs
  | .prodOnFrame =>
    match bs with
    | tag :: r =>
      if tag = 0#8 then decodeNat o.code (.prodOnFrame none) r
      else if tag = 1#8 then
        match Operand.decNat r with
        | some (p, r') => decodeNat o.code (.prodOnFrame (some p)) r'
        | none => .error (.operandsTruncated o.code)
      else .error (.operandReserved o.code)
    | [] => .error (.operandsTruncated o.code)
  | .consInit => .ok (.consInit, bs)
  | .consStep => .ok (.consStep, bs)
  | .consCycle => .ok (.consCycle, bs)

/-- The decoder: an operation code, then its operand bytes; the bytes after them come back unread. Total on any
bytes; a code outside R114 is rejected by name (R115). -/
def decode : List Byte → Except DecodeError (Instr × List Byte)
  | [] => .error .noCode
  | c :: bs =>
    match Opcode.ofCode c with
    | some o => decodeOperands o bs
    | none => .error (.unassignedCode c)

/-- The encoder, from the same tables. A data format has no operation code and no encoding. -/
def encode : Instr → List Byte
  | .fifoInit => [Opcode.fifoInit.code]
  | .fifoTryPush b => Opcode.fifoTryPush.code :: Operand.encList b
  | .fifoPop .forever => [Opcode.fifoPop.code, 0#8]
  | .fifoPop .finite => [Opcode.fifoPop.code, 1#8]
  | .fifoRelease h => Opcode.fifoRelease.code :: Operand.encNat h
  | .bcdEnc v => Opcode.bcdEnc.code :: Operand.encNat v
  | .bcdDec b => [Opcode.bcdDec.code, b]
  | .timePack t => Opcode.timePack.code :: Operand.encTod t
  | .timeUnpack r0 r1 r2 => [Opcode.timeUnpack.code, r0, r1, r2]
  | .i2cInit => [Opcode.i2cInit.code]
  | .i2cWrite l => Opcode.i2cWrite.code :: Operand.encList l
  | .i2cWriteRead w n => Opcode.i2cWriteRead.code :: (Operand.encList w ++ Operand.encNat n)
  | .rtcWriteTime t => Opcode.rtcWriteTime.code :: Operand.encTod t
  | .rtcReadRegs a n => Opcode.rtcReadRegs.code :: a :: Operand.encNat n
  | .macFcLoad h => Opcode.macFcLoad.code :: Operand.encNat h
  | .macFcDecode fc => [Opcode.macFcDecode.code, fc.extractLsb' 0 8, fc.extractLsb' 8 8]
  | .macAddrExtract h => Opcode.macAddrExtract.code :: Operand.encNat h
  | .macParse h => Opcode.macParse.code :: Operand.encNat h
  | .prodOnFrame none t => Opcode.prodOnFrame.code :: 0#8 :: Operand.encNat t
  | .prodOnFrame (some p) t => Opcode.prodOnFrame.code :: 1#8 :: (Operand.encNat p ++ Operand.encNat t)
  | .consInit => [Opcode.consInit.code]
  | .consStep => [Opcode.consStep.code]
  | .consCycle => [Opcode.consCycle.code]
  | .fmtFrameControl _ => []
  | .fmtBcdByte _ => []
  | .fmtSecondsReg _ => []
  | .fmtMinutesReg _ => []
  | .fmtHoursReg _ => []
  | .fmtClockRegisterFrame _ _ _ _ _ _ _ _ => []
  | .fmtI2cAddressByte _ => []
  | .fmtLinkHeader _ => []
  | .fmtCaptureRecord _ => []

/-- The bytes of a table word: bits 7..0 first, then bits 15..8 and so on, then zero bytes, more than the longest
fixed-length operand takes. -/
def tableWordBytes (nbits w : Nat) : List Byte :=
  (List.range (nbits / 8)).map (fun i => Byte.ofNat (w / 256 ^ i)) ++ List.replicate 16 0#8

/-- The host's question: the instruction the decoder reads from a table word (FIXED NAME). -/
def decodeTableWord (nbits w : Nat) : Option Instr :=
  match decode (tableWordBytes nbits w) with
  | .ok (i, _) => some i
  | .error _ => none

end Sys2Proof
end

