-- ==== Sys2Proof/Machine/State.lean ====
section
/-! DEFINITION. The machine's state, whole and as plain data: the pipeline-context value of 10_state.md, grouped by unit,
the clock chip, the radio's buffer, the schedule and the environment's events; the fault and refusal reasons; reset. -/
namespace Sys2Proof.Machine

/-- Bytes by address, strictly rising addresses, one entry a written address (Machine/Memory.lean). An address that is
not listed has no value; what a read of one does is the reading space's rule. -/
abbrev Memory := List Host.Cell

/-- The agents that issue operations (00_scope.md section 5); PROD is the interrupt context, CONS the task context
(R288). -/
inductive Agent where
  | host
  | prod
  | cons
deriving DecidableEq, Repr

/-- An operation at which the task context holds: a pop (R142, R146), or the consumer's own pop at S1_POP inside one of the
two operations that take that step (R242, R247). -/
inductive Hold where
  /-- `FIFO.POP deadline`. -/
  | pop (deadline : Deadline)
  /-- `CONS.STEP` at S1_POP. -/
  | step
  /-- `CONS.CYCLE` at S1_POP. -/
  | cycle
deriving DecidableEq, Repr

/-- `cstate` (R27). -/
inductive CState where
  | init
  | running
  | fatal
deriving DecidableEq, Repr

/-- `cstep` (R28). -/
inductive CStep where
  | s1Pop
  | s2Clock
  | s3Parse
  | s4Sample
  | s5Release
deriving DecidableEq, Repr

/-- `bus_status` (R40), the outcome of a transaction (R195). -/
inductive BusStatus where
  | ok
  | timeout
  | busErr
deriving DecidableEq, Repr

/-- The six causes of R270, in code order. -/
inductive Cause where
  /-- `E_BUS_INIT`, code 1. -/
  | busInit
  /-- `E_SEED_WRITE`, code 2. -/
  | seedWrite
  /-- `E_RADIO_INIT`, code 3. -/
  | radioInit
  /-- `E_BUS_TIMEOUT`, code 4. -/
  | busTimeout
  /-- `E_BUS_ERROR`, code 5. -/
  | busError
  /-- `E_FIFO_FULL`, code 6. -/
  | fifoFull
deriving DecidableEq, Repr

/-- The three classes of R270. -/
inductive CauseClass where
  | fatal
  | transient
  | backpressure
deriving DecidableEq, Repr

/-- Log events (R122). -/
inductive LogEvent where
  | seed (tod : TimeFields)
  | sample (tod : TimeFields) (timeValid : Bool) (metadata addrA addrB : List Byte) (ftype : BitVec 2) (fsubtype : BitVec 4)
deriving DecidableEq, Repr

/-- Entries of the ghost trace `BUS` (R42, R191, R192): `received` is `rxbuf` when the outcome is OK. -/
inductive BusEvent where
  | write (bytes : List Byte) (outcome : BusStatus)
  | writeRead (written : List Byte) (length : Nat) (outcome : BusStatus) (received : Option (List Byte))
deriving DecidableEq, Repr

/-- The result of the last operation, which travels beside the code (R114). The model's own (notes/assumptions/12.md). -/
inductive Result where
  /-- No operation has run. -/
  | none
  /-- The operation ended; its results, if any, are in registers. -/
  | done
  /-- The agent holds (00_scope.md section 5). -/
  | hold
  /-- The consumer is stuck: after a fatal cause it takes no step (R285, R286, U30; notes/assumptions/34.md). -/
  | stuck
  /-- `timeout` of a finite pop (R142). -/
  | timeout
  /-- `accepted` of a push (R141). -/
  | accepted (b : Bool)
  /-- The handle of a pop (R142). -/
  | handle (h : Nat)
  /-- A byte (R170). -/
  | byte (b : Byte)
  /-- A natural (R171). -/
  | value (n : Nat)
  /-- The status of a transaction (R191, R192). -/
  | status (s : BusStatus)
  /-- `success` (R193). -/
  | success (b : Bool)
  /-- Raw bytes (R194). -/
  | bytes (l : List Byte)
  /-- Failure with its status (R194). -/
  | fail (s : BusStatus)
  /-- The operation ended by an exception (R190, R241). -/
  | raised (c : Cause)
  /-- The fields of a data format (notes/assumptions/3.md) or of a frame-control value (R221), as numbers. -/
  | fields (l : List Nat)
  /-- The parts of a byte format, as byte lists (notes/assumptions/3.md). -/
  | parts (l : List (List Byte))
deriving DecidableEq, Repr

/-- What the environment draws (00_scope.md section 5): `script` holds the outcomes the running line names after `!`
(R120), `taken` counts the free draws taken so far. The model's own (notes/assumptions/6.md). -/
structure Draws where
  script : List Nat
  taken  : Nat
deriving DecidableEq, Repr

/-- One line of a program (R120): the agent, the operation code, the operand bytes beside it, the drawn outcomes. -/
structure Line where
  agent    : Agent
  code     : Byte
  operands : List Byte
  draws    : List Nat
deriving DecidableEq, Repr

/-- The flag bits of the three time registers (R117): bit 7 of seconds, bit 7 of minutes, bits 7 and 6 of hours. -/
structure ChipFlags where
  seconds : BitVec 1
  minutes : BitVec 1
  hours   : BitVec 2
deriving DecidableEq, Repr

/-- The environment's steps (R124) and the host's and the chip's liberties that have no step name. -/
inductive EventKind where
  /-- `RADIO.FRAME(p, t)` (R280); `frame` is what the hardware-owned buffer holds at `p` during the callback (R90). -/
  | frame (pointer : Option Nat) (frameType : Nat) (frame : List Byte)
  /-- `RTC.TICK` (R200). -/
  | tick
  /-- The chip sets its flag bits (R198, U24). -/
  | chipFlags (f : ChipFlags)
  /-- `SYNC` (R83): the values the two views are raised to. -/
  | sync (freeView writeView : Nat)
  /-- The host reports `E_RADIO_INIT` (R276). -/
  | radioInitFail
  /-- The host resets the block (R286, R310, R313; notes/assumptions/36.md). -/
  | reset
deriving DecidableEq, Repr

/-- An environment step to come: it lands after `wait` further steps of the block, counted from the event before it
(notes/assumptions/5.md); `draws` are the outcomes it names. -/
structure Event where
  wait  : Nat
  draws : List Nat
  kind  : EventKind
deriving DecidableEq, Repr

/-- The FIFO unit (10_state.md section 2). -/
structure Fifo where
  /-- `chan_ready` (R21). -/
  ready     : Bool
  /-- The `SLOT` space (R22, R70), by linear address (R71). -/
  slots     : Memory
  /-- `wr` (R23), modulo `2 * DEPTH`. -/
  wr        : Nat
  /-- `rd` (R23), modulo `2 * DEPTH`. -/
  rd        : Nat
  /-- `fr` (R23), modulo `2 * DEPTH`. -/
  fr        : Nat
  /-- Ghost count `WR` (R24). -/
  pushed    : Nat
  /-- Ghost count `RD` (R24). -/
  popped    : Nat
  /-- Ghost count `FR` (R24). -/
  released  : Nat
  /-- `fr_view` (R26), a past value of `FR`. -/
  frView    : Nat
  /-- `wr_view` (R26), a past value of `WR`. -/
  wrView    : Nat
deriving DecidableEq, Repr

/-- The consumer's control and datapath registers (10_state.md sections 1 and 3). -/
structure Consumer where
  /-- `cstate` (R27). -/
  cstate    : CState
  /-- `cstep` (R28). -/
  cstep     : CStep
  /-- `cur_handle` (R30). -/
  curHandle : Nat
  /-- `cur_valid` (R30). -/
  curValid  : Bool
  /-- `cap_cnt` (R31). -/
  capCnt    : Nat
  /-- `tod_last` (R32). -/
  todLast   : TimeFields
  /-- `time_valid` (R33). -/
  timeValid : Bool
  /-- `bus_err_cnt` (R34). -/
  busErrCnt : Nat
  /-- `fc_reg` (R35). -/
  fcReg     : HalfWord
  /-- `ftype` (R35). -/
  ftype     : BitVec 2
  /-- `fsubtype` (R35). -/
  fsubtype  : BitVec 4
  /-- `addr_a` (R36). -/
  addrA     : List Byte
  /-- `addr_b` (R36). -/
  addrB     : List Byte
deriving DecidableEq, Repr

/-- The I2C master (10_state.md section 4). -/
structure I2cMaster where
  /-- `bus_open` (R37). -/
  busOpen   : Bool
  /-- `txbuf` (R38). -/
  txbuf     : List Byte
  /-- `rxbuf` (R39). -/
  rxbuf     : List Byte
  /-- `bus_status` (R40). -/
  busStatus : BusStatus
deriving DecidableEq, Repr

/-- The clock chip, outside the block (10_state.md section 6). -/
structure Chip where
  /-- `rtc.ptr` (R44). -/
  ptr  : Byte
  /-- The `RTCREG` space (R43, R70), by register address; a register not listed has no value (R45, R46). -/
  regs : Memory
deriving DecidableEq, Repr

/-- Why the machine stops with a fault. -/
inductive Fault where
  /-- Raised by a read of a loaned slot's byte that no push has written: it has no value (R22, U1). Safe: no admitted
  run reads one, and the model invents no byte. -/
  | unwrittenSlotByte
  /-- Raised by an access that does not lie inside one slot (R92); possible only with parameters R312 excludes.
  Safe: the spec gives it no behaviour. -/
  | outsideSlot
deriving DecidableEq, Repr

/-- Why an operation has no meaning in a state: the spec's `refuse` (00_scope.md section 5), one name a rule. Each is
safe: the spec gives the operation no behaviour there, and the model invents none. -/
inductive Refusal where
  /-- Raised by an arm of `exec` whose operation is not modelled yet. Safe. -/
  | notModelled (mnemonic : String)
  /-- Raised by `step` on a line that is no operation (R115, U28). Safe. -/
  | undecodable (e : DecodeError)
  /-- Raised by `step` under parameters that R312 excludes. Safe. -/
  | illegalParameters
  /-- Raised when an operation is issued by an agent R114 does not give it (R82, R288, R324, R325). Safe. -/
  | wrongAgent
  /-- Raised by a second `FIFO.INIT` (R140) or `I2C.INIT` (R190), U5. Safe. -/
  | alreadyInitialised
  /-- Raised by a FIFO operation before `FIFO.INIT` (R141 to R143, U4). Safe. -/
  | channelNotReady
  /-- Raised by a push of a block that is not `REC_BYTES` long (R141, R92, U6). Safe. -/
  | wrongLength
  /-- Raised by `FIFO.RELEASE` when nothing is on loan (R143, U7). Safe. -/
  | nothingOnLoan
  /-- Raised by `FIFO.RELEASE` of a handle that is not the oldest loan (R143, U7). Safe. -/
  | notOldestLoan
  /-- Raised by a read of a slot that is not on loan (R89, R220, R222, U8). Safe. -/
  | slotNotOnLoan
  /-- Raised by `BCD.ENC` above 99 (R170, U13). Safe. -/
  | valueAbove99
  /-- Raised by `TIME.PACK` and `RTC.WRITE_TIME` of a value that is no TimeOfDay (R113, R173, U15). Safe. -/
  | notATimeOfDay
  /-- Raised by a bus transaction with `bus_open = 0` (R191, R192, U22). Safe. -/
  | busNotOpen
  /-- Raised by an empty write or a read of length 0 (R191, R192, U22). Safe. -/
  | emptyTransfer
  /-- Raised by `I2C.WRITE_READ` with a write phase that is not one byte (R192, U22). Safe. -/
  | writePhaseNotOneByte
  /-- Raised by a transaction that would pass register 0xFF (R191, R192, U22). Safe. -/
  | pastLastRegister
  /-- Raised by `CONS.INIT` unless `cstate = INIT` (R241). Safe. -/
  | notInInit
  /-- Raised by `CONS.STEP` and `CONS.CYCLE` unless `cstate = RUNNING` (R242, R247, U30). Safe. -/
  | notRunning
  /-- Raised by `CONS.CYCLE` unless `cstep = S1_POP` (R247). Safe. -/
  | cycleNotAtS1
  /-- Raised by a data format given bytes that are not in the format: a ClockRegisterFrame with a reserved bit set
  (R109), a link header or a record of another length (R101, R102; notes/assumptions/3.md). Safe. -/
  | notInFormat
deriving DecidableEq, Repr

/-- Everything the spec gives the machine (10_state.md), with the model's own fields last. -/
structure State where
  /-- The latched parameters (R48). -/
  cfg     : Params
  /-- The execution context in force (R288); none after reset (R310). Between two lines it is none or the task context:
  the interrupt context is left at the callback's return (notes/assumptions/37.md). -/
  agent   : Option Agent
  /-- The operation at which the task context is blocked (00_scope.md section 5, R142, R288: "may hold (block)"): while it
  stands here that context takes no other step (notes/assumptions/16.md). -/
  held    : Option Hold
  /-- The FIFO unit. -/
  fifo    : Fifo
  /-- `drop_cnt` (R29). -/
  dropCnt : Nat
  /-- The consumer. -/
  cons    : Consumer
  /-- The I2C master. -/
  i2c     : I2cMaster
  /-- The clock chip. -/
  chip    : Chip
  /-- The `HWBUF` space (R70, R90); a byte not listed has no value and reads as a draw (U27). -/
  hwbuf   : Memory
  /-- `LOG` (R41), oldest first. -/
  log     : List LogEvent
  /-- `BUS` (R42), oldest first. -/
  bus     : List BusEvent
  /-- The exceptions reported so far, oldest first (model's own, notes/assumptions/13.md). -/
  exc     : List Cause
  /-- The result of the last operation (model's own, notes/assumptions/12.md). -/
  result  : Result
  /-- The environment's draws (model's own, notes/assumptions/6.md). -/
  draws   : Draws
  /-- The lines not yet run (R120; model's own, notes/assumptions/4.md). -/
  sched   : List Line
  /-- The environment's steps to come (model's own, notes/assumptions/5.md). -/
  events  : List Event
deriving DecidableEq, Repr

/-- The machine right after reset (R310, 10_state.md section 8). Registers the spec leaves unspecified hold the values
notes/assumptions/7.md, 8.md and 9.md name (DESIGN CHOICE). -/
def State.reset : State where
  cfg     := Config.resetParams
  agent   := none
  held    := none
  fifo    :=
    { ready := false, slots := [], wr := 0, rd := 0, fr := 0
      pushed := 0, popped := 0, released := 0, frView := 0, wrView := 0 }
  dropCnt := 0
  cons    :=
    { cstate := .init, cstep := .s1Pop, curHandle := 0, curValid := false, capCnt := 0
      todLast := ⟨0, 0, 0⟩, timeValid := false, busErrCnt := 0, fcReg := 0#16, ftype := 0#2, fsubtype := 0#4
      addrA := List.replicate 6 0#8, addrB := List.replicate 6 0#8 }
  i2c     := { busOpen := false, txbuf := List.replicate 8 0#8, rxbuf := List.replicate 3 0#8, busStatus := .ok }
  chip    := { ptr := 0#8, regs := [] }
  hwbuf   := []
  log     := []
  bus     := []
  exc     := []
  result  := .none
  draws   := { script := [], taken := 0 }
  sched   := []
  events  := []

end Sys2Proof.Machine
end

