-- ==== Sys2Proof/Machine/Operands.lean ====
section
/-! DEFINITION. The data formats (30_encoding.md section 1) and the operand assemblies of R123: the frame-control field,
packed-decimal bytes, the time registers and their masks, the ClockRegisterFrame, the bus address byte. -/
namespace Sys2Proof.Machine

/-- `((v div 10) << 4) | (v mod 10)`, 8 bits (R105, R123(b), R170). -/
def bcdEncode (v : Nat) : Byte := Byte.ofNat (((v / 10) <<< 4) ||| (v % 10))

/-- `(b >> 4) * 10 + (b & 0x0F)` (R123(c), R171): total, whatever the nibbles (R116). -/
def bcdDecode (b : Byte) : Nat := (b >>> 4).toNat * 10 + (b &&& 0x0F#8).toNat

/-- Mask of the seconds register (R106). -/
def secondsMask : Byte := 0x7F#8

/-- Mask of the minutes register (R107). -/
def minutesMask : Byte := 0x7F#8

/-- Mask of the hours register (R108). -/
def hoursMask : Byte := 0x3F#8

/-- The value is a TimeOfDay (R113). -/
def validTod (t : TimeFields) : Bool :=
  decide (t.hours ≤ 23) && decide (t.minutes ≤ 59) && decide (t.seconds ≤ 59)

/-- The ClockRegisterFrame (R109), the image of one `write_time`, byte 0 first. -/
def clockFrame (p : Params) (t : TimeFields) : List Byte :=
  [p.timeBase, bcdEncode t.seconds &&& secondsMask, bcdEncode t.minutes &&& minutesMask,
    bcdEncode t.hours &&& hoursMask, p.ph.weekday, p.ph.date, p.ph.month, p.ph.year]

/-- Masks and decodes the seconds, minutes and hours bytes as read (R174). -/
def unpackTime (r0 r1 r2 : Byte) : TimeFields where
  hours   := bcdDecode (r2 &&& hoursMask)
  minutes := bcdDecode (r1 &&& minutesMask)
  seconds := bcdDecode (r0 &&& secondsMask)

/-- `unpackTime` of a read of `READ_LEN` bytes (R243). -/
def unpackBytes (l : List Byte) : TimeFields :=
  unpackTime (l.getD 0 0#8) (l.getD 1 0#8) (l.getD 2 0#8)

/-- The next second of the day (R200). -/
def nextSecond (t : TimeFields) : TimeFields :=
  let s := (t.seconds + 1) % 60
  let m := if s = 0 then (t.minutes + 1) % 60 else t.minutes
  let h := if s = 0 ∧ m = 0 then (t.hours + 1) % 24 else t.hours
  ⟨h, m, s⟩

/-- A time register that takes a new value and keeps its flag bits (R200). -/
def keepFlags (mask old : Byte) (v : Nat) : Byte := (bcdEncode v &&& mask) ||| (old &&& ~~~mask)

/-- `fc` from the two record bytes in record order (R73, R123(a)). -/
def assembleFc (le : Bool) (b0 b1 : Byte) : HalfWord :=
  if le then b0.setWidth 16 ||| (b1.setWidth 16 <<< 8) else b1.setWidth 16 ||| (b0.setWidth 16 <<< 8)

/-- `fc[3:2]` (R103, R221). -/
def frameType (fc : HalfWord) : BitVec 2 := ((fc >>> 2) &&& 0b11#16).setWidth 2

/-- `fc[7:4]` (R103, R221). -/
def frameSubtype (fc : HalfWord) : BitVec 4 := ((fc >>> 4) &&& 0b1111#16).setWidth 4

/-- The bus address byte `(DEV_ADDR << 1) | direction` (R110, R123(d)); direction 0 writes, 1 reads. -/
def busAddressByte (dev : BitVec 7) (direction : BitVec 1) : Byte :=
  (dev.setWidth 8 <<< 1) ||| direction.setWidth 8

/-- `MemRead` of a byte list: the `n` bytes from index `a`. -/
def sliceBytes (l : List Byte) (a n : Nat) : List Byte := (l.drop a).take n

end Sys2Proof.Machine
end

