-- ==== Sys2Proof/Machine/Flags.lean ====
section
/-! DEFINITION. Quantities that are computed and not stored: the depth (R7), the legality of the parameters (R312), the
counts and flags of the FIFO (R24, R25), the loan test (R89), the sampling test (R245), quiescence's parts (R314). -/
namespace Sys2Proof.Machine

/-- `DEPTH = CAP_BYTES div REC_BYTES` (R7). -/
def depth (p : Params) : Nat := p.capBytes / p.recBytes

/-- The constraints of R312 (and R48's ranges): outside them no rule of the spec applies. -/
abbrev LegalParams (p : Params) : Prop :=
  p.metaBytes + max p.addrAOff p.addrBOff + 6 ≤ p.recBytes ∧ p.metaBytes + p.fcOff + 2 ≤ p.recBytes ∧
  1 ≤ depth p ∧ 1 ≤ p.sampleN ∧ validTod p.seedTod = true ∧ p.timeBase.toNat + 6 ≤ 255

/-- `used = WR - FR` (R24). -/
def usedSlots (f : Fifo) : Nat := f.pushed - f.released

/-- `avail = WR - RD` (R24). -/
def availBlocks (f : Fifo) : Nat := f.pushed - f.popped

/-- `loaned = RD - FR` (R24). -/
def loanedBlocks (f : Fifo) : Nat := f.popped - f.released

/-- `FRv`, the producer's view of `FR` (R26, R83). -/
def releasedView (p : Params) (f : Fifo) : Nat :=
  match p.visLag with
  | .exact => f.released
  | .conservative => f.frView

/-- `WRv`, the consumer's view of `WR` (R26, R83). -/
def pushedView (p : Params) (f : Fifo) : Nat :=
  match p.visLag with
  | .exact => f.pushed
  | .conservative => f.wrView

/-- `full`, as the producer sees it (R25, R141). -/
def fullSeen (p : Params) (f : Fifo) : Bool := decide (f.pushed - releasedView p f = depth p)

/-- `empty`, as the consumer sees it (R25, R142). -/
def emptySeen (p : Params) (f : Fifo) : Bool := decide (pushedView p f - f.popped = 0)

/-- Slot `h` is on loan (R89): popped and not yet released. The loans are the slots `fr mod DEPTH` upward. -/
def onLoan (p : Params) (f : Fifo) (h : Nat) : Bool :=
  f.ready && decide (h < depth p) && decide ((h + depth p - f.fr % depth p) % depth p < loanedBlocks f)

/-- The sampling test of step S4_SAMPLE, on the incremented counter (R245). -/
def sampleDue (p : Params) (n : Nat) : Bool := decide (n % p.sampleN = 0)

end Sys2Proof.Machine
end

