-- ==== Sys2Proof/Machine/Ops.lean ====
section
/-! DEFINITION. The shared operations the meanings are made of: outcomes in sequence, agent checks, draws, slot and HWBUF
reads, exceptions, the FIFO unit's updates, the clock chip, the bus transactions, the producer callback. -/
namespace Sys2Proof.Machine

/-- An outcome of a computation that answers an `α`. -/
abbrev Out (α : Type) := Host.Outcome α Fault Refusal

/-- One computation after another; a fault or a refusal ends the sequence. -/
def andThen {α β : Type} (x : Out α) (k : α → Out β) : Out β :=
  match x with
  | .next a => k a
  | .fault r => .fault r
  | .refused r => .refused r

/-- Refuses if there is a reason to, and else answers. -/
def orRefuse {α : Type} (r : Option Refusal) (a : α) : Out α :=
  match r with
  | some r => .refused r
  | none => .next a

/-- The operation is issued by the agent R114 gives it (R82, R288, R324, R325). -/
def requireAgent (a : Agent) (s : State) (k : Out State) : Out State :=
  if s.agent = some a then k else .refused .wrongAgent

/-- The state with the result of the operation beside it (R114). -/
def withResult (r : Result) (s : State) : State := { s with result := r }

/-- After a fatal cause the consumer is stuck: it takes no step and all state keeps its value (R271, R285, R286, U30).
That this holds for every line issued in the consumer's context, although the operations' own pseudocode does not test
`cstate`, and that such a line answers a next state in which only the result port has changed, so that PROD runs on, is a
DESIGN CHOICE (notes/assumptions/34.md). -/
def unlessStuck (s : State) (k : Out State) : Out State :=
  if s.agent = some .cons ∧ s.cons.cstate = .fatal then .next (withResult .stuck s) else k

/-- An operation R114 gives to the consumer's context alone. -/
def requireConsumer (s : State) (k : Out State) : Out State := requireAgent .cons s (unlessStuck s k)

/-! ### Draws (00_scope.md section 5) -/

/-- The next outcome the line names, or else a free value. -/
def drawNext (d : Draws) : Nat × Draws :=
  match d.script with
  | [] => (Config.freeDraw d.taken, { d with taken := d.taken + 1 })
  | x :: xs => (x, { d with script := xs })

/-- `draw x in {0, …, k - 1}`. -/
def drawBelow (k : Nat) (d : Draws) : Nat × Draws := ((drawNext d).1 % k, (drawNext d).2)

/-- `draw` a byte. -/
def drawByte (d : Draws) : Byte × Draws := (Byte.ofNat (drawNext d).1, (drawNext d).2)

/-- `draw` a list of `n` bytes. -/
def drawBytes : Nat → Draws → List Byte × Draws
  | 0, d => ([], d)
  | n + 1, d => ((drawByte d).1 :: (drawBytes n (drawByte d).2).1, (drawBytes n (drawByte d).2).2)

/-- `draw o in {OK, TIMEOUT, BUSERR}` (R195). -/
def busStatusOf : Nat → BusStatus
  | 0 => .ok
  | 1 => .timeout
  | _ => .busErr

/-- The outcome of a transaction (R195). -/
def drawStatus (d : Draws) : BusStatus × Draws := (busStatusOf (drawBelow 3 d).1, (drawBelow 3 d).2)

/-! ### Reads of the SLOT and HWBUF spaces -/

/-- `MemRead(SLOT, (h, off), n)` (R70, R71, R89, R92): refused unless slot `h` is on loan. -/
def readSlot (h off n : Nat) (s : State) : Out (List Byte) :=
  if onLoan s.cfg s.fifo h then
    if off + n ≤ s.cfg.recBytes then
      match s.fifo.slots.readList? (h * s.cfg.recBytes + off) n with
      | some l => .next l
      | none => .fault .unwrittenSlotByte
    else .fault .outsideSlot
  else .refused .slotNotOnLoan

/-- `MemRead(HWBUF, p, n)` (R70, R90): a byte without a value is a draw (U27). -/
def readHwbuf (m : Memory) (a : Nat) : Nat → Draws → List Byte × Draws
  | 0, d => ([], d)
  | n + 1, d =>
    match m.read? a with
    | some b => (b :: (readHwbuf m (a + 1) n d).1, (readHwbuf m (a + 1) n d).2)
    | none =>
      ((drawByte d).1 :: (readHwbuf m (a + 1) n (drawByte d).2).1, (readHwbuf m (a + 1) n (drawByte d).2).2)

/-! ### Exceptions (60_exceptions.md) -/

/-- The class of a cause (R270). -/
def causeClass : Cause → CauseClass
  | .busInit | .seedWrite | .radioInit => .fatal
  | .busTimeout | .busError => .transient
  | .fifoFull => .backpressure

/-- The code of a cause (R270). -/
def causeCode : Cause → Nat
  | .busInit => 1
  | .seedWrite => 2
  | .radioInit => 3
  | .busTimeout => 4
  | .busError => 5
  | .fifoFull => 6

/-- Takes an exception (R271 to R276, R285): it is reported, and its class has its effect. There is no vector, no
saved register and no return (R285, R286): after a transient cause or backpressure the machine simply goes on, and
nothing leaves FATAL but a reset. -/
def raise (c : Cause) (s : State) : State :=
  match causeClass c with
  | .fatal => { s with exc := s.exc ++ [c], cons := { s.cons with cstate := .fatal } }
  | .transient =>
    { s with
      exc := s.exc ++ [c]
      cons := { s.cons with timeValid := false, busErrCnt := s.cons.busErrCnt + 1, cstep := .s3Parse } }
  | .backpressure => { s with exc := s.exc ++ [c], dropCnt := s.dropCnt + 1 }

/-! ### The FIFO unit (40_fifo.md) -/

/-- The pointer after `p` (R23). -/
def nextPointer (c : Params) (p : Nat) : Nat := (p + 1) % (2 * depth c)

/-- The effect of `FIFO.INIT` (R140). -/
def initFifo (f : Fifo) : Fifo :=
  { f with
    ready := true, wr := 0, rd := 0, fr := 0, pushed := 0, popped := 0, released := 0, frView := 0, wrView := 0 }

/-- The effect of an accepted push (R141): the bytes, then the pointer. -/
def pushBlock (c : Params) (b : List Byte) (f : Fifo) : Fifo :=
  { f with
    slots := f.slots.writeList ((f.wr % depth c) * c.recBytes) b
    wr := nextPointer c f.wr
    pushed := f.pushed + 1 }

/-- The handle the next pop returns (R142). -/
def nextHandle (c : Params) (f : Fifo) : Nat := f.rd % depth c

/-- The effect of a pop (R142). -/
def popBlock (c : Params) (f : Fifo) : Fifo :=
  { f with rd := nextPointer c f.rd, popped := f.popped + 1 }

/-- The effect of a release (R143). -/
def releaseBlock (c : Params) (f : Fifo) : Fifo :=
  { f with fr := nextPointer c f.fr, released := f.released + 1 }

/-- The refusals of `FIFO.RELEASE h`, in the rule's order (R143). -/
def releaseRefusal (c : Params) (h : Nat) (f : Fifo) : Option Refusal :=
  if f.ready = false then some .channelNotReady
  else if loanedBlocks f = 0 then some .nothingOnLoan
  else if h ≠ f.fr % depth c then some .notOldestLoan
  else none

/-- The effect of `SYNC` (R83): each view rises to the value given, at most to the true count, and never falls. -/
def syncViews (freeView writeView : Nat) (f : Fifo) : Fifo :=
  { f with
    frView := max f.frView (min freeView f.released)
    wrView := max f.wrView (min writeView f.pushed) }

/-! ### The clock chip (10_state.md section 6, 42_i2c_master.md R198 to R200) -/

/-- Register `a` is one of the seven of R43. -/
def inTimeBlock (c : Params) (a : Nat) : Bool :=
  decide (c.timeBase.toNat ≤ a) && decide (a ≤ c.timeBase.toNat + 6)

/-- The byte a read of register `a` returns: the stored one inside the seven, and a draw where there is no value or
outside the seven (R43, R45, R198, U23). -/
def chipRead (c : Params) (a : Nat) (k : Chip) (d : Draws) : Byte × Draws :=
  if inTimeBlock c a then
    match k.regs.read? a with
    | some b => (b, d)
    | none => drawByte d
  else drawByte d

/-- Stores a byte in register `a` (R198). -/
def chipStore (a : Nat) (b : Byte) (k : Chip) : Chip := { k with regs := k.regs.write a b }

/-- The three time registers take the given bytes: seconds, minutes, hours (R43). -/
def storeTime (c : Params) (bs bm bh : Byte) (k : Chip) : Chip :=
  chipStore (c.timeBase.toNat + 2) bh (chipStore (c.timeBase.toNat + 1) bm (chipStore c.timeBase.toNat bs k))

/-- The result of a tick where the registers hold no valid time: a draw (R200, U26). -/
def drawTime (c : Params) (k : Chip) (d : Draws) : Chip × Draws :=
  (storeTime c (drawByte d).1 (drawByte (drawByte d).2).1 (drawByte (drawByte (drawByte d).2).2).1 k,
    (drawByte (drawByte (drawByte d).2).2).2)

/-- `RTC.TICK` (R200). -/
def chipTick (c : Params) (k : Chip) (d : Draws) : Chip × Draws :=
  match k.regs.read? c.timeBase.toNat, k.regs.read? (c.timeBase.toNat + 1), k.regs.read? (c.timeBase.toNat + 2) with
  | some bs, some bm, some bh =>
    if validTod (unpackTime bs bm bh) then
      let t := nextSecond (unpackTime bs bm bh)
      (storeTime c (keepFlags secondsMask bs t.seconds) (keepFlags minutesMask bm t.minutes)
        (keepFlags hoursMask bh t.hours) k, d)
    else drawTime c k d
  | _, _, _ => drawTime c k d

/-- `n` ticks. -/
def chipTicks (c : Params) : Nat → Chip → Draws → Chip × Draws
  | 0, k, d => (k, d)
  | n + 1, k, d => chipTicks c n (chipTick c k d).1 (chipTick c k d).2

/-- What happens in the chip before one data byte of a transaction: nothing with `RTC_ATOMIC_READ`, and else any
number of ticks, a draw (R199, R200). -/
def ticksInside (c : Params) (k : Chip) (d : Draws) : Chip × Draws :=
  if c.rtcAtomicRead then (k, d) else chipTicks c (drawNext d).1 k (drawNext d).2

/-- A flag change of one register that has a value (R198, U24). -/
def flagRegister (a : Nat) (mask flags : Byte) (k : Chip) : Chip :=
  match k.regs.read? a with
  | some b => chipStore a ((b &&& mask) ||| flags) k
  | none => k

/-- The chip's flag bits take the given values (R198, U24). -/
def chipSetFlags (c : Params) (f : ChipFlags) (k : Chip) : Chip :=
  flagRegister (c.timeBase.toNat + 2) hoursMask (f.hours.setWidth 8 <<< 6)
    (flagRegister (c.timeBase.toNat + 1) minutesMask (f.minutes.setWidth 8 <<< 7)
      (flagRegister c.timeBase.toNat secondsMask (f.seconds.setWidth 8 <<< 7) k))

/-- `rtc.ptr` when it has advanced to `a`; past 0xFF it is unspecified, a draw (R44, V-I2C I13). -/
def pointerAt (a : Nat) (d : Draws) : Byte × Draws :=
  if a < 256 then (Byte.ofNat a, d) else drawByte d

/-- The chip stores data bytes from register `a` upward (R191, R198). -/
def chipStoreFrom (c : Params) (a : Nat) : List Byte → Chip → Draws → Chip × Draws
  | [], k, d => (k, d)
  | b :: bs, k, d =>
    chipStoreFrom c (a + 1) bs (chipStore a b (ticksInside c k d).1) (ticksInside c k d).2

/-- The chip returns `n` bytes from register `a` upward (R192, R198). -/
def chipFetchFrom (c : Params) (a : Nat) : Nat → Chip → Draws → List Byte × Chip × Draws
  | 0, k, d => ([], k, d)
  | n + 1, k, d =>
    let t := ticksInside c k d
    let b := chipRead c a t.1 t.2
    let r := chipFetchFrom c (a + 1) n t.1 b.2
    (b.1 :: r.1, r.2)

/-- The bytes of a write that reached the chip (R191): the pointer, then the data. -/
def chipAccept (c : Params) (l : List Byte) (k : Chip) (d : Draws) : Chip × Draws :=
  match l with
  | [] => (k, d)
  | p :: data =>
    let r := chipStoreFrom c p.toNat data k d
    let q := pointerAt (p.toNat + data.length) r.2
    ({ r.1 with ptr := q.1 }, q.2)

/-! ### Bus transactions (42_i2c_master.md) -/

/-- The refusals of `I2C.WRITE L`, in the rule's order (R191). -/
def writeRefusal (l : List Byte) (s : State) : Option Refusal :=
  if s.i2c.busOpen = false then some .busNotOpen
  else
    match l with
    | [] => some .emptyTransfer
    | p :: data => if p.toNat + data.length > 256 then some .pastLastRegister else none

/-- The refusals of `I2C.WRITE_READ [w], n` (R192). -/
def readRefusal (w : Byte) (n : Nat) (s : State) : Option Refusal :=
  if s.i2c.busOpen = false then some .busNotOpen
  else if n = 0 then some .emptyTransfer
  else if w.toNat + n > 256 then some .pastLastRegister
  else none

/-- How many of the `n` bytes of a write reached the chip (R191, R196): all if it ended OK, and else a draw. -/
def bytesDelivered (n : Nat) (o : BusStatus) (d : Draws) : Nat × Draws :=
  if o = .ok then (n, d) else drawBelow (n + 1) d

/-- `I2C.WRITE L` past its refusals (R191, R195): the outcome is drawn. Its status is `bus_status`. -/
def transmit (l : List Byte) (s : State) : State :=
  let o := drawStatus s.draws
  let j := bytesDelivered l.length o.1 o.2
  let k := chipAccept s.cfg (l.take j.1) s.chip j.2
  { s with
    chip := k.1
    draws := k.2
    i2c := { s.i2c with busStatus := o.1 }
    bus := s.bus ++ [.write l o.1] }

/-- `rtc.ptr` after a failed read of `n` bytes at `w`: unchanged, or any value the read could have left (R192, U21). -/
def pointerAfterFailedRead (w : Byte) (n : Nat) (k : Chip) (d : Draws) : Byte × Draws :=
  if (drawBelow (n + 2) d).1 = 0 then (k.ptr, (drawBelow (n + 2) d).2)
  else pointerAt (w.toNat + ((drawBelow (n + 2) d).1 - 1)) (drawBelow (n + 2) d).2

/-- The read phase of `I2C.WRITE_READ [w], n` that ended OK (R192). -/
def transceiveOk (w : Byte) (n : Nat) (d : Draws) (s : State) : State :=
  let r := chipFetchFrom s.cfg w.toNat n s.chip d
  let q := pointerAt (w.toNat + n) r.2.2
  { s with
    chip := { r.2.1 with ptr := q.1 }
    draws := q.2
    i2c := { s.i2c with busStatus := .ok, rxbuf := r.1 }
    bus := s.bus ++ [.writeRead [w] n .ok (some r.1)] }

/-- `I2C.WRITE_READ [w], n` that failed with `o` (R192, R196): `rxbuf` is unspecified, `n` drawn bytes. -/
def transceiveFailed (w : Byte) (n : Nat) (o : BusStatus) (d : Draws) (s : State) : State :=
  let q := pointerAfterFailedRead w n s.chip d
  let r := drawBytes n q.2
  { s with
    chip := { s.chip with ptr := q.1 }
    draws := r.2
    i2c := { s.i2c with busStatus := o, rxbuf := r.1 }
    bus := s.bus ++ [.writeRead [w] n o none] }

/-- `I2C.WRITE_READ [w], n` past its refusals (R192, R195): the outcome is drawn. Its status is `bus_status`. -/
def transceive (w : Byte) (n : Nat) (s : State) : State :=
  if (drawStatus s.draws).1 = .ok then transceiveOk w n (drawStatus s.draws).2 s
  else transceiveFailed w n (drawStatus s.draws).1 (drawStatus s.draws).2 s

/-- `I2C.INIT` past its refusal (R190): the environment draws whether the bus can be claimed. -/
def openBus (s : State) : State :=
  if (drawBelow 2 s.draws).1 = 0 then
    { s with draws := (drawBelow 2 s.draws).2, i2c := { s.i2c with busOpen := true } }
  else raise .busInit { s with draws := (drawBelow 2 s.draws).2 }

/-- `TIME.PACK t` past its refusal (R173). -/
def packTime (t : TimeFields) (s : State) : State :=
  { s with i2c := { s.i2c with txbuf := clockFrame s.cfg t } }

/-- `RTC.WRITE_TIME t` past its refusals (R193). -/
def writeTime (t : TimeFields) (s : State) : State := transmit (clockFrame s.cfg t) (packTime t s)

/-! ### The parser (43_mac_parser.md) -/

/-- `MAC.FC_LOAD h` (R220). -/
def loadFc (h : Nat) (s : State) : Out State :=
  andThen (readSlot h (s.cfg.metaBytes + s.cfg.fcOff) 2 s) fun l =>
    .next { s with cons := { s.cons with fcReg := assembleFc s.cfg.fcLe (l.getD 0 0#8) (l.getD 1 0#8) } }

/-- `MAC.FC_DECODE fc` (R221). -/
def decodeFc (fc : HalfWord) (s : State) : State :=
  { s with cons := { s.cons with ftype := frameType fc, fsubtype := frameSubtype fc } }

/-- The two fields of a frame-control value beside the operation (R114, R221): `ftype`, `fsubtype`. -/
def fcFields (fc : HalfWord) : Result := .fields [(frameType fc).toNat, (frameSubtype fc).toNat]

/-- `MAC.ADDR_EXTRACT h` (R222). -/
def extractAddrs (h : Nat) (s : State) : Out State :=
  andThen (readSlot h (s.cfg.metaBytes + s.cfg.addrAOff) 6 s) fun a =>
    andThen (readSlot h (s.cfg.metaBytes + s.cfg.addrBOff) 6 s) fun b =>
      .next { s with cons := { s.cons with addrA := a, addrB := b } }

/-- `MAC.PARSE h` (R223). -/
def parseRecord (h : Nat) (s : State) : Out State :=
  andThen (loadFc h s) fun s1 => extractAddrs h (decodeFc s1.cons.fcReg s1)

/-! ### The producer callback (44_sequencers.md) -/

/-- The callback's push of the copied block (R240): accepted, or counted as a drop. -/
def pushOrDrop (b : List Byte) (s : State) : State :=
  if fullSeen s.cfg s.fifo then raise .fifoFull s
  else { s with fifo := pushBlock s.cfg b s.fifo }

/-- `PROD.ON_FRAME p, t` (R240); the frame type is not used. -/
def onFrame (p : Option Nat) (s : State) : State :=
  match p with
  | none => s
  | some a =>
    if s.fifo.ready = false then s
    else
      pushOrDrop (readHwbuf s.hwbuf a s.cfg.recBytes s.draws).1
        { s with draws := (readHwbuf s.hwbuf a s.cfg.recBytes s.draws).2 }

end Sys2Proof.Machine
end

