-- ==== Sys2Proof/Machine/Codec.lean ====
section
/-! DEFINITION. The meanings of the clock-time register codec's four operations (41_clock_codec.md). -/
namespace Sys2Proof.Machine

/-- `BCD.ENC v` (R170): pure, refused above 99. -/
def execBcdEnc (v : Nat) (s : State) : Out State :=
  if v > 99 then .refused .valueAbove99 else .next (withResult (.byte (bcdEncode v)) s)

/-- `BCD.DEC b` (R171): pure and total (R116). -/
def execBcdDec (b : Byte) (s : State) : Out State := .next (withResult (.value (bcdDecode b)) s)

/-- `TIME.PACK t` (R173). -/
def execTimePack (t : TimeFields) (s : State) : Out State :=
  requireConsumer s <|
    if validTod t then .next (withResult .done (packTime t s)) else .refused .notATimeOfDay

/-- `TIME.UNPACK [r0, r1, r2]` (R174): no range check. -/
def execTimeUnpack (r0 r1 r2 : Byte) (s : State) : Out State :=
  requireConsumer s <|
    .next (withResult .done { s with cons := { s.cons with todLast := unpackTime r0 r1 r2 } })

end Sys2Proof.Machine
end

