-- ==== Sys2Proof/Machine/FifoUnit.lean ====
section
/-! DEFINITION. The meanings of the FIFO unit's four operations (40_fifo.md). -/
namespace Sys2Proof.Machine

/-- `FIFO.INIT` (R140). -/
def execFifoInit (s : State) : Out State :=
  requireAgent .host s <|
    if s.fifo.ready then .refused .alreadyInitialised
    else .next (withResult .done { s with fifo := initFifo s.fifo })

/-- `FIFO.TRY_PUSH b` (R141). -/
def execFifoTryPush (b : List Byte) (s : State) : Out State :=
  requireAgent .prod s <|
    if s.fifo.ready = false then .refused .channelNotReady
    else if b.length ≠ s.cfg.recBytes then .refused .wrongLength
    else if fullSeen s.cfg s.fifo then .next (withResult (.accepted false) s)
    else .next (withResult (.accepted true) { s with fifo := pushBlock s.cfg b s.fifo })

/-- `FIFO.POP deadline` (R142): on an empty FIFO it holds, and with a finite deadline it may give up, a draw (U10). A hold
is the result `hold`; that the calling task is blocked by it stands in `held` after the step (runAs). -/
def execFifoPop (deadline : Deadline) (s : State) : Out State :=
  requireConsumer s <|
    if s.fifo.ready = false then .refused .channelNotReady
    else if emptySeen s.cfg s.fifo then
      match deadline with
      | .forever => .next (withResult .hold s)
      | .finite =>
        .next (withResult (if (drawBelow 2 s.draws).1 = 0 then .hold else .timeout)
          { s with draws := (drawBelow 2 s.draws).2 })
    else
      .next (withResult (.handle (nextHandle s.cfg s.fifo)) { s with fifo := popBlock s.cfg s.fifo })

/-- `FIFO.RELEASE h` (R143). -/
def execFifoRelease (h : Nat) (s : State) : Out State :=
  requireConsumer s <|
    orRefuse (releaseRefusal s.cfg h s.fifo) (withResult .done { s with fifo := releaseBlock s.cfg s.fifo })

end Sys2Proof.Machine
end

