-- ==== Sys2Proof/Machine/Formats.lean ====
section
/-! DEFINITION. The nine data formats of the table (R100 to R110). They are no operations: they have no code, no agent
and no effect on the machine. The meaning given to the row is the layout the spec gives it: the datum's fields, in the
order of the table's `source_fields`, stand in the result port, and nothing else changes (DESIGN CHOICE,
notes/assumptions/3.md). No line of a schedule decodes to one. -/
namespace Sys2Proof.Machine

/-- `FMT.FRAME_CONTROL` (R103): `fc[15:8]`, `frame_subtype`, `frame_type`, `fc[1:0]`. -/
def execFmtFrameControl (fc : HalfWord) (s : State) : Out State :=
  .next (withResult (.fields [(fc.extractLsb' 8 8).toNat, (frameSubtype fc).toNat, (frameType fc).toNat,
    (fc.extractLsb' 0 2).toNat]) s)

/-- `FMT.BCD_BYTE` (R105): tens digit, units digit. A byte with a nibble above 9, which R116 says is no packed-decimal
byte, is taken too, with its two nibbles as they stand (DESIGN CHOICE, notes/assumptions/3.md). -/
def execFmtBcdByte (b : Byte) (s : State) : Out State :=
  .next (withResult (.fields [(b.extractLsb' 4 4).toNat, (b.extractLsb' 0 4).toNat]) s)

/-- `FMT.SECONDS_REG` (R106): flag, tens, units; of every byte, a nibble above 9 as it stands (DESIGN CHOICE,
notes/assumptions/3.md), here and in the two rows after it. -/
def execFmtSecondsReg (b : Byte) (s : State) : Out State :=
  .next (withResult (.fields [(b.extractLsb' 7 1).toNat, (b.extractLsb' 4 3).toNat, (b.extractLsb' 0 4).toNat]) s)

/-- `FMT.MINUTES_REG` (R107): flag, tens, units. -/
def execFmtMinutesReg (b : Byte) (s : State) : Out State :=
  .next (withResult (.fields [(b.extractLsb' 7 1).toNat, (b.extractLsb' 4 3).toNat, (b.extractLsb' 0 4).toNat]) s)

/-- `FMT.HOURS_REG` (R108): the two bits outside the low 6, tens, units. -/
def execFmtHoursReg (b : Byte) (s : State) : Out State :=
  .next (withResult (.fields [(b.extractLsb' 6 2).toNat, (b.extractLsb' 4 2).toNat, (b.extractLsb' 0 4).toNat]) s)

/-- The reserved bits of a ClockRegisterFrame are 0: "always cleared on write" (R106 to R109). -/
def clockFrameImage (b1 b2 b3 : Byte) : Bool :=
  decide (b1 &&& ~~~secondsMask = 0#8) && decide (b2 &&& ~~~minutesMask = 0#8) && decide (b3 &&& ~~~hoursMask = 0#8)

/-- `FMT.CLOCK_REGISTER_FRAME` (R109): pointer, seconds, minutes, hours, weekday, date, month, year; an image of a write
only, so a reserved bit that is set is no such frame. Nothing else is tested: that any pointer byte, any four placeholder
bytes and time bytes that are no packed decimal are taken, although R109 gives the image `TIME_BASE`, `PH` and encoded
bytes, is a DESIGN CHOICE (notes/assumptions/3.md). -/
def execFmtClockRegisterFrame (b0 b1 b2 b3 b4 b5 b6 b7 : Byte) (s : State) : Out State :=
  if clockFrameImage b1 b2 b3 then
    .next (withResult (.fields [b0.toNat, b1.toNat, b2.toNat, b3.toNat, b4.toNat, b5.toNat, b6.toNat, b7.toNat]) s)
  else .refused .notInFormat

/-- `FMT.I2C_ADDRESS_BYTE` (R110): bus address, direction; of every byte, whether or not the address is `DEV_ADDR` (DESIGN
CHOICE, notes/assumptions/3.md). -/
def execFmtI2cAddressByte (b : Byte) (s : State) : Out State :=
  .next (withResult (.fields [(b.extractLsb' 1 7).toNat, (b.extractLsb' 0 1).toNat]) s)

/-- `FMT.LINK_HEADER` (R102): the three parts the block reads, the frame-control bytes and the two address fields. -/
def execFmtLinkHeader (l : List Byte) (s : State) : Out State :=
  if max (s.cfg.fcOff + 2) (max s.cfg.addrAOff s.cfg.addrBOff + 6) ≤ l.length then
    .next (withResult (.parts [sliceBytes l s.cfg.fcOff 2, sliceBytes l s.cfg.addrAOff 6,
      sliceBytes l s.cfg.addrBOff 6]) s)
  else .refused .notInFormat

/-- `FMT.CAPTURE_RECORD` (R101): the metadata, and the link header with the payload after it. -/
def execFmtCaptureRecord (l : List Byte) (s : State) : Out State :=
  if l.length = s.cfg.recBytes then
    .next (withResult (.parts [l.take s.cfg.metaBytes, l.drop s.cfg.metaBytes]) s)
  else .refused .notInFormat

end Sys2Proof.Machine
end

