-- ==== Sys2Proof/Machine/I2c.lean ====
section
/-! DEFINITION. The meanings of the I2C master's five operations (42_i2c_master.md). -/
namespace Sys2Proof.Machine

/-- `I2C.INIT` (R190): ok, or the fatal `E_BUS_INIT` (R271). It cannot be retried after a fatal cause: the consumer is
stuck then, which R190's pseudocode does not test and U30 says (DESIGN CHOICE, notes/assumptions/34.md). -/
def execI2cInit (s : State) : Out State :=
  requireConsumer s <|
    if s.i2c.busOpen then .refused .alreadyInitialised
    else .next (withResult (if (openBus s).i2c.busOpen then .done else .raised .busInit) (openBus s))

/-- `I2C.WRITE L` (R191). -/
def execI2cWrite (l : List Byte) (s : State) : Out State :=
  requireConsumer s <|
    orRefuse (writeRefusal l s) (withResult (.status (transmit l s).i2c.busStatus) (transmit l s))

/-- `I2C.WRITE_READ W, n` (R192): only a one-byte write phase is admitted (D31). -/
def execI2cWriteRead (w : List Byte) (n : Nat) (s : State) : Out State :=
  requireConsumer s <|
    match w with
    | [a] => orRefuse (readRefusal a n s) (withResult (.status (transceive a n s).i2c.busStatus) (transceive a n s))
    | _ => if s.i2c.busOpen = false then .refused .busNotOpen else .refused .writePhaseNotOneByte

/-- `RTC.WRITE_TIME t` (R193). -/
def execRtcWriteTime (t : TimeFields) (s : State) : Out State :=
  requireConsumer s <|
    if validTod t then
      orRefuse (writeRefusal (clockFrame s.cfg t) s)
        (withResult (.success (decide ((writeTime t s).i2c.busStatus = .ok))) (writeTime t s))
    else .refused .notATimeOfDay

/-- `RTC.READ_REGS a, n` (R194): the raw bytes, or the failure with its status. -/
def execRtcReadRegs (a : Byte) (n : Nat) (s : State) : Out State :=
  requireConsumer s <|
    orRefuse (readRefusal a n s)
      (withResult
        (if (transceive a n s).i2c.busStatus = .ok then .bytes (transceive a n s).i2c.rxbuf
          else .fail (transceive a n s).i2c.busStatus)
        (transceive a n s))

end Sys2Proof.Machine
end

