-- ==== Sys2Proof/Machine/Mac.lean ====
section
/-! DEFINITION. The meanings of the MAC frame-header parser's four operations (43_mac_parser.md). -/
namespace Sys2Proof.Machine

/-- `MAC.FC_LOAD h` (R220). -/
def execMacFcLoad (h : Nat) (s : State) : Out State :=
  requireConsumer s <| andThen (loadFc h s) fun t => .next (withResult .done t)

/-- `MAC.FC_DECODE fc` (R221): every value decodes (R118), and whichever agent issues it (R114: any) `ftype` and
`fsubtype` are written; the two fields are its result too. That R35 and R288 name CONS as their writer, and R221 lets any
agent write them, is settled for R221 (DEDUCED, notes/assumptions/35.md). -/
def execMacFcDecode (fc : HalfWord) (s : State) : Out State :=
  unlessStuck s <| .next (withResult (fcFields fc) (decodeFc fc s))

/-- `MAC.ADDR_EXTRACT h` (R222). -/
def execMacAddrExtract (h : Nat) (s : State) : Out State :=
  requireConsumer s <| andThen (extractAddrs h s) fun t => .next (withResult .done t)

/-- `MAC.PARSE h` (R223). -/
def execMacParse (h : Nat) (s : State) : Out State :=
  requireConsumer s <| andThen (parseRecord h s) fun t => .next (withResult .done t)

end Sys2Proof.Machine
end

