-- ==== Sys2Proof/Machine/Environment.lean ====
section
/-! DEFINITION. The environment's steps (R124): the frame interrupt, the clock chip's tick and flag changes, SYNC, the
host's radio failure and its reset; and when they land (notes/assumptions/5.md). -/
namespace Sys2Proof.Machine

/-- What the hardware-owned buffer holds during a callback (R90): the frame's bytes from the pointer upward. -/
def offeredBuffer (p : Option Nat) (frame : List Byte) : Memory :=
  match p with
  | none => []
  | some a => Memory.writeList a frame []

/-- `RADIO.FRAME(p, t)` (R280, R283): the interrupt context runs the whole callback over the buffer the radio offers,
which is gone when the callback returns (R90); the context that was interrupted goes on. -/
def radioFrame (p : Option Nat) (frame : List Byte) (s : State) : State :=
  { onFrame p { s with hwbuf := offeredBuffer p frame, agent := some .prod } with hwbuf := [], agent := s.agent }

/-- `E_RADIO_INIT` (R276): fatal before `CONS.INIT`; no edge leaves RUNNING (R249), so later it is only reported
(notes/assumptions/24.md). -/
def radioInitFailed (s : State) : State :=
  if s.cons.cstate = .init then raise .radioInit s else { s with exc := s.exc ++ [.radioInit] }

/-- A reset of the block (R310, R313; notes/assumptions/36.md): every register of the block is as after reset, the
parameters stay latched (R48), and what is outside the block is not reset: the battery-backed chip keeps its registers
and its pointer, the radio its buffer, the environment its draws, the program and the steps to come. It is the only way
out of FATAL (R286). -/
def resetBlock (s : State) : State :=
  { State.reset with
    cfg := s.cfg, chip := s.chip, hwbuf := s.hwbuf, draws := s.draws, sched := s.sched, events := s.events }

/-- One environment step. -/
def runEvent (k : EventKind) (s : State) : State :=
  match k with
  | .frame p _ frame => radioFrame p frame s
  | .tick => { s with chip := (chipTick s.cfg s.chip s.draws).1, draws := (chipTick s.cfg s.chip s.draws).2 }
  | .chipFlags f => { s with chip := chipSetFlags s.cfg f s.chip }
  | .sync f w =>
    match s.cfg.visLag with
    | .exact => s
    | .conservative => { s with fifo := syncViews f w s.fifo }
  | .radioInitFail => radioInitFailed s
  | .reset => resetBlock s

/-- An environment step with the outcomes it names; the running line keeps its own. -/
def deliver (e : Event) (s : State) : State :=
  let t := runEvent e.kind { s with draws := { s.draws with script := e.draws } }
  { t with draws := { t.draws with script := s.draws.script } }

/-- Delivers the events that are due, in order; the first that is not waits one step less. A reset does not land inside
an operation: it waits for its end (notes/assumptions/36.md). -/
def deliverDue : List Event → State → State
  | [], s => { s with events := [] }
  | e :: es, s =>
    if e.wait = 0 ∧ e.kind ≠ .reset then deliverDue es (deliver e s)
    else { s with events := { e with wait := e.wait - 1 } :: es }

/-- The environment's turn between two steps of the consumer (R247, R283). -/
def betweenSteps (s : State) : State := deliverDue s.events s

/-- One step of the block passes for the events to come. -/
def countDown : List Event → List Event
  | [] => []
  | e :: es => { e with wait := e.wait - 1 } :: es

end Sys2Proof.Machine
end

