-- ==== Sys2Proof/Machine/Sequencers.lean ====
section
/-! DEFINITION. The two sequencers (44_sequencers.md): the producer callback, the consumer's start-up, the five steps of
its loop, one pass of the loop. -/
namespace Sys2Proof.Machine

/-- `PROD.ON_FRAME p, t` (R240); `t` is passed and not used (D29). -/
def execProdOnFrame (p : Option Nat) (_t : Nat) (s : State) : Out State :=
  requireAgent .prod s <| .next (withResult .done (onFrame p s))

/-- What would refuse the seed write once the bus is open: only parameters R312 excludes (R173, R191). -/
def seedRefusal (c : Params) : Option Refusal :=
  if validTod c.seedTod = false then some .notATimeOfDay
  else if c.timeBase.toNat + 7 > 256 then some .pastLastRegister
  else none

/-- The consumer's start-up past the seed write, with the bus open (R241). -/
def finishInit (s : State) : State :=
  if s.i2c.busStatus = .ok then
    withResult .done
      { s with
        cons := { s.cons with todLast := s.cfg.seedTod, cstate := .running, cstep := .s1Pop }
        log := s.log ++ [.seed s.cfg.seedTod] }
  else withResult (.raised .seedWrite) (raise .seedWrite s)

/-- The consumer's start-up past its refusals (R241): open the bus, write the seed, log it; each failure is fatal. -/
def startConsumer (s : State) : State :=
  if (openBus s).i2c.busOpen then finishInit (writeTime s.cfg.seedTod (openBus s))
  else withResult (.raised .busInit) (openBus s)

/-- `CONS.INIT` (R241). -/
def execConsInit (s : State) : Out State :=
  requireAgent .cons s <|
    if s.cons.cstate ≠ .init then .refused .notInInit
    else if s.i2c.busOpen then .refused .alreadyInitialised
    else orRefuse (seedRefusal s.cfg) (startConsumer s)

/-- Step S1_POP (R242): holds, with nothing changed, while the FIFO is empty. -/
def stepPop (s : State) : Out State :=
  if s.fifo.ready = false then .refused .channelNotReady
  else if emptySeen s.cfg s.fifo then .next (withResult .hold s)
  else
    .next (withResult .done
      { s with
        fifo := popBlock s.cfg s.fifo
        cons := { s.cons with curHandle := nextHandle s.cfg s.fifo, curValid := true, cstep := .s2Clock } })

/-- Step S2_CLOCK past the read (R243): the decoded time, or a transient exception; the cycle goes on either way. -/
def finishClock (s : State) : State :=
  match s.i2c.busStatus with
  | .ok =>
    withResult .done
      { s with cons := { s.cons with todLast := unpackBytes s.i2c.rxbuf, timeValid := true, cstep := .s3Parse } }
  | .timeout => withResult (.raised .busTimeout) (raise .busTimeout s)
  | .busErr => withResult (.raised .busError) (raise .busError s)

/-- Step S2_CLOCK (R243). -/
def stepClock (s : State) : Out State :=
  orRefuse (readRefusal s.cfg.timeBase Config.readLen s) (finishClock (transceive s.cfg.timeBase Config.readLen s))

/-- Step S3_PARSE (R244). -/
def stepParse (s : State) : Out State :=
  andThen (parseRecord s.cons.curHandle s) fun t =>
    .next (withResult .done { t with cons := { t.cons with cstep := .s4Sample } })

/-- The `LogSample` of the current record with the metadata read (R122, R245). -/
def sampleEvent (metadata : List Byte) (s : State) : LogEvent :=
  .sample s.cons.todLast s.cons.timeValid metadata s.cons.addrA s.cons.addrB s.cons.ftype s.cons.fsubtype

/-- Step S4_SAMPLE past the counter (R245). -/
def finishSample (s : State) : State :=
  withResult .done { s with cons := { s.cons with cstep := .s5Release } }

/-- Step S4_SAMPLE (R245): increment first, test after. -/
def stepSample (s : State) : Out State :=
  let t := { s with cons := { s.cons with capCnt := s.cons.capCnt + 1 } }
  if sampleDue s.cfg t.cons.capCnt then
    andThen (readSlot s.cons.curHandle 0 s.cfg.metaBytes s) fun m =>
      .next (finishSample { t with log := t.log ++ [sampleEvent m t] })
  else .next (finishSample t)

/-- Step S5_RELEASE (R246). -/
def stepRelease (s : State) : Out State :=
  orRefuse (releaseRefusal s.cfg s.cons.curHandle s.fifo)
    (withResult .done
      { s with
        fifo := releaseBlock s.cfg s.fifo
        cons := { s.cons with curValid := false, cstep := .s1Pop } })

/-- The one step that `cstep` names (R242 to R246); refused unless RUNNING. -/
def consumerStep (s : State) : Out State :=
  if s.cons.cstate ≠ .running then .refused .notRunning
  else
    match s.cons.cstep with
    | .s1Pop => stepPop s
    | .s2Clock => stepClock s
    | .s3Parse => stepParse s
    | .s4Sample => stepSample s
    | .s5Release => stepRelease s

/-- `CONS.STEP` (R242 to R246). -/
def execConsStep (s : State) : Out State := requireAgent .cons s (consumerStep s)

/-- The consumer's next step after the environment's turn (R247, R283). -/
def nextConsumerStep (s : State) : Out State := consumerStep (betweenSteps s)

/-- The four steps of a pass after S1_POP (R247). -/
def finishCycle (s : State) : Out State :=
  andThen (nextConsumerStep s) fun s2 =>
    andThen (nextConsumerStep s2) fun s3 =>
      andThen (nextConsumerStep s3) fun s4 => nextConsumerStep s4

/-- `CONS.CYCLE` (R247): five steps from S1_POP, the environment between them; a first step that holds holds the pass. -/
def execConsCycle (s : State) : Out State :=
  requireAgent .cons s <|
    if s.cons.cstate ≠ .running then .refused .notRunning
    else if s.cons.cstep ≠ .s1Pop then .refused .cycleNotAtS1
    else
      andThen (consumerStep s) fun s1 => if s1.cons.cstep = .s1Pop then .next s1 else finishCycle s1

end Sys2Proof.Machine
end

