-- ==== Sys2Proof/Machine/Dispatch.lean ====
section
/-! DEFINITION. One arm per constructor of Instr, each a direct call of its meaning. -/
namespace Sys2Proof.Machine

def exec (i : Instr) (s : State) : Host.Outcome State Fault Refusal :=
  match i with
  | .fifoInit => Sys2Proof.Machine.execFifoInit s
  | .fifoTryPush block => Sys2Proof.Machine.execFifoTryPush block s
  | .fifoPop deadline => Sys2Proof.Machine.execFifoPop deadline s
  | .fifoRelease handle => Sys2Proof.Machine.execFifoRelease handle s
  | .bcdEnc value => Sys2Proof.Machine.execBcdEnc value s
  | .bcdDec byte => Sys2Proof.Machine.execBcdDec byte s
  | .timePack tod => Sys2Proof.Machine.execTimePack tod s
  | .timeUnpack r0 r1 r2 => Sys2Proof.Machine.execTimeUnpack r0 r1 r2 s
  | .i2cInit => Sys2Proof.Machine.execI2cInit s
  | .i2cWrite bytes => Sys2Proof.Machine.execI2cWrite bytes s
  | .i2cWriteRead bytes length => Sys2Proof.Machine.execI2cWriteRead bytes length s
  | .rtcWriteTime tod => Sys2Proof.Machine.execRtcWriteTime tod s
  | .rtcReadRegs start length => Sys2Proof.Machine.execRtcReadRegs start length s
  | .macFcLoad handle => Sys2Proof.Machine.execMacFcLoad handle s
  | .macFcDecode fc => Sys2Proof.Machine.execMacFcDecode fc s
  | .macAddrExtract handle => Sys2Proof.Machine.execMacAddrExtract handle s
  | .macParse handle => Sys2Proof.Machine.execMacParse handle s
  | .prodOnFrame pointer frameType => Sys2Proof.Machine.execProdOnFrame pointer frameType s
  | .consInit => Sys2Proof.Machine.execConsInit s
  | .consStep => Sys2Proof.Machine.execConsStep s
  | .consCycle => Sys2Proof.Machine.execConsCycle s
  | .fmtFrameControl fc => Sys2Proof.Machine.execFmtFrameControl fc s
  | .fmtBcdByte byte => Sys2Proof.Machine.execFmtBcdByte byte s
  | .fmtSecondsReg byte => Sys2Proof.Machine.execFmtSecondsReg byte s
  | .fmtMinutesReg byte => Sys2Proof.Machine.execFmtMinutesReg byte s
  | .fmtHoursReg byte => Sys2Proof.Machine.execFmtHoursReg byte s
  | .fmtClockRegisterFrame b0 b1 b2 b3 b4 b5 b6 b7 => Sys2Proof.Machine.execFmtClockRegisterFrame b0 b1 b2 b3 b4 b5 b6 b7 s
  | .fmtI2cAddressByte byte => Sys2Proof.Machine.execFmtI2cAddressByte byte s
  | .fmtLinkHeader bytes => Sys2Proof.Machine.execFmtLinkHeader bytes s
  | .fmtCaptureRecord bytes => Sys2Proof.Machine.execFmtCaptureRecord bytes s

end Sys2Proof.Machine
end

