-- ==== Sys2Proof/Machine/Schedule.lean ====
section
/-! DEFINITION. How a program runs (R120, notes/assumptions/4.md): a line of the schedule is decoded and executed in the
context of its agent; with no line left the hard-wired consumer goes on by itself, and before it runs the block idles. A
hold blocks the task context until another agent's step lifts it (00_scope.md section 5, R142). -/
namespace Sys2Proof.Machine

/-- The hold an operation can end in: `FIFO.POP` is the only one of its unit that can (R146), and the consumer holds at
S1_POP only (R288). -/
def holdOf : Instr → Option Hold
  | .fifoPop d => some (.pop d)
  | .consStep => some .step
  | .consCycle => some .cycle
  | _ => none

/-- What is held after an operation that answered `r`. -/
def heldAfter (i : Instr) (r : Result) : Option Hold := if r = .hold then holdOf i else none

/-- The operation that is held. -/
def Hold.instr : Hold → Instr
  | .pop d => .fifoPop d
  | .step => .consStep
  | .cycle => .consCycle

/-- The instruction issues the held operation again: the same pop, or an operation that takes the consumer's S1_POP. -/
def continuesHeld (h : Hold) (i : Instr) : Bool :=
  match h, holdOf i with
  | .pop d, some (.pop e) => decide (d = e)
  | .step, some .step | .step, some .cycle | .cycle, some .step | .cycle, some .cycle => true
  | _, _ => false

/-- The bytes of a line as the decoder reads them: the code, then the operands beside it (R114). -/
def lineBytes (l : Line) : List Byte := l.code :: l.operands

/-- The state in which an instruction executes as a step of an agent: its context is in force and its drawn outcomes stand
ready (R120, R288). -/
def enterAs (a : Agent) (script : List Nat) (s : State) : State :=
  { s with agent := some a, draws := { s.draws with script := script } }

/-- The state after it. The task context is still in force, held if the operation held (R142) and free if not; after a
step of the interrupt context, which its return leaves, or of the host, the context before is in force again, held or not
as it was (R288, notes/assumptions/37.md). -/
def leaveAs (a : Agent) (i : Instr) (before t : State) : State :=
  { t with
    agent := if a = .cons then some .cons else before.agent
    held := if a = .cons then heldAfter i t.result else before.held }

/-- Executes an instruction as a step of one agent. -/
def runAs (a : Agent) (script : List Nat) (i : Instr) (s : State) : Out State :=
  andThen (exec i (enterAs a script s)) fun t => .next (leaveAs a i s t)

/-- Decodes and executes one line; a line that is no operation is refused by name (R115). -/
def runLine (l : Line) (s : State) : Out State :=
  match decode (lineBytes l) with
  | .ok (i, _) => runAs l.agent l.draws i s
  | .error e => .refused (.undecodable e)

/-- The line is a step the held task context can take: it issues the held operation again. -/
def lineContinues (h : Hold) (l : Line) : Bool :=
  match decode (lineBytes l) with
  | .ok (i, _) => continuesHeld h i
  | .error _ => false

/-- The first line of another agent than the consumer, and the other lines in their order. -/
def nextOfOthers : List Line → Option (Line × List Line)
  | [] => none
  | l :: ls => if l.agent = .cons then (nextOfOthers ls).map fun x => (x.1, l :: x.2) else some (l, ls)

/-- The held operation goes on: it is tried again, and completes where the hold has been lifted (R142). -/
def resume (h : Hold) (s : State) : Out State := runAs .cons [] h.instr s

/-- The step where the next line is one the held task context cannot take (00_scope.md section 5): its lines wait. While
the hold stands the other agents' lines pass them, since the consumer never delays the producer (R283, R288); once it is
lifted, and where no other agent has a line, the held operation goes on (notes/assumptions/16.md). -/
def runHeld (h : Hold) (s : State) : Out State :=
  if emptySeen s.cfg s.fifo then
    match nextOfOthers s.sched with
    | some (l, ls) => runLine l { s with sched := ls }
    | none => resume h s
  else resume h s

/-- The block's own step while the task context is not held: the next line; with none left, the running consumer's
`CONS.STEP` (R249); else idle. -/
def runFree (s : State) : Out State :=
  match s.sched with
  | l :: ls => runLine l { s with sched := ls }
  | [] => if s.cons.cstate = .running then runAs .cons [] .consStep s else .next s

/-- The block's own step. -/
def runBlock (s : State) : Out State :=
  match s.held with
  | none => runFree s
  | some h =>
    match s.sched with
    | [] => resume h s
    | l :: ls => if l.agent ≠ .cons ∨ lineContinues h l = true then runLine l { s with sched := ls } else runHeld h s

/-- The environment step that is due now, if any. -/
def dueEvent : List Event → Option (Event × List Event)
  | [] => none
  | e :: es => if e.wait = 0 then some (e, es) else none

/-- One step under legal parameters: a due environment step first (R283), else the block's own step. -/
def runStep (s : State) : Out State :=
  match dueEvent s.events with
  | some (e, es) => .next (deliver e { s with events := es })
  | none => runBlock { s with events := countDown s.events }

/-- The agent R114 gives an operation; for an operation any agent may issue, and for a code that is none, CONS. -/
def issuingAgent (c : Byte) : Agent :=
  match Opcode.ofCode c with
  | some .fifoInit => .host
  | some .fifoTryPush => .prod
  | some .prodOnFrame => .prod
  | _ => .cons

/-- The line that carries a byte list as its code and operands. -/
def lineOfBytes (bs : List Byte) : Line where
  agent    := issuingAgent (bs.headD 0#8)
  code     := bs.headD 0#8
  operands := bs.tail
  draws    := []

/-- The environment waits one step longer. -/
def postpone : List Event → List Event
  | [] => []
  | e :: es => { e with wait := e.wait + 1 } :: es

end Sys2Proof.Machine
end

