-- ==== Sys2Proof/Machine/Step.lean ====
section
/-! DEFINITION. One step of the machine, and where the host places a word so that the next step runs it. -/
namespace Sys2Proof.Machine

/-- One step. Under parameters R312 excludes no rule of the spec applies, and the step is refused. -/
def step (s : State) : Host.Outcome State Fault Refusal :=
  if LegalParams s.cfg then runStep s else .refused .illegalParameters

/-- The state whose very next step runs the table word `w`: its line stands first in the schedule, issued by the agent
R114 gives it, the task context is not held, and no environment step is due before it (FIXED NAME;
notes/assumptions/4.md). -/
def State.withFetchWord (s : State) (nbits w : Nat) : State :=
  { s with sched := lineOfBytes (tableWordBytes nbits w) :: s.sched, held := none, events := postpone s.events }

end Sys2Proof.Machine
end

