-- ==== Sys2Proof/Safety.lean ====
section
/-! DEFINITION. What a state of a run is like: the invariant of the FIFO (R24, R149), of the consumer, of the memories,
the one-loan law (R250), the sampling count (R248), quiescence (R314), and the FIFO as a queue of blocks (R144). -/
namespace Sys2Proof.Machine

/-- Byte `k` of slot `i` (R71). -/
def slotByte (c : Params) (f : Fifo) (i k : Nat) : Option Byte := f.slots.read? (i * c.recBytes + k)

/-- Block number `n`, counted from `FIFO.INIT`, as its slot holds it (R23: slot `n mod DEPTH`). -/
def blockAt (c : Params) (f : Fifo) (n : Nat) : Option (List Byte) :=
  f.slots.readList? (n % depth c * c.recBytes) c.recBytes

/-- The blocks in the FIFO, oldest first: those on loan, then those queued (R24, R144). -/
def blocksHeld (c : Params) (f : Fifo) : List (Option (List Byte)) :=
  (List.range (f.pushed - f.released)).map fun i => blockAt c f (f.released + i)

/-- The FIFO's invariant once it is initialised (R24, R26, R149, U1). -/
structure FifoCounts (c : Params) (f : Fifo) : Prop where
  /-- `wr = WR mod (2 * DEPTH)`. -/
  wrCount      : f.wr = f.pushed % (2 * depth c)
  /-- `rd = RD mod (2 * DEPTH)`. -/
  rdCount      : f.rd = f.popped % (2 * depth c)
  /-- `fr = FR mod (2 * DEPTH)`. -/
  frCount      : f.fr = f.released % (2 * depth c)
  /-- `FR <= RD`. -/
  frLeRd       : f.released ≤ f.popped
  /-- `RD <= WR`. -/
  rdLeWr       : f.popped ≤ f.pushed
  /-- `WR <= FR + DEPTH`. -/
  wrLeDepth    : f.pushed ≤ f.released + depth c
  /-- A view never exceeds the true count. -/
  frViewLe     : f.frView ≤ f.released
  /-- A view never exceeds the true count. -/
  wrViewLe     : f.wrView ≤ f.pushed
  /-- The producer never overruns what it sees as free (R80, R83). -/
  wrLeView     : f.pushed ≤ releasedView c f + depth c
  /-- The consumer never pops what it does not see (R79, R83). -/
  rdLeView     : f.popped ≤ pushedView c f
  /-- Every byte of a block that is queued or on loan has been written (R79, U1). -/
  bytesWritten : ∀ n, f.released ≤ n → n < f.pushed → ∀ k, k < c.recBytes → (slotByte c f (n % depth c) k).isSome

/-- The memories are in canonical form and lie in their spaces (R70). -/
structure MemoriesWf (s : State) : Prop where
  slots      : Memory.wf s.fifo.slots
  slotsIn    : ∀ x ∈ s.fifo.slots, x.1 < depth s.cfg * s.cfg.recBytes
  registers  : Memory.wf s.chip.regs
  registerIn : ∀ x ∈ s.chip.regs, x.1 < 256
  buffer     : Memory.wf s.hwbuf

/-- The consumer's and the I2C master's registers (R27, R28, R30, R32, R36, R37, R38). -/
structure RegistersWf (s : State) : Prop where
  hours      : s.cons.todLast.hours ≤ 45
  minutes    : s.cons.todLast.minutes ≤ 85
  seconds    : s.cons.todLast.seconds ≤ 85
  addrA      : s.cons.addrA.length = 6
  addrB      : s.cons.addrB.length = 6
  txbuf      : s.i2c.txbuf.length = 8
  validStep  : s.cons.curValid = true ↔ s.cons.cstep ≠ .s1Pop
  handleIn   : s.cons.curHandle < depth s.cfg
  initAtS1   : s.cons.cstate = .init → s.cons.cstep = .s1Pop
  runningBus : s.cons.cstate = .running → s.i2c.busOpen = true

/-- The invariant every step keeps. -/
structure Inv (s : State) : Prop where
  params    : LegalParams s.cfg
  fifo      : s.fifo.ready = true → FifoCounts s.cfg s.fifo
  memories  : MemoriesWf s
  registers : RegistersWf s

/-- The one-loan law (R250): nothing on loan at S1_POP, and at every other step exactly the block of `cur_handle`. -/
def OneLoan (s : State) : Prop :=
  (s.cons.cstep = .s1Pop → loanedBlocks s.fifo = 0) ∧
  (s.cons.cstep ≠ .s1Pop → loanedBlocks s.fifo = 1 ∧ s.cons.curHandle = s.fifo.fr % depth s.cfg)

/-- The consumer is up: running, over an initialised channel. -/
def ConsumerUp (s : State) : Prop := s.cons.cstate = .running ∧ s.fifo.ready = true

/-- Instructions executed one after another in one context. -/
def runAll : List Instr → State → Out State
  | [], s => .next s
  | i :: is, s => andThen (exec i s) (runAll is)

/-- The event is a `LogSample`. -/
def isSample : LogEvent → Bool
  | .sample _ _ _ _ _ _ _ => true
  | .seed _ => false

/-- The number of `LogSample` events (R248). -/
def sampleCount (l : List LogEvent) : Nat := (l.filter isSample).length

/-- No tick of the chip's own can reach register `r` during a transaction (R199): with `RTC_ATOMIC_READ` none occurs, and
else a tick touches the three time registers alone (R200). -/
def Untouched (c : Params) (r : Nat) : Prop :=
  c.rtcAtomicRead = true ∨ r < c.timeBase.toNat ∨ c.timeBase.toNat + 3 ≤ r

/-- What a read of `n` registers from `a` does, R192: `n` bytes in `rxbuf`, one `BUS` entry; it writes no register (a tick
inside one that ends OK may, R199; that none lands inside a failed read is the model's choice, notes/assumptions/20.md);
if it ended OK each of the seven registers that holds a value is returned and the pointer has advanced past the last
byte; if it failed the pointer is where it was or anywhere the read could have left it. -/
def ReadEffect (a : Byte) (n : Nat) (s t : State) (r : Result) : Prop :=
  t = { s with
    chip := t.chip
    draws := t.draws
    i2c := { s.i2c with busStatus := (drawStatus s.draws).1, rxbuf := t.i2c.rxbuf }
    bus := s.bus ++ [.writeRead [a] n (drawStatus s.draws).1
      (if (drawStatus s.draws).1 = .ok then some t.i2c.rxbuf else none)]
    result := r } ∧
  t.i2c.rxbuf.length = n ∧
  (s.cfg.rtcAtomicRead = true ∨ (drawStatus s.draws).1 ≠ .ok → t.chip.regs = s.chip.regs) ∧
  (∀ x, Untouched s.cfg x → t.chip.regs.read? x = s.chip.regs.read? x) ∧
  ((drawStatus s.draws).1 = .ok →
    (∀ k b, k < n → s.cfg.timeBase.toNat ≤ a.toNat + k → a.toNat + k ≤ s.cfg.timeBase.toNat + 6 →
      Untouched s.cfg (a.toNat + k) → s.chip.regs.read? (a.toNat + k) = some b → t.i2c.rxbuf[k]? = some b) ∧
    (a.toNat + n < 256 → t.chip.ptr.toNat = a.toNat + n)) ∧
  ((drawStatus s.draws).1 ≠ .ok →
    t.chip.ptr = s.chip.ptr ∨ a.toNat + n = 256 ∨ ∃ k, k ≤ n ∧ t.chip.ptr.toNat = a.toNat + k)

/-- The consumer holds (R142, R242): at S1_POP over an initialised channel in which it sees no block, and no `FIFO.POP` of
a line of a program blocks its context instead. -/
def ConsumerHolds (s : State) : Prop :=
  s.cons.cstate = .running ∧ s.cons.cstep = .s1Pop ∧ s.fifo.ready = true ∧ emptySeen s.cfg s.fifo = true ∧
  ∀ d, s.held ≠ some (.pop d)

/-- The task context is held only at a pop: of an initialised channel, and the consumer's own only at S1_POP (R142, R242,
R288). -/
def HeldAtPop (s : State) : Prop :=
  ∀ h, s.held = some h →
    s.fifo.ready = true ∧ ((∃ d, h = .pop d) ∨ (s.cons.cstate = .running ∧ s.cons.cstep = .s1Pop))

/-- Quiescence (R314): no frame event to come, nothing queued, nothing on loan, the consumer holds at S1_POP or is
FATAL. -/
def Quiescent (s : State) : Prop :=
  (∀ e ∈ s.events, ∀ p t f, e.kind ≠ .frame p t f) ∧ availBlocks s.fifo = 0 ∧ loanedBlocks s.fifo = 0 ∧
  (ConsumerHolds s ∨ s.cons.cstate = .fatal)

/-- The environment step due now is a reset of the block (R286, R313). -/
def ResetDue (s : State) : Prop := ∃ d es, s.events = { wait := 0, draws := d, kind := .reset } :: es

end Sys2Proof.Machine
end

