-- ==== Sys2Proof/Certificates/Slice0/Obligations.lean ====
section
/-! DEFINITION. The statements for the provers. Each docstring names the rule of spec/ it formalises; a clause that rests
on the model's own choice says so and names the log entry. An equation `exec i s = .next { s with … }` is the result and
the whole frame at once: every field that is not named keeps its value. The field `result` (the port results travel on),
`exc` (the trace of exceptions), the mapping of draws to outcomes and the lists of lines and events are the model's own
everywhere (notes/assumptions/12.md, 13.md, 6.md, 4.md, 5.md): no rule of the spec numbers them. After a fatal cause the
consumer is stuck (R285, U30): the statements about its operations leave FATAL out, and ConsumerRefusals says what they
do there. -/

open Sys2Proof Sys2Proof.Machine

/-! ### Reset, decoding, the step -/

/-- R310: what reset leaves, "no context active" included; R313: a reset of the block, a step of the environment
(notes/assumptions/36.md, the model's choice), leaves it so and does not reset the chip. -/
def Obligations.ResetLeavesStatedValues : Prop :=
  State.reset.cons.cstate = .init ∧ State.reset.cons.cstep = .s1Pop ∧ State.reset.fifo.ready = false ∧
  State.reset.i2c.busOpen = false ∧ State.reset.cons.curValid = false ∧ State.reset.cons.timeValid = false ∧
  State.reset.dropCnt = 0 ∧ State.reset.cons.capCnt = 0 ∧ State.reset.cons.busErrCnt = 0 ∧
  State.reset.log = [] ∧ State.reset.bus = [] ∧ State.reset.agent = none ∧ State.reset.held = none ∧
  ∀ (s : State) (d : List Nat) (es : List Event), LegalParams s.cfg →
    s.events = { wait := 0, draws := d, kind := .reset } :: es →
    step s = .next
      { State.reset with
        cfg := s.cfg, chip := s.chip, hwbuf := s.hwbuf, draws := s.draws, sched := s.sched, events := es }

/-- The invariant holds at reset, and no context is held; its clauses about registers the spec leaves unspecified rest on
the reset values of notes/assumptions/8.md and 9.md, and that the parameters are legal on notes/assumptions/1.md (the
model's choices). -/
def Obligations.InvariantHoldsAtReset : Prop := Inv State.reset ∧ HeldAtPop State.reset

/-- A step with a line in the schedule and no environment step due runs the instruction the line decodes to, in the
line's context (R120, R114; the schedule is the model's, notes/assumptions/4.md); after it the task context stays in
force, held if the operation held (R142), and after a line of another agent the context before it is in force again (R288;
notes/assumptions/37.md). A held task context has no step but the held operation (00_scope.md section 5): any other line
of it stays in the schedule, the first line of another agent passes the waiting ones while the hold stands, and else the
held operation goes on (which of the two goes first is the model's, notes/assumptions/16.md). -/
def Obligations.StepRunsDecodedLine : Prop :=
  ∀ (s : State) (l : Line) (ls : List Line),
    LegalParams s.cfg → (∀ e ∈ s.events.head?, e.wait ≠ 0) → s.sched = l :: ls →
    (∀ (i : Instr) (r : List Byte), decode (l.code :: l.operands) = .ok (i, r) →
      (l.agent = .cons → ∀ h, s.held = some h → continuesHeld h i = true) →
      step s = andThen
        (exec i
          { s with
            agent := some l.agent
            draws := { s.draws with script := l.draws }
            sched := ls
            events := countDown s.events })
        fun t => .next
          { t with
            agent := if l.agent = .cons then some .cons else s.agent
            held := if l.agent = .cons then (if t.result = .hold then holdOf i else none) else s.held }) ∧
    (∀ h : Hold, s.held = some h → l.agent = .cons →
      (∀ i r, decode (l.code :: l.operands) = .ok (i, r) → continuesHeld h i = false) →
      (emptySeen s.cfg s.fifo = false ∨ (∀ x ∈ ls, x.agent = .cons) →
        step s = andThen
          (exec h.instr
            { s with agent := some .cons, draws := { s.draws with script := [] }, events := countDown s.events })
          fun t => .next { t with agent := some .cons, held := if t.result = .hold then some h else none }) ∧
      (∀ (pre post : List Line) (x : Line) (i : Instr) (r : List Byte), emptySeen s.cfg s.fifo = true →
        ls = pre ++ x :: post → (∀ y ∈ pre, y.agent = .cons) → x.agent ≠ .cons →
        decode (x.code :: x.operands) = .ok (i, r) →
        step s = andThen
          (exec i
            { s with
              agent := some x.agent
              draws := { s.draws with script := x.draws }
              sched := l :: pre ++ post
              events := countDown s.events })
          fun t => .next { t with agent := s.agent, held := s.held }))

/-- With no line left a held task context goes on with the held operation (R142); else the running consumer takes its own
`CONS.STEP`, and before it runs nothing changes (R249, R310; notes/assumptions/4.md and 16.md, the model's choice). -/
def Obligations.StepWithoutLine : Prop :=
  ∀ s : State, LegalParams s.cfg → (∀ e ∈ s.events.head?, e.wait ≠ 0) → s.sched = [] →
    (∀ h : Hold, s.held = some h →
      step s = andThen
        (exec h.instr
          { s with agent := some .cons, draws := { s.draws with script := [] }, events := countDown s.events })
        fun t => .next { t with agent := some .cons, held := if t.result = .hold then some h else none }) ∧
    (s.held = none → s.cons.cstate = .running →
      step s = andThen
        (exec .consStep
          { s with agent := some .cons, draws := { s.draws with script := [] }, events := countDown s.events })
        fun t => .next { t with agent := some .cons, held := if t.result = .hold then some .step else none }) ∧
    (s.held = none → s.cons.cstate ≠ .running → step s = .next { s with events := countDown s.events })

/-- R115: a code that is none of the 21 is invalid to the decoder, and the machine refuses its line (one of a held task
context is not reached, notes/assumptions/16.md). -/
def Obligations.UnassignedCodeRefused : Prop :=
  ∀ (c : Byte) (ops : List Byte),
    c ∉ [0x00#8, 0x01#8, 0x02#8, 0x03#8, 0x10#8, 0x11#8, 0x12#8, 0x13#8, 0x20#8, 0x21#8, 0x22#8, 0x23#8, 0x24#8,
      0x30#8, 0x31#8, 0x32#8, 0x33#8, 0x40#8, 0x41#8, 0x42#8, 0x43#8] →
    decode (c :: ops) = .error (.unassignedCode c) ∧
    ∀ (s : State) (l : Line) (ls : List Line), LegalParams s.cfg → (∀ e ∈ s.events.head?, e.wait ≠ 0) →
      s.sched = l :: ls → l.code = c → (l.agent = .cons → s.held = none) →
      step s = .refused (.undecodable (.unassignedCode c))

/-- R114: words written out from the code table, one or more a unit, decode to the operation they stand for; the operand
bytes are the model's layout (notes/assumptions/2.md). -/
def Obligations.ListedWordsDecode : Prop :=
  decode [0b00000000#8] = .ok (.fifoInit, []) ∧
  decode [0b00000011#8, 5#8, 0#8, 0#8, 0#8] = .ok (.fifoRelease 5, []) ∧
  decode [0b00010001#8, 0x59#8] = .ok (.bcdDec 0x59#8, []) ∧
  decode [0b00100100#8, 0x07#8, 3#8, 0#8, 0#8, 0#8] = .ok (.rtcReadRegs 0x07#8 3, []) ∧
  decode [0b00110001#8, 0x84#8, 0x00#8] = .ok (.macFcDecode 0x0084#16, []) ∧
  decode [0b01000011#8] = .ok (.consCycle, [])

/-- Every operation with operands the encoding carries reads back from its encoding, whatever bytes follow (R114; the
operand layout is the model's, notes/assumptions/2.md). -/
def Obligations.DecodeOfEncode : Prop :=
  ∀ (i : Instr) (rest : List Byte), i.wellFormed = true → decode (encode i ++ rest) = .ok (i, rest)

/-! ### The FIFO unit -/

/-- R140. -/
def Obligations.FifoInitEffect : Prop :=
  ∀ s : State, s.agent = some .host →
    (s.fifo.ready = false →
      exec .fifoInit s = .next
        { s with
          fifo := { s.fifo with
            ready := true, wr := 0, rd := 0, fr := 0, pushed := 0, popped := 0, released := 0, frView := 0, wrView := 0 }
          result := .done }) ∧
    (s.fifo.ready = true → exec .fifoInit s = .refused .alreadyInitialised)

/-- R141, an accepted push: the block's bytes stand in slot `wr mod DEPTH`, every other byte of the slots is as it was,
the pointer has advanced, and nothing else has changed. -/
def Obligations.PushAccepted : Prop :=
  ∀ (s : State) (b : List Byte), s.agent = some .prod → s.fifo.ready = true → b.length = s.cfg.recBytes →
    s.fifo.pushed - releasedView s.cfg s.fifo ≠ s.cfg.capBytes / s.cfg.recBytes →
    ∃ t, exec (.fifoTryPush b) s = .next t ∧
      t = { s with
        fifo := { s.fifo with
          slots := t.fifo.slots
          wr := (s.fifo.wr + 1) % (2 * (s.cfg.capBytes / s.cfg.recBytes))
          pushed := s.fifo.pushed + 1 }
        result := .accepted true } ∧
      (∀ k, k < s.cfg.recBytes →
        t.fifo.slots.read? (s.fifo.wr % (s.cfg.capBytes / s.cfg.recBytes) * s.cfg.recBytes + k) = b[k]?) ∧
      (∀ a, (a < s.fifo.wr % (s.cfg.capBytes / s.cfg.recBytes) * s.cfg.recBytes ∨
          s.fifo.wr % (s.cfg.capBytes / s.cfg.recBytes) * s.cfg.recBytes + s.cfg.recBytes ≤ a) →
        t.fifo.slots.read? a = s.fifo.slots.read? a)

/-- R141, the other results of a push: on a full FIFO `false`, with no state changed; before `FIFO.INIT`, and with a
block of another length, a refusal. -/
def Obligations.PushRejectedOrRefused : Prop :=
  ∀ (s : State) (b : List Byte), s.agent = some .prod →
    (s.fifo.ready = false → exec (.fifoTryPush b) s = .refused .channelNotReady) ∧
    (s.fifo.ready = true → b.length ≠ s.cfg.recBytes → exec (.fifoTryPush b) s = .refused .wrongLength) ∧
    (s.fifo.ready = true → b.length = s.cfg.recBytes →
      s.fifo.pushed - releasedView s.cfg s.fifo = s.cfg.capBytes / s.cfg.recBytes →
      exec (.fifoTryPush b) s = .next { s with result := .accepted false })

/-- R145: with `VIS_LAG = exact` a push is accepted if and only if `WR - FR < DEPTH`; from an empty FIFO with nothing on
loan, `DEPTH` pushes in a row are all accepted, and every further push is rejected and changes no slot and no pointer. -/
def Obligations.CapacityLaw : Prop :=
  ∀ s : State, LegalParams s.cfg → s.cfg.visLag = .exact → s.fifo.ready = true → FifoCounts s.cfg s.fifo →
    s.agent = some .prod →
    (∀ b : List Byte, b.length = s.cfg.recBytes →
      ∃ t, exec (.fifoTryPush b) s = .next t ∧
        (t.result = .accepted true ↔ s.fifo.pushed - s.fifo.released < depth s.cfg)) ∧
    (∀ bs : List (List Byte), s.fifo.pushed = s.fifo.released → bs.length = depth s.cfg →
      (∀ b ∈ bs, b.length = s.cfg.recBytes) →
      ∃ t, runAll (bs.map .fifoTryPush) s = .next t ∧ blocksHeld t.cfg t.fifo = bs.map some ∧
        ∀ b : List Byte, b.length = s.cfg.recBytes →
          exec (.fifoTryPush b) t = .next { t with result := .accepted false })

/-- R83, R25: the lag can only reject: on a FIFO whose slots are all queued or on loan no push is accepted, under either
`VIS_LAG`; and a pop never returns a block that was not pushed. -/
def Obligations.LagNeverOverrunsOrUnderruns : Prop :=
  ∀ s : State, LegalParams s.cfg → s.fifo.ready = true → FifoCounts s.cfg s.fifo →
    (∀ b : List Byte, s.agent = some .prod → b.length = s.cfg.recBytes →
      s.fifo.pushed - s.fifo.released = depth s.cfg →
      exec (.fifoTryPush b) s = .next { s with result := .accepted false }) ∧
    (s.agent = some .cons → s.cons.cstate ≠ .fatal → s.fifo.popped = s.fifo.pushed →
      exec (.fifoPop .forever) s = .next { s with result := .hold })

/-- R142, U10: the oldest queued block, with either deadline, if one is visible; else hold, and with a finite deadline
hold or timeout as drawn (hold on the draw 0, timeout on 1, notes/assumptions/6.md), with no state changed. -/
def Obligations.PopResult : Prop :=
  ∀ (s : State) (d : Deadline), s.agent = some .cons → s.cons.cstate ≠ .fatal →
    (s.fifo.ready = false → exec (.fifoPop d) s = .refused .channelNotReady) ∧
    (s.fifo.ready = true → pushedView s.cfg s.fifo - s.fifo.popped > 0 →
      exec (.fifoPop d) s = .next
        { s with
          fifo := { s.fifo with
            rd := (s.fifo.rd + 1) % (2 * (s.cfg.capBytes / s.cfg.recBytes)), popped := s.fifo.popped + 1 }
          result := .handle (s.fifo.rd % (s.cfg.capBytes / s.cfg.recBytes)) }) ∧
    (s.fifo.ready = true → pushedView s.cfg s.fifo - s.fifo.popped = 0 →
      exec (.fifoPop .forever) s = .next { s with result := .hold } ∧
      ((drawBelow 2 s.draws).1 = 0 →
        exec (.fifoPop .finite) s = .next { s with result := .hold, draws := (drawBelow 2 s.draws).2 }) ∧
      ((drawBelow 2 s.draws).1 = 1 →
        exec (.fifoPop .finite) s = .next { s with result := .timeout, draws := (drawBelow 2 s.draws).2 }) ∧
      ((drawBelow 2 s.draws).1 = 0 ∨ (drawBelow 2 s.draws).1 = 1))

/-- R143: only the oldest loan is released, and its slot is free again. -/
def Obligations.ReleaseResult : Prop :=
  ∀ (s : State) (h : Nat), s.agent = some .cons → s.cons.cstate ≠ .fatal →
    (s.fifo.ready = false → exec (.fifoRelease h) s = .refused .channelNotReady) ∧
    (s.fifo.ready = true → s.fifo.popped - s.fifo.released = 0 →
      exec (.fifoRelease h) s = .refused .nothingOnLoan) ∧
    (s.fifo.ready = true → s.fifo.popped - s.fifo.released ≠ 0 →
      h ≠ s.fifo.fr % (s.cfg.capBytes / s.cfg.recBytes) → exec (.fifoRelease h) s = .refused .notOldestLoan) ∧
    (s.fifo.ready = true → s.fifo.popped - s.fifo.released ≠ 0 →
      h = s.fifo.fr % (s.cfg.capBytes / s.cfg.recBytes) →
      exec (.fifoRelease h) s = .next
        { s with
          fifo := { s.fifo with
            fr := (s.fifo.fr + 1) % (2 * (s.cfg.capBytes / s.cfg.recBytes)), released := s.fifo.released + 1 }
          result := .done })

/-- R24, R25: under the FIFO's invariant the three hardware pointers alone give the counts, as differences modulo
`2 * DEPTH`, and with `VIS_LAG = exact` the two flags. -/
def Obligations.PointersGiveCounts : Prop :=
  ∀ (c : Params) (f : Fifo), 1 ≤ depth c → FifoCounts c f →
    (f.wr + 2 * depth c - f.fr) % (2 * depth c) = f.pushed - f.released ∧
    (f.wr + 2 * depth c - f.rd) % (2 * depth c) = f.pushed - f.popped ∧
    (f.rd + 2 * depth c - f.fr) % (2 * depth c) = f.popped - f.released ∧
    (c.visLag = .exact →
      (fullSeen c f = true ↔ (f.wr + 2 * depth c - f.fr) % (2 * depth c) = depth c) ∧
      (emptySeen c f = true ↔ f.wr = f.rd))

/-- R144, R80, R81: the FIFO is a queue. An accepted push appends its block to those held; a rejected one changes none; a
pop hands out the oldest block not yet handed out, and changes none; a release takes the oldest away. -/
def Obligations.FifoIsQueue : Prop :=
  ∀ s : State, LegalParams s.cfg → s.fifo.ready = true → FifoCounts s.cfg s.fifo →
    (∀ (b : List Byte) (t : State), exec (.fifoTryPush b) s = .next t →
      (t.result = .accepted true → blocksHeld t.cfg t.fifo = blocksHeld s.cfg s.fifo ++ [some b]) ∧
      (t.result ≠ .accepted true → blocksHeld t.cfg t.fifo = blocksHeld s.cfg s.fifo)) ∧
    (∀ (d : Deadline) (t : State), exec (.fifoPop d) s = .next t →
      blocksHeld t.cfg t.fifo = blocksHeld s.cfg s.fifo ∧
      ∀ h, t.result = .handle h →
        (blocksHeld s.cfg s.fifo)[loanedBlocks s.fifo]? =
          some (t.fifo.slots.readList? (h * s.cfg.recBytes) s.cfg.recBytes) ∧
        loanedBlocks t.fifo = loanedBlocks s.fifo + 1) ∧
    (∀ (h : Nat) (t : State), s.cons.cstate ≠ .fatal → exec (.fifoRelease h) s = .next t →
      blocksHeld t.cfg t.fifo = (blocksHeld s.cfg s.fifo).tail ∧ loanedBlocks t.fifo + 1 = loanedBlocks s.fifo)

/-- The agent column of R114 and R288 give each operation its context; that one issued outside it is refused, and not
only the overlapping pushes and bus users of R324 and R325, is the model's reading (DEDUCED, notes/assumptions/14.md). -/
def Obligations.WrongAgentRefused : Prop :=
  ∀ (s : State) (i : Instr),
    (i = .fifoInit → s.agent ≠ some .host → exec i s = .refused .wrongAgent) ∧
    (((∃ b, i = .fifoTryPush b) ∨ (∃ p t, i = .prodOnFrame p t)) → s.agent ≠ some .prod →
      exec i s = .refused .wrongAgent) ∧
    (((∃ d, i = .fifoPop d) ∨ (∃ h, i = .fifoRelease h) ∨ (∃ t, i = .timePack t) ∨ (∃ x y z, i = .timeUnpack x y z) ∨
        i = .i2cInit ∨ (∃ l, i = .i2cWrite l) ∨ (∃ w n, i = .i2cWriteRead w n) ∨ (∃ t, i = .rtcWriteTime t) ∨
        (∃ a n, i = .rtcReadRegs a n) ∨ (∃ h, i = .macFcLoad h) ∨ (∃ h, i = .macAddrExtract h) ∨
        (∃ h, i = .macParse h) ∨ i = .consInit ∨ i = .consStep ∨ i = .consCycle) →
      s.agent ≠ some .cons → exec i s = .refused .wrongAgent)

/-! ### The codec -/

/-- R170. -/
def Obligations.BcdEncodeResult : Prop :=
  ∀ (v : Nat) (s : State),
    (v ≤ 99 → ∃ b : Byte, b.toNat = v / 10 * 16 + v % 10 ∧ exec (.bcdEnc v) s = .next { s with result := .byte b }) ∧
    (99 < v → exec (.bcdEnc v) s = .refused .valueAbove99)

/-- R171, R116: total on every byte. -/
def Obligations.BcdDecodeResult : Prop :=
  ∀ (b : Byte) (s : State),
    exec (.bcdDec b) s = .next { s with result := .value (b.toNat / 16 * 10 + b.toNat % 16) }

/-- R175: decoding an encoded value gives it back; and, of R176, encoding a decoded packed-decimal byte gives it back. -/
def Obligations.BcdRoundTrip : Prop :=
  (∀ (v : Nat) (s : State), v ≤ 99 →
    ∃ (b : Byte) (t : State), exec (.bcdEnc v) s = .next t ∧ t.result = .byte b ∧
      b.toNat / 16 ≤ 9 ∧ b.toNat % 16 ≤ 9 ∧ exec (.bcdDec b) t = .next { t with result := .value v }) ∧
  (∀ (b : Byte) (s : State), b.toNat / 16 ≤ 9 → b.toNat % 16 ≤ 9 →
    ∃ (v : Nat) (t : State), exec (.bcdDec b) s = .next t ∧ t.result = .value v ∧
      exec (.bcdEnc v) t = .next { t with result := .byte b })

/-- R173: the frame of a valid TimeOfDay stands in `txbuf`, its reserved bits clear; any other value is refused. -/
def Obligations.TimePackResult : Prop :=
  ∀ (t : TimeFields) (s : State), s.agent = some .cons → s.cons.cstate ≠ .fatal →
    (t.hours ≤ 23 → t.minutes ≤ 59 → t.seconds ≤ 59 →
      ∃ bs bm bh : Byte, bs.toNat = t.seconds / 10 * 16 + t.seconds % 10 ∧
        bm.toNat = t.minutes / 10 * 16 + t.minutes % 10 ∧ bh.toNat = t.hours / 10 * 16 + t.hours % 10 ∧
        bs.toNat < 128 ∧ bm.toNat < 128 ∧ bh.toNat < 64 ∧
        exec (.timePack t) s = .next
          { s with
            i2c := { s.i2c with
              txbuf := [s.cfg.timeBase, bs, bm, bh, s.cfg.ph.weekday, s.cfg.ph.date, s.cfg.ph.month, s.cfg.ph.year] }
            result := .done }) ∧
    (23 < t.hours ∨ 59 < t.minutes ∨ 59 < t.seconds → exec (.timePack t) s = .refused .notATimeOfDay)

/-- R174: masked, decoded by the formula, stored without a range check; R32's ranges follow. -/
def Obligations.TimeUnpackResult : Prop :=
  ∀ (r0 r1 r2 : Byte) (s : State), s.agent = some .cons → s.cons.cstate ≠ .fatal →
    ∃ tod : TimeFields,
      tod.seconds = r0.toNat % 128 / 16 * 10 + r0.toNat % 16 ∧ tod.minutes = r1.toNat % 128 / 16 * 10 + r1.toNat % 16 ∧
      tod.hours = r2.toNat % 64 / 16 * 10 + r2.toNat % 16 ∧
      tod.seconds ≤ 85 ∧ tod.minutes ≤ 85 ∧ tod.hours ≤ 45 ∧
      exec (.timeUnpack r0 r1 r2) s = .next { s with cons := { s.cons with todLast := tod }, result := .done }

/-! ### The I2C master and the clock chip -/

/-- R190, R271: ok, or the fatal `E_BUS_INIT`; a second `I2C.INIT` is refused. -/
def Obligations.I2cInitResult : Prop :=
  ∀ s : State, s.agent = some .cons → s.cons.cstate ≠ .fatal →
    (s.i2c.busOpen = true → exec .i2cInit s = .refused .alreadyInitialised) ∧
    (s.i2c.busOpen = false → (drawBelow 2 s.draws).1 = 0 →
      exec .i2cInit s = .next
        { s with
          i2c := { s.i2c with busOpen := true }
          draws := (drawBelow 2 s.draws).2
          result := .done }) ∧
    (s.i2c.busOpen = false → (drawBelow 2 s.draws).1 ≠ 0 →
      exec .i2cInit s = .next
        { s with
          cons := { s.cons with cstate := .fatal }
          exc := s.exc ++ [.busInit]
          draws := (drawBelow 2 s.draws).2
          result := .raised .busInit })

/-- R190, R195, R196, U17 to U19, of the draw definitions: no outcome is excluded. Both outcomes of `I2C.INIT`, every
outcome of a transaction, and with it every number of delivered bytes of a write that R196 allows, are drawn by some
draws. That the operations go by these draws is I2cInitResult, BusWriteResult and BusReadResult (the mapping of draws to
outcomes is the model's, notes/assumptions/6.md). -/
def Obligations.EveryBusOutcomeIsDrawn : Prop :=
  ∀ d : Draws,
    (∀ x, x < 2 → ∃ d', d'.taken = d.taken ∧ (drawBelow 2 d').1 = x) ∧
    (∀ (o : BusStatus) (n j : Nat), j ≤ n → (o = .ok → j = n) →
      ∃ d', d'.taken = d.taken ∧ (drawStatus d').1 = o ∧ (bytesDelivered n o (drawStatus d').2).1 = j)

/-- R191, R196: the bytes that reached the chip are a prefix, as long as drawn, all of them if the write ended OK; the data bytes of the
prefix stand in the registers from the pointer upward and every other register is as it was (but for the three time
registers if a tick may land inside the write, R199); `rtc.ptr` has advanced past them. -/
def Obligations.BusWriteResult : Prop :=
  ∀ (s : State) (p : Byte) (data : List Byte), s.agent = some .cons → s.cons.cstate ≠ .fatal → s.i2c.busOpen = true →
    p.toNat + data.length ≤ 256 →
    ∃ (t : State) (j : Nat), exec (.i2cWrite (p :: data)) s = .next t ∧
      t = { s with
        chip := t.chip
        draws := t.draws
        i2c := { s.i2c with busStatus := (drawStatus s.draws).1 }
        bus := s.bus ++ [.write (p :: data) (drawStatus s.draws).1]
        result := .status (drawStatus s.draws).1 } ∧
      j = (bytesDelivered (data.length + 1) (drawStatus s.draws).1 (drawStatus s.draws).2).1 ∧
      j ≤ data.length + 1 ∧ ((drawStatus s.draws).1 = .ok → j = data.length + 1) ∧
      (j = 0 → t.chip = s.chip) ∧
      (0 < j → p.toNat + (j - 1) < 256 → t.chip.ptr.toNat = p.toNat + (j - 1)) ∧
      (∀ a, Untouched s.cfg a → t.chip.regs.read? a =
        if p.toNat ≤ a ∧ a < p.toNat + (j - 1) then data[a - p.toNat]? else s.chip.regs.read? a)

/-- R191 to R194: the refusals of the transactions. -/
def Obligations.BusRefusals : Prop :=
  ∀ s : State, s.agent = some .cons → s.cons.cstate ≠ .fatal →
    (∀ l, s.i2c.busOpen = false → exec (.i2cWrite l) s = .refused .busNotOpen) ∧
    (s.i2c.busOpen = true → exec (.i2cWrite []) s = .refused .emptyTransfer) ∧
    (∀ (p : Byte) (data : List Byte), s.i2c.busOpen = true → 256 < p.toNat + data.length →
      exec (.i2cWrite (p :: data)) s = .refused .pastLastRegister) ∧
    (∀ w n, s.i2c.busOpen = false → exec (.i2cWriteRead w n) s = .refused .busNotOpen) ∧
    (∀ w n, s.i2c.busOpen = true → w.length ≠ 1 → exec (.i2cWriteRead w n) s = .refused .writePhaseNotOneByte) ∧
    (∀ a : Byte, s.i2c.busOpen = true → exec (.i2cWriteRead [a] 0) s = .refused .emptyTransfer) ∧
    (∀ (a : Byte) (n : Nat), s.i2c.busOpen = true → n ≠ 0 → 256 < a.toNat + n →
      exec (.i2cWriteRead [a] n) s = .refused .pastLastRegister) ∧
    (∀ tod : TimeFields, 23 < tod.hours ∨ 59 < tod.minutes ∨ 59 < tod.seconds →
      exec (.rtcWriteTime tod) s = .refused .notATimeOfDay) ∧
    (∀ tod : TimeFields, tod.hours ≤ 23 → tod.minutes ≤ 59 → tod.seconds ≤ 59 → s.i2c.busOpen = false →
      exec (.rtcWriteTime tod) s = .refused .busNotOpen) ∧
    (∀ (a : Byte) (n : Nat), s.i2c.busOpen = false → exec (.rtcReadRegs a n) s = .refused .busNotOpen) ∧
    (∀ a : Byte, s.i2c.busOpen = true → exec (.rtcReadRegs a 0) s = .refused .emptyTransfer) ∧
    (∀ (a : Byte) (n : Nat), s.i2c.busOpen = true → n ≠ 0 → 256 < a.toNat + n →
      exec (.rtcReadRegs a n) s = .refused .pastLastRegister)

/-- R192. That no tick lands inside a failed read, so that it leaves every register as it was with `RTC_ATOMIC_READ`
false too, is the model's choice (DESIGN CHOICE, notes/assumptions/20.md). -/
def Obligations.BusReadResult : Prop :=
  ∀ (s : State) (a : Byte) (n : Nat), s.agent = some .cons → s.cons.cstate ≠ .fatal →
    s.i2c.busOpen = true → n ≠ 0 → a.toNat + n ≤ 256 →
    ∃ t, exec (.i2cWriteRead [a] n) s = .next t ∧
      ReadEffect a n s t (.status (drawStatus s.draws).1)

/-- R193: the ClockRegisterFrame of R109 goes out in one write; if it ended OK the seven registers hold its last seven
bytes (the time bytes if no tick may land inside the write, R199), and in every case no register outside the seven has
changed. -/
def Obligations.WriteTimeResult : Prop :=
  ∀ (s : State) (tod : TimeFields), LegalParams s.cfg → s.agent = some .cons → s.cons.cstate ≠ .fatal →
    s.i2c.busOpen = true →
    tod.hours ≤ 23 → tod.minutes ≤ 59 → tod.seconds ≤ 59 →
    ∃ (t : State) (bs bm bh : Byte), exec (.rtcWriteTime tod) s = .next t ∧
      bs.toNat = tod.seconds / 10 * 16 + tod.seconds % 10 ∧ bm.toNat = tod.minutes / 10 * 16 + tod.minutes % 10 ∧
      bh.toNat = tod.hours / 10 * 16 + tod.hours % 10 ∧
      t.i2c.txbuf = [s.cfg.timeBase, bs, bm, bh, s.cfg.ph.weekday, s.cfg.ph.date, s.cfg.ph.month, s.cfg.ph.year] ∧
      t = { s with
        chip := t.chip
        draws := t.draws
        i2c := { s.i2c with txbuf := t.i2c.txbuf, busStatus := (drawStatus s.draws).1 }
        bus := s.bus ++ [.write t.i2c.txbuf (drawStatus s.draws).1]
        result := .success (decide ((drawStatus s.draws).1 = .ok)) } ∧
      ((drawStatus s.draws).1 = .ok → ∀ k, k < 7 → Untouched s.cfg (s.cfg.timeBase.toNat + k) →
        t.chip.regs.read? (s.cfg.timeBase.toNat + k) = t.i2c.txbuf[k + 1]?) ∧
      (∀ r, r < s.cfg.timeBase.toNat ∨ s.cfg.timeBase.toNat + 7 ≤ r →
        t.chip.regs.read? r = s.chip.regs.read? r)

/-- R194: the raw bytes, or the failure with its status. That no tick lands inside a failed read, so that it leaves every
register as it was with `RTC_ATOMIC_READ` false too, is the model's choice (DESIGN CHOICE, notes/assumptions/20.md). -/
def Obligations.ReadRegsResult : Prop :=
  ∀ (s : State) (a : Byte) (n : Nat), s.agent = some .cons → s.cons.cstate ≠ .fatal →
    s.i2c.busOpen = true → n ≠ 0 → a.toNat + n ≤ 256 →
    ∃ t, exec (.rtcReadRegs a n) s = .next t ∧
      ReadEffect a n s t
        (if (drawStatus s.draws).1 = .ok then .bytes t.i2c.rxbuf else .fail (drawStatus s.draws).1)

/-- R177: a successful `RTC.WRITE_TIME t`, any change of the flag bits and no tick, then a successful
`RTC.READ_REGS TIME_BASE, 3` and `TIME.UNPACK` of its bytes leave `tod_last = t`. -/
def Obligations.ClockRoundTrip : Prop :=
  ∀ (s s1 s3 : State) (tod : TimeFields) (f : ChipFlags) (r : List Byte),
    LegalParams s.cfg → s.cfg.rtcAtomicRead = true →
    exec (.rtcWriteTime tod) s = .next s1 → s1.result = .success true →
    exec (.rtcReadRegs s.cfg.timeBase 3) (runEvent (.chipFlags f) s1) = .next s3 → s3.result = .bytes r →
    ∃ (r0 r1 r2 : Byte) (s4 : State), r = [r0, r1, r2] ∧ exec (.timeUnpack r0 r1 r2) s3 = .next s4 ∧
      s4.cons.todLast = tod

/-- R200: a tick of a valid time replaces the three registers by the packed-decimal encoding of the next second of the
day, the flag bits kept, every other register unchanged. -/
def Obligations.TickIsNextSecond : Prop :=
  ∀ (s : State) (d : List Nat) (es : List Event) (b0 b1 b2 : Byte) (h m x : Nat),
    LegalParams s.cfg → s.events = { wait := 0, draws := d, kind := .tick } :: es →
    s.chip.regs.read? s.cfg.timeBase.toNat = some b0 → s.chip.regs.read? (s.cfg.timeBase.toNat + 1) = some b1 →
    s.chip.regs.read? (s.cfg.timeBase.toNat + 2) = some b2 →
    unpackTime b0 b1 b2 = ⟨h, m, x⟩ → h ≤ 23 → m ≤ 59 → x ≤ 59 →
    ∃ (t : State) (c0 c1 c2 : Byte) (n : TimeFields), step s = .next t ∧
      t = { s with chip := t.chip, events := es } ∧ t.chip.ptr = s.chip.ptr ∧
      t.chip.regs.read? s.cfg.timeBase.toNat = some c0 ∧ t.chip.regs.read? (s.cfg.timeBase.toNat + 1) = some c1 ∧
      t.chip.regs.read? (s.cfg.timeBase.toNat + 2) = some c2 ∧
      n = (if x < 59 then ⟨h, m, x + 1⟩ else if m < 59 then ⟨h, m + 1, 0⟩ else if h < 23 then ⟨h + 1, 0, 0⟩
        else ⟨0, 0, 0⟩) ∧
      unpackTime c0 c1 c2 = n ∧ c0.toNat % 128 = n.seconds / 10 * 16 + n.seconds % 10 ∧
      c1.toNat % 128 = n.minutes / 10 * 16 + n.minutes % 10 ∧ c2.toNat % 64 = n.hours / 10 * 16 + n.hours % 10 ∧
      c0.toNat / 128 = b0.toNat / 128 ∧ c1.toNat / 128 = b1.toNat / 128 ∧ c2.toNat / 64 = b2.toNat / 64 ∧
      ∀ r, r < s.cfg.timeBase.toNat ∨ s.cfg.timeBase.toNat + 3 ≤ r →
        t.chip.regs.read? r = s.chip.regs.read? r

/-! ### The parser -/

/-- R220 and R73: the two record bytes at the link header's `FC_OFF`, low byte first with `FC_LE`; a slot that is not on
loan is refused. -/
def Obligations.FcLoadResult : Prop :=
  ∀ (s : State) (h : Nat), s.agent = some .cons → s.cons.cstate ≠ .fatal →
    (onLoan s.cfg s.fifo h = false → exec (.macFcLoad h) s = .refused .slotNotOnLoan) ∧
    (∀ b0 b1 : Byte, LegalParams s.cfg → onLoan s.cfg s.fifo h = true →
      slotByte s.cfg s.fifo h (s.cfg.metaBytes + s.cfg.fcOff) = some b0 →
      slotByte s.cfg s.fifo h (s.cfg.metaBytes + s.cfg.fcOff + 1) = some b1 →
      exec (.macFcLoad h) s = .next
        { s with
          cons := { s.cons with fcReg := if s.cfg.fcLe then b1 ++ b0 else b0 ++ b1 }
          result := .done })

/-- R221, R118, R114: every value decodes, `fc[3:2]` and `fc[7:4]`, and the two are written, whichever agent issues it
(that R221 decides this where R35 and R288 name CONS as the writer: DEDUCED, notes/assumptions/35.md). -/
def Obligations.FcDecodeResult : Prop :=
  ∀ (fc : HalfWord) (s : State), (s.agent = some .cons → s.cons.cstate ≠ .fatal) →
    exec (.macFcDecode fc) s = .next
      { s with
        cons := { s.cons with ftype := fc.extractLsb' 2 2, fsubtype := fc.extractLsb' 4 4 }
        result := .fields [fc.toNat / 4 % 4, fc.toNat / 16 % 16] }

/-- R222 and R77: six record bytes each, in record order; a slot that is not on loan is refused. -/
def Obligations.AddrExtractResult : Prop :=
  ∀ (s : State) (h : Nat), s.agent = some .cons → s.cons.cstate ≠ .fatal →
    (onLoan s.cfg s.fifo h = false → exec (.macAddrExtract h) s = .refused .slotNotOnLoan) ∧
    (∀ a b : List Byte, LegalParams s.cfg → onLoan s.cfg s.fifo h = true → a.length = 6 → b.length = 6 →
      (∀ k, k < 6 → slotByte s.cfg s.fifo h (s.cfg.metaBytes + s.cfg.addrAOff + k) = a[k]?) →
      (∀ k, k < 6 → slotByte s.cfg s.fifo h (s.cfg.metaBytes + s.cfg.addrBOff + k) = b[k]?) →
      exec (.macAddrExtract h) s = .next { s with cons := { s.cons with addrA := a, addrB := b }, result := .done })

/-- R223 with R220 to R222: the frame-control field, its two fields and the two addresses of a record on loan; a slot
that is not on loan is refused. -/
def Obligations.ParseResult : Prop :=
  ∀ (s : State) (h : Nat), s.agent = some .cons → s.cons.cstate ≠ .fatal →
    (onLoan s.cfg s.fifo h = false → exec (.macParse h) s = .refused .slotNotOnLoan) ∧
    (∀ (b0 b1 : Byte) (a b : List Byte), LegalParams s.cfg → onLoan s.cfg s.fifo h = true →
      slotByte s.cfg s.fifo h (s.cfg.metaBytes + s.cfg.fcOff) = some b0 →
      slotByte s.cfg s.fifo h (s.cfg.metaBytes + s.cfg.fcOff + 1) = some b1 → a.length = 6 → b.length = 6 →
      (∀ k, k < 6 → slotByte s.cfg s.fifo h (s.cfg.metaBytes + s.cfg.addrAOff + k) = a[k]?) →
      (∀ k, k < 6 → slotByte s.cfg s.fifo h (s.cfg.metaBytes + s.cfg.addrBOff + k) = b[k]?) →
      exec (.macParse h) s = .next
        { s with
          cons := { s.cons with
            fcReg := if s.cfg.fcLe then b1 ++ b0 else b0 ++ b1
            ftype := (if s.cfg.fcLe then b0 else b1).extractLsb' 2 2
            fsubtype := (if s.cfg.fcLe then b0 else b1).extractLsb' 4 4
            addrA := a
            addrB := b }
          result := .done })

/-- R224: the parser's results depend on 14 record bytes only: two machines whose slots agree on those bytes parse to the
same five registers, whatever else differs. -/
def Obligations.ParserReadsFourteenBytes : Prop :=
  ∀ (s s' t t' : State) (h : Nat), s'.cfg = s.cfg → s.cons.cstate ≠ .fatal → s'.cons.cstate ≠ .fatal →
    (∀ k, (s.cfg.metaBytes + s.cfg.fcOff ≤ k ∧ k < s.cfg.metaBytes + s.cfg.fcOff + 2) ∨
        (s.cfg.metaBytes + s.cfg.addrAOff ≤ k ∧ k < s.cfg.metaBytes + s.cfg.addrAOff + 6) ∨
        (s.cfg.metaBytes + s.cfg.addrBOff ≤ k ∧ k < s.cfg.metaBytes + s.cfg.addrBOff + 6) →
      slotByte s.cfg s.fifo h k = slotByte s.cfg s'.fifo h k) →
    exec (.macParse h) s = .next t → exec (.macParse h) s' = .next t' →
    t.cons.fcReg = t'.cons.fcReg ∧ t.cons.ftype = t'.cons.ftype ∧ t.cons.fsubtype = t'.cons.fsubtype ∧
    t.cons.addrA = t'.cons.addrA ∧ t.cons.addrB = t'.cons.addrB

/-- R89, U1: in every state of the invariant each block on loan can be parsed: no byte of it is without a value. -/
def Obligations.LoanedBlockParses : Prop :=
  ∀ (s : State) (n : Nat), Inv s → s.fifo.ready = true → s.agent = some .cons →
    s.cons.cstate ≠ .fatal → s.fifo.released ≤ n → n < s.fifo.popped →
    ∃ t, exec (.macParse (n % depth s.cfg)) s = .next t ∧ t.result = .done

/-! ### The sequencers -/

/-- R240, R275: a no-op before `FIFO.INIT` and for a null pointer; a full FIFO counts a drop and raises `E_FIFO_FULL`;
else the `REC_BYTES` bytes at the pointer stand in slot `wr mod DEPTH`. The frame type has no effect. -/
def Obligations.OnFrameResult : Prop :=
  ∀ (s : State) (ft : Nat), s.agent = some .prod →
    (∀ p, s.fifo.ready = false → exec (.prodOnFrame p ft) s = .next { s with result := .done }) ∧
    exec (.prodOnFrame none ft) s = .next { s with result := .done } ∧
    (∀ a, s.fifo.ready = true → s.fifo.pushed - releasedView s.cfg s.fifo = depth s.cfg →
      ∃ t, exec (.prodOnFrame (some a) ft) s = .next t ∧
        t = { s with
          dropCnt := s.dropCnt + 1, exc := s.exc ++ [.fifoFull], draws := t.draws, result := .done }) ∧
    (∀ a, s.fifo.ready = true → s.fifo.pushed - releasedView s.cfg s.fifo ≠ depth s.cfg →
      ∃ t, exec (.prodOnFrame (some a) ft) s = .next t ∧
        t = { s with
          fifo := { s.fifo with
            slots := t.fifo.slots, wr := (s.fifo.wr + 1) % (2 * depth s.cfg), pushed := s.fifo.pushed + 1 }
          draws := t.draws
          result := .done } ∧
        (∀ k b, k < s.cfg.recBytes → s.hwbuf.read? (a + k) = some b →
          slotByte s.cfg t.fifo (s.fifo.wr % depth s.cfg) k = some b) ∧
        (∀ k, k < s.cfg.recBytes → (slotByte s.cfg t.fifo (s.fifo.wr % depth s.cfg) k).isSome) ∧
        (∀ r, r < s.fifo.wr % depth s.cfg * s.cfg.recBytes ∨
            s.fifo.wr % depth s.cfg * s.cfg.recBytes + s.cfg.recBytes ≤ r →
          t.fifo.slots.read? r = s.fifo.slots.read? r))

/-- R251: in its context the callback always ends, never holding; at most one push or one drop; no bus transaction, no
log event, no register of the consumer, of the I2C master or of the chip changes. -/
def Obligations.ProducerIsBounded : Prop :=
  ∀ (s : State) (p : Option Nat) (ft : Nat), s.agent = some .prod →
    ∃ t, exec (.prodOnFrame p ft) s = .next t ∧ t.result ≠ .hold ∧ t.bus = s.bus ∧ t.log = s.log ∧
      t.cons = s.cons ∧ t.i2c = s.i2c ∧ t.chip = s.chip ∧
      t.fifo.pushed + t.dropCnt ≤ s.fifo.pushed + s.dropCnt + 1

/-- R280, R283, R90: a due frame event runs the whole callback before the block's own step, over the frame's bytes: where
it pushes, they stand in slot `wr mod DEPTH`, every other byte of the slots is as it was (R80) and only the push's pointer
has moved; the context it interrupted goes on, and the buffer is gone (that events stand in a list is
notes/assumptions/5.md). -/
def Obligations.FrameEventRunsCallback : Prop :=
  ∀ (s : State) (p : Option Nat) (ft : Nat) (frame : List Byte) (d : List Nat) (es : List Event),
    LegalParams s.cfg → s.events = { wait := 0, draws := d, kind := .frame p ft frame } :: es →
    ∃ t, step s = .next t ∧
      t = { s with
        fifo := t.fifo, dropCnt := t.dropCnt, exc := t.exc, hwbuf := [], draws := t.draws, events := es } ∧
      (s.fifo.ready = false ∨ p = none → t.fifo = s.fifo ∧ t.dropCnt = s.dropCnt ∧ t.exc = s.exc) ∧
      (s.fifo.ready = true → p ≠ none → s.fifo.pushed - releasedView s.cfg s.fifo = depth s.cfg →
        t.fifo = s.fifo ∧ t.dropCnt = s.dropCnt + 1 ∧ t.exc = s.exc ++ [.fifoFull]) ∧
      (s.fifo.ready = true → p ≠ none → s.fifo.pushed - releasedView s.cfg s.fifo ≠ depth s.cfg →
        t.dropCnt = s.dropCnt ∧ t.exc = s.exc ∧
        t.fifo = { s.fifo with
          slots := t.fifo.slots, wr := (s.fifo.wr + 1) % (2 * depth s.cfg), pushed := s.fifo.pushed + 1 } ∧
        (∀ k, k < s.cfg.recBytes → k < frame.length →
          slotByte s.cfg t.fifo (s.fifo.wr % depth s.cfg) k = frame[k]?) ∧
        (∀ k, k < s.cfg.recBytes → (slotByte s.cfg t.fifo (s.fifo.wr % depth s.cfg) k).isSome) ∧
        (∀ r, r < s.fifo.wr % depth s.cfg * s.cfg.recBytes ∨
            s.fifo.wr % depth s.cfg * s.cfg.recBytes + s.cfg.recBytes ≤ r →
          t.fifo.slots.read? r = s.fifo.slots.read? r))

/-- R276: the host's `E_RADIO_INIT` before `CONS.INIT` is fatal (as an environment step, notes/assumptions/24.md). -/
def Obligations.RadioInitFailureIsFatal : Prop :=
  ∀ (s : State) (d : List Nat) (es : List Event), LegalParams s.cfg → s.cons.cstate = .init →
    s.events = { wait := 0, draws := d, kind := .radioInitFail } :: es →
    step s = .next
      { s with cons := { s.cons with cstate := .fatal }, exc := s.exc ++ [.radioInit], events := es }

/-- R241, R271, R272, with the draws `ok` and `OK`, `fail`, or `ok` and a failure: RUNNING with the seed written and
logged once; FATAL by `E_BUS_INIT`, with nothing sent; FATAL by `E_SEED_WRITE`, with the bus open, nothing logged, and at
most the seven registers changed. -/
def Obligations.ConsInitResult : Prop :=
  ∀ s : State, s.agent = some .cons → LegalParams s.cfg → s.cons.cstate = .init → s.i2c.busOpen = false →
    ((drawBelow 2 s.draws).1 = 0 → (drawStatus (drawBelow 2 s.draws).2).1 = .ok →
      ∃ t, exec .consInit s = .next t ∧
        t = { s with
          cons := { s.cons with cstate := .running, cstep := .s1Pop, todLast := s.cfg.seedTod }
          i2c := { s.i2c with busOpen := true, txbuf := t.i2c.txbuf, busStatus := .ok }
          bus := s.bus ++ [.write t.i2c.txbuf .ok]
          log := s.log ++ [.seed s.cfg.seedTod]
          chip := t.chip
          draws := t.draws
          result := .done } ∧
        t.i2c.txbuf = clockFrame s.cfg s.cfg.seedTod ∧
        (∀ k, k < 7 → Untouched s.cfg (s.cfg.timeBase.toNat + k) →
          t.chip.regs.read? (s.cfg.timeBase.toNat + k) = t.i2c.txbuf[k + 1]?) ∧
        (∀ r, r < s.cfg.timeBase.toNat ∨ s.cfg.timeBase.toNat + 7 ≤ r →
          t.chip.regs.read? r = s.chip.regs.read? r)) ∧
    ((drawBelow 2 s.draws).1 ≠ 0 →
      exec .consInit s = .next
        { s with
          cons := { s.cons with cstate := .fatal }
          exc := s.exc ++ [.busInit]
          draws := (drawBelow 2 s.draws).2
          result := .raised .busInit }) ∧
    ((drawBelow 2 s.draws).1 = 0 → (drawStatus (drawBelow 2 s.draws).2).1 ≠ .ok →
      ∃ t, exec .consInit s = .next t ∧
        t = { s with
          cons := { s.cons with cstate := .fatal }
          i2c := { s.i2c with
            busOpen := true, txbuf := t.i2c.txbuf, busStatus := (drawStatus (drawBelow 2 s.draws).2).1 }
          bus := s.bus ++ [.write t.i2c.txbuf (drawStatus (drawBelow 2 s.draws).2).1]
          exc := s.exc ++ [.seedWrite]
          chip := t.chip
          draws := t.draws
          result := .raised .seedWrite } ∧
        t.i2c.txbuf = clockFrame s.cfg s.cfg.seedTod ∧
        (∀ r, r < s.cfg.timeBase.toNat ∨ s.cfg.timeBase.toNat + 7 ≤ r →
          t.chip.regs.read? r = s.chip.regs.read? r))

/-- R241, R242, R247, U30: outside its control state a consumer operation is refused; and where the operation a step
runs is refused (R190, R142, R194, R220, R143), the step is, for the same reason. R271, R285, R286, U30: after a fatal
cause every other operation of the consumer leaves all state as it is; that it so answers a next state, whatever its
operands, is the model's choice (DESIGN CHOICE, notes/assumptions/34.md). -/
def Obligations.ConsumerRefusals : Prop :=
  ∀ s : State, s.agent = some .cons →
    (∀ i : Instr, s.cons.cstate = .fatal →
      ((∃ d, i = .fifoPop d) ∨ (∃ h, i = .fifoRelease h) ∨ (∃ t, i = .timePack t) ∨ (∃ x y z, i = .timeUnpack x y z) ∨
        i = .i2cInit ∨ (∃ l, i = .i2cWrite l) ∨ (∃ w n, i = .i2cWriteRead w n) ∨ (∃ t, i = .rtcWriteTime t) ∨
        (∃ a n, i = .rtcReadRegs a n) ∨ (∃ h, i = .macFcLoad h) ∨ (∃ fc, i = .macFcDecode fc) ∨
        (∃ h, i = .macAddrExtract h) ∨ (∃ h, i = .macParse h)) →
      exec i s = .next { s with result := .stuck }) ∧
    (s.cons.cstate ≠ .init → exec .consInit s = .refused .notInInit) ∧
    (s.cons.cstate = .init → s.i2c.busOpen = true → exec .consInit s = .refused .alreadyInitialised) ∧
    (s.cons.cstate = .running → s.cons.cstep = .s1Pop → s.fifo.ready = false →
      exec .consStep s = .refused .channelNotReady ∧ exec .consCycle s = .refused .channelNotReady) ∧
    (s.cons.cstate = .running → s.cons.cstep = .s2Clock → s.i2c.busOpen = false →
      exec .consStep s = .refused .busNotOpen) ∧
    (s.cons.cstate = .running → s.cons.cstep = .s3Parse → onLoan s.cfg s.fifo s.cons.curHandle = false →
      exec .consStep s = .refused .slotNotOnLoan) ∧
    (s.cons.cstate = .running → s.cons.cstep = .s4Sample → onLoan s.cfg s.fifo s.cons.curHandle = false →
      (s.cons.capCnt + 1) % s.cfg.sampleN = 0 → exec .consStep s = .refused .slotNotOnLoan) ∧
    (s.cons.cstate = .running → s.cons.cstep = .s5Release → s.fifo.ready = false →
      exec .consStep s = .refused .channelNotReady) ∧
    (s.cons.cstate = .running → s.cons.cstep = .s5Release → s.fifo.ready = true →
      (s.fifo.popped - s.fifo.released = 0 → exec .consStep s = .refused .nothingOnLoan) ∧
      (s.fifo.popped - s.fifo.released ≠ 0 → s.cons.curHandle ≠ s.fifo.fr % depth s.cfg →
        exec .consStep s = .refused .notOldestLoan)) ∧
    (s.cons.cstate ≠ .running → exec .consStep s = .refused .notRunning ∧ exec .consCycle s = .refused .notRunning) ∧
    (s.cons.cstate = .running → s.cons.cstep ≠ .s1Pop → exec .consCycle s = .refused .cycleNotAtS1)

/-- R242: the oldest queued block goes on loan; while none is visible the step holds and no register changes. -/
def Obligations.StepPopResult : Prop :=
  ∀ s : State, s.agent = some .cons → s.cons.cstate = .running → s.cons.cstep = .s1Pop → s.fifo.ready = true →
    (pushedView s.cfg s.fifo - s.fifo.popped > 0 →
      exec .consStep s = .next
        { s with
          fifo := { s.fifo with rd := (s.fifo.rd + 1) % (2 * depth s.cfg), popped := s.fifo.popped + 1 }
          cons := { s.cons with curHandle := s.fifo.rd % depth s.cfg, curValid := true, cstep := .s2Clock }
          result := .done }) ∧
    (pushedView s.cfg s.fifo - s.fifo.popped = 0 → exec .consStep s = .next { s with result := .hold })

/-- R243, R273, R274: one read of the three time bytes on every cycle; on success the decoded time (the chip's, if no tick
may land inside the read, R199), on failure the marker and the count with `tod_last` kept, and in both cases `cstep` goes
to S3_PARSE. That no tick lands inside a failed read, so that the chip keeps its registers with `RTC_ATOMIC_READ` false
too, is the model's choice (DESIGN CHOICE, notes/assumptions/20.md). -/
def Obligations.StepClockResult : Prop :=
  ∀ s : State, s.agent = some .cons → LegalParams s.cfg → s.i2c.busOpen = true → s.cons.cstate = .running →
    s.cons.cstep = .s2Clock →
    ((drawStatus s.draws).1 = .ok →
      ∃ (t : State) (r0 r1 r2 : Byte), exec .consStep s = .next t ∧
        t = { s with
          cons := { s.cons with todLast := unpackTime r0 r1 r2, timeValid := true, cstep := .s3Parse }
          i2c := { s.i2c with busStatus := .ok, rxbuf := [r0, r1, r2] }
          bus := s.bus ++ [.writeRead [s.cfg.timeBase] 3 .ok (some [r0, r1, r2])]
          chip := t.chip
          draws := t.draws
          result := .done } ∧
        (∀ r, Untouched s.cfg r → t.chip.regs.read? r = s.chip.regs.read? r) ∧
        (s.cfg.rtcAtomicRead = true →
          t.chip.regs = s.chip.regs ∧
          (∀ b, s.chip.regs.read? s.cfg.timeBase.toNat = some b → r0 = b) ∧
          (∀ b, s.chip.regs.read? (s.cfg.timeBase.toNat + 1) = some b → r1 = b) ∧
          (∀ b, s.chip.regs.read? (s.cfg.timeBase.toNat + 2) = some b → r2 = b))) ∧
    ((drawStatus s.draws).1 ≠ .ok →
      ∃ (t : State) (c : Cause), exec .consStep s = .next t ∧
        c = (if (drawStatus s.draws).1 = .timeout then .busTimeout else .busError) ∧
        t = { s with
          cons := { s.cons with timeValid := false, busErrCnt := s.cons.busErrCnt + 1, cstep := .s3Parse }
          i2c := { s.i2c with busStatus := (drawStatus s.draws).1, rxbuf := t.i2c.rxbuf }
          bus := s.bus ++ [.writeRead [s.cfg.timeBase] 3 (drawStatus s.draws).1 none]
          chip := { s.chip with ptr := t.chip.ptr }
          draws := t.draws
          exc := s.exc ++ [c]
          result := .raised c })

/-- R244 with R223: the five registers of the record of `cur_handle`, and `cstep` at S4_SAMPLE. -/
def Obligations.StepParseResult : Prop :=
  ∀ (s : State) (b0 b1 : Byte) (a b : List Byte), s.agent = some .cons → LegalParams s.cfg →
    s.cons.cstate = .running → s.cons.cstep = .s3Parse → onLoan s.cfg s.fifo s.cons.curHandle = true →
    slotByte s.cfg s.fifo s.cons.curHandle (s.cfg.metaBytes + s.cfg.fcOff) = some b0 →
    slotByte s.cfg s.fifo s.cons.curHandle (s.cfg.metaBytes + s.cfg.fcOff + 1) = some b1 →
    a.length = 6 → b.length = 6 →
    (∀ k, k < 6 → slotByte s.cfg s.fifo s.cons.curHandle (s.cfg.metaBytes + s.cfg.addrAOff + k) = a[k]?) →
    (∀ k, k < 6 → slotByte s.cfg s.fifo s.cons.curHandle (s.cfg.metaBytes + s.cfg.addrBOff + k) = b[k]?) →
    exec .consStep s = .next
      { s with
        cons := { s.cons with
          fcReg := if s.cfg.fcLe then b1 ++ b0 else b0 ++ b1
          ftype := (if s.cfg.fcLe then b0 else b1).extractLsb' 2 2
          fsubtype := (if s.cfg.fcLe then b0 else b1).extractLsb' 4 4
          addrA := a
          addrB := b
          cstep := .s4Sample }
        result := .done }

/-- R245: the counter first, the test after; every `SAMPLE_N`-th record is logged with the time, the marker, the
metadata, the two addresses and the frame type and subtype; every other one is only counted. -/
def Obligations.StepSampleResult : Prop :=
  ∀ s : State, s.agent = some .cons → LegalParams s.cfg → s.cons.cstate = .running → s.cons.cstep = .s4Sample →
    ((s.cons.capCnt + 1) % s.cfg.sampleN ≠ 0 →
      exec .consStep s = .next
        { s with cons := { s.cons with capCnt := s.cons.capCnt + 1, cstep := .s5Release }, result := .done }) ∧
    (∀ m : List Byte, (s.cons.capCnt + 1) % s.cfg.sampleN = 0 → onLoan s.cfg s.fifo s.cons.curHandle = true →
      m.length = s.cfg.metaBytes →
      (∀ k, k < s.cfg.metaBytes → slotByte s.cfg s.fifo s.cons.curHandle k = m[k]?) →
      exec .consStep s = .next
        { s with
          cons := { s.cons with capCnt := s.cons.capCnt + 1, cstep := .s5Release }
          log := s.log ++ [.sample s.cons.todLast s.cons.timeValid m s.cons.addrA s.cons.addrB s.cons.ftype
            s.cons.fsubtype]
          result := .done })

/-- R246: the loan of `cur_handle` ends and the loop is at its first step again. -/
def Obligations.StepReleaseResult : Prop :=
  ∀ s : State, s.agent = some .cons → s.cons.cstate = .running → s.cons.cstep = .s5Release → s.fifo.ready = true →
    s.fifo.popped - s.fifo.released ≠ 0 → s.cons.curHandle = s.fifo.fr % depth s.cfg →
    exec .consStep s = .next
      { s with
        fifo := { s.fifo with fr := (s.fifo.fr + 1) % (2 * depth s.cfg), released := s.fifo.released + 1 }
        cons := { s.cons with curValid := false, cstep := .s1Pop }
        result := .done }

/-- R247: a pass that does not hold completes, whatever the environment does between its steps: `RD`, `FR` and `cap_cnt`
grow by one, one bus read is appended, zero or one `LogSample`, and `cstep` is S1_POP again; over an empty FIFO the pass
holds and nothing changes. -/
def Obligations.CycleNetEffect : Prop :=
  ∀ s : State, Inv s → ConsumerUp s → OneLoan s → s.agent = some .cons → s.cons.cstep = .s1Pop →
    (pushedView s.cfg s.fifo - s.fifo.popped > 0 →
      ∃ t, exec .consCycle s = .next t ∧ t.fifo.popped = s.fifo.popped + 1 ∧
        t.fifo.released = s.fifo.released + 1 ∧ t.cons.capCnt = s.cons.capCnt + 1 ∧ t.cons.cstep = .s1Pop ∧
        t.cons.cstate = .running ∧ t.agent = s.agent ∧ t.cfg = s.cfg ∧ t.sched = s.sched ∧
        (∃ o r, t.bus = s.bus ++ [.writeRead [s.cfg.timeBase] 3 o r]) ∧
        (t.log = s.log ∨ ∃ e, isSample e = true ∧ t.log = s.log ++ [e])) ∧
    (pushedView s.cfg s.fifo - s.fifo.popped = 0 → exec .consCycle s = .next { s with result := .hold })

/-! ### Whole-machine rules -/

/-- R249, R250: "no condition legitimately terminates the consumer loop once started". In every state of the invariant in
which the running consumer keeps the one-loan law, its next step answers a next state, and it still keeps the law. -/
def Obligations.RunningConsumerNeverStops : Prop :=
  ∀ s : State, Inv s → ConsumerUp s → OneLoan s → s.agent = some .cons →
    ∃ t, exec .consStep s = .next t ∧ Inv t ∧ ConsumerUp t ∧ OneLoan t

/-- The invariant is kept by every step: the parameters stay legal, the memories canonical and in their spaces, the FIFO's
pointers and counts agree and stay in bounds (R24, R149), a held block has no byte without a value (U1), the registers
stay in the ranges of 10_state.md. And the task context is held only at a pop of an initialised channel, the consumer's
own at S1_POP (R142, R146, R288). -/
def Obligations.EveryStepKeepsInvariant : Prop :=
  ∀ s t : State, step s = .next t → (Inv s → Inv t) ∧ (HeldAtPop s → HeldAtPop t)

/-- R249, R286: the only edges of the control state, over every step of the machine; only a reset leaves FATAL or RUNNING,
and it leads back to INIT (as an environment step, notes/assumptions/36.md). -/
def Obligations.ControlStateEdges : Prop :=
  ∀ s t : State, Inv s → step s = .next t →
    (ResetDue s → t.cons = State.reset.cons) ∧
    (¬ ResetDue s →
      (s.cons.cstate = .running → t.cons.cstate = .running) ∧ (s.cons.cstate = .fatal → t.cons.cstate = .fatal) ∧
      (t.cons.cstep = s.cons.cstep ∨ (s.cons.cstate = .running ∧
        ((s.cons.cstep = .s1Pop ∧ t.cons.cstep = .s2Clock) ∨ (s.cons.cstep = .s2Clock ∧ t.cons.cstep = .s3Parse) ∨
          (s.cons.cstep = .s3Parse ∧ t.cons.cstep = .s4Sample) ∨ (s.cons.cstep = .s4Sample ∧ t.cons.cstep = .s5Release) ∨
          (s.cons.cstep = .s5Release ∧ t.cons.cstep = .s1Pop)))))

/-- R248: every step keeps the number of `LogSample` events at `cap_cnt div SAMPLE_N`, and adds one exactly where
`cap_cnt` reaches a multiple of `SAMPLE_N`. -/
def Obligations.SampleCountIsKept : Prop :=
  ∀ s t : State, sampleCount s.log = s.cons.capCnt / s.cfg.sampleN → step s = .next t →
    sampleCount t.log = t.cons.capCnt / t.cfg.sampleN

/-- R82: `wr` and the slots are written only by the producer's two operations (and by `FIFO.INIT`, and in a pass of the
consumer by the frames that land in it); `rd` and `fr` only by the consumer's. R29: `drop_cnt` likewise. -/
def Obligations.SingleWriterOfPointers : Prop :=
  ∀ (i : Instr) (s t : State), exec i s = .next t →
    (i ≠ .fifoInit → (∀ b, i ≠ .fifoTryPush b) → (∀ p ft, i ≠ .prodOnFrame p ft) → i ≠ .consCycle →
      t.fifo.wr = s.fifo.wr ∧ t.fifo.pushed = s.fifo.pushed ∧ t.fifo.slots = s.fifo.slots ∧ t.dropCnt = s.dropCnt) ∧
    (i ≠ .fifoInit → (∀ d, i ≠ .fifoPop d) → (∀ h, i ≠ .fifoRelease h) → i ≠ .consStep → i ≠ .consCycle →
      t.fifo.rd = s.fifo.rd ∧ t.fifo.fr = s.fifo.fr ∧ t.fifo.popped = s.fifo.popped ∧
        t.fifo.released = s.fifo.released) ∧
    (i ≠ .fifoInit → t.fifo.ready = s.fifo.ready) ∧ (s.fifo.ready = true → t.fifo.ready = true)

/-- R314: a quiescent run stays where it is. With no line and no environment step to come, a step leaves everything but the
result port, the context with its hold, and the environment's draws as it was, and quiescent. -/
def Obligations.QuiescenceIsStable : Prop :=
  ∀ s : State, Inv s → HeldAtPop s → Quiescent s → s.sched = [] → s.events = [] →
    ∃ t, step s = .next t ∧
      t = { s with agent := t.agent, held := t.held, draws := t.draws, result := t.result } ∧ Quiescent t ∧
      (s.cons.cstate = .running → t.result = .hold)

/-- R252, with `RTC_ATOMIC_READ`: seed the clock, receive one frame of at least `REC_BYTES` bytes, read the clock
successfully with no tick in between; then the pass ends with the seed's time and the frame's type and subtype, and where the count is due the `LogSample`
carries them, with the frame's metadata and its two addresses. -/
def Obligations.EndToEnd : Prop :=
  ∀ (s s1 : State) (p ft : Nat) (frame : List Byte),
    Inv s → s.cfg.rtcAtomicRead = true → s.cfg.visLag = .exact → s.fifo.ready = true →
    s.fifo.pushed = s.fifo.released → exec .consInit s = .next s1 → s1.cons.cstate = .running →
    s.cfg.recBytes ≤ frame.length → s1.events = [] →
    (drawStatus (runEvent (.frame (some p) ft frame) s1).draws).1 = .ok →
    ∃ (t : State) (b0 b1 : Byte), exec .consCycle (runEvent (.frame (some p) ft frame) s1) = .next t ∧
      frame[s.cfg.metaBytes + s.cfg.fcOff]? = some b0 ∧ frame[s.cfg.metaBytes + s.cfg.fcOff + 1]? = some b1 ∧
      t.cons.todLast = s.cfg.seedTod ∧ t.cons.timeValid = true ∧
      t.cons.ftype = (if s.cfg.fcLe then b0 else b1).extractLsb' 2 2 ∧
      t.cons.fsubtype = (if s.cfg.fcLe then b0 else b1).extractLsb' 4 4 ∧
      t.cons.addrA = (frame.drop (s.cfg.metaBytes + s.cfg.addrAOff)).take 6 ∧
      t.cons.addrB = (frame.drop (s.cfg.metaBytes + s.cfg.addrBOff)).take 6 ∧
      t.cons.capCnt = s.cons.capCnt + 1 ∧
      t.log = s.log ++ [.seed s.cfg.seedTod] ++
        (if (s.cons.capCnt + 1) % s.cfg.sampleN = 0 then
          [.sample s.cfg.seedTod true (frame.take s.cfg.metaBytes) t.cons.addrA t.cons.addrB t.cons.ftype t.cons.fsubtype]
        else [])

/-- R48: no step writes a parameter; R41, R42: but for a reset the two streams only grow; R29, R31, R34: the counters
never fall. -/
def Obligations.ParametersFixedAndStreamsGrow : Prop :=
  ∀ s t : State, step s = .next t →
    t.cfg = s.cfg ∧
    (¬ ResetDue s → (∃ l, t.log = s.log ++ l) ∧ (∃ b, t.bus = s.bus ++ b) ∧ s.dropCnt ≤ t.dropCnt ∧
      s.cons.capCnt ≤ t.cons.capCnt ∧ s.cons.busErrCnt ≤ t.cons.busErrCnt)

/-- R83, R26: `SYNC` raises each view to at most the true count and changes nothing else; with `VIS_LAG = exact` it
changes nothing at all. -/
def Obligations.SyncRaisesViews : Prop :=
  ∀ (s : State) (d : List Nat) (es : List Event) (x y : Nat), LegalParams s.cfg →
    s.events = { wait := 0, draws := d, kind := .sync x y } :: es →
    (s.cfg.visLag = .exact → step s = .next { s with events := es }) ∧
    (s.cfg.visLag = .conservative → s.fifo.frView ≤ s.fifo.released → s.fifo.wrView ≤ s.fifo.pushed →
      ∃ t, step s = .next t ∧
        t = { s with fifo := { s.fifo with frView := t.fifo.frView, wrView := t.fifo.wrView }, events := es } ∧
        s.fifo.frView ≤ t.fifo.frView ∧ t.fifo.frView ≤ s.fifo.released ∧
        (s.fifo.frView ≤ x → x ≤ s.fifo.released → t.fifo.frView = x) ∧
        s.fifo.wrView ≤ t.fifo.wrView ∧ t.fifo.wrView ≤ s.fifo.pushed ∧
        (s.fifo.wrView ≤ y → y ≤ s.fifo.pushed → t.fifo.wrView = y))

/-! ### The data formats -/

/-- The layouts of R103, R105 to R108 and R110. That a format row stands as a term whose result is its fields, and that it
answers for every byte, a nibble above 9 (R116) and another address than `DEV_ADDR` included, is the model's choice
(notes/assumptions/3.md). -/
def Obligations.BitFormatFields : Prop :=
  ∀ s : State,
    (∀ fc : HalfWord, exec (.fmtFrameControl fc) s = .next
      { s with result := .fields [fc.toNat / 256, fc.toNat / 16 % 16, fc.toNat / 4 % 4, fc.toNat % 4] }) ∧
    (∀ b : Byte, exec (.fmtBcdByte b) s = .next { s with result := .fields [b.toNat / 16, b.toNat % 16] }) ∧
    (∀ b : Byte, exec (.fmtSecondsReg b) s = .next
      { s with result := .fields [b.toNat / 128, b.toNat / 16 % 8, b.toNat % 16] }) ∧
    (∀ b : Byte, exec (.fmtMinutesReg b) s = .next
      { s with result := .fields [b.toNat / 128, b.toNat / 16 % 8, b.toNat % 16] }) ∧
    (∀ b : Byte, exec (.fmtHoursReg b) s = .next
      { s with result := .fields [b.toNat / 64, b.toNat / 16 % 4, b.toNat % 16] }) ∧
    (∀ b : Byte, exec (.fmtI2cAddressByte b) s = .next { s with result := .fields [b.toNat / 2, b.toNat % 2] })

/-- The layouts of R109, R102 and R101, and what is not in the format (notes/assumptions/3.md, the model's choice: of a
ClockRegisterFrame only the reserved bits are tested). -/
def Obligations.ByteFormatFields : Prop :=
  ∀ s : State,
    (∀ b0 b1 b2 b3 b4 b5 b6 b7 : Byte, b1.toNat < 128 → b2.toNat < 128 → b3.toNat < 64 →
      exec (.fmtClockRegisterFrame b0 b1 b2 b3 b4 b5 b6 b7) s = .next
        { s with result := .fields [b0.toNat, b1.toNat, b2.toNat, b3.toNat, b4.toNat, b5.toNat, b6.toNat, b7.toNat] }) ∧
    (∀ b0 b1 b2 b3 b4 b5 b6 b7 : Byte, 128 ≤ b1.toNat ∨ 128 ≤ b2.toNat ∨ 64 ≤ b3.toNat →
      exec (.fmtClockRegisterFrame b0 b1 b2 b3 b4 b5 b6 b7) s = .refused .notInFormat) ∧
    (∀ l : List Byte, s.cfg.fcOff + 2 ≤ l.length → s.cfg.addrAOff + 6 ≤ l.length → s.cfg.addrBOff + 6 ≤ l.length →
      ∃ f a b : List Byte, exec (.fmtLinkHeader l) s = .next { s with result := .parts [f, a, b] } ∧
        f.length = 2 ∧ a.length = 6 ∧ b.length = 6 ∧ (∀ k, k < 2 → f[k]? = l[s.cfg.fcOff + k]?) ∧
        (∀ k, k < 6 → a[k]? = l[s.cfg.addrAOff + k]? ∧ b[k]? = l[s.cfg.addrBOff + k]?)) ∧
    (∀ l : List Byte, l.length < s.cfg.fcOff + 2 ∨ l.length < s.cfg.addrAOff + 6 ∨ l.length < s.cfg.addrBOff + 6 →
      exec (.fmtLinkHeader l) s = .refused .notInFormat) ∧
    (∀ l : List Byte, l.length = s.cfg.recBytes → s.cfg.metaBytes ≤ s.cfg.recBytes →
      ∃ m h : List Byte, exec (.fmtCaptureRecord l) s = .next { s with result := .parts [m, h] } ∧
        m.length = s.cfg.metaBytes ∧ m ++ h = l) ∧
    (∀ l : List Byte, l.length ≠ s.cfg.recBytes → exec (.fmtCaptureRecord l) s = .refused .notInFormat)
end

