-- ==== Sys2Proof/Laws/Operands.lean ====
section
/-! SUPPORT. The codec's and the formats' arithmetic, as numbers. -/
namespace Sys2Proof.Machine

/-- The encoded byte of a value up to 99 (R170, R172). -/
theorem bcdEncode_toNat {v : Nat} (h : v ≤ 99) : (bcdEncode v).toNat = v / 10 * 16 + v % 10 := by
  have key : ∀ w : Fin 100, (bcdEncode w.1).toNat = w.1 / 10 * 16 + w.1 % 10 := by decide
  exact key ⟨v, by omega⟩

/-- The decode formula, as numbers (R171). -/
theorem bcdDecode_eq (b : Byte) : bcdDecode b = b.toNat / 16 * 10 + b.toNat % 16 := by
  have h : (b &&& 0x0F#8).toNat = b.toNat % 16 := by
    rw [BitVec.toNat_and, show (0x0F#8).toNat = 2 ^ 4 - 1 from rfl, Nat.and_two_pow_sub_one_eq_mod]
  simp [bcdDecode, h, Nat.shiftRight_eq_div_pow]

theorem bcdDecode_encode {v : Nat} (h : v ≤ 99) : bcdDecode (bcdEncode v) = v := by
  rw [bcdDecode_eq, bcdEncode_toNat h]
  omega

theorem secondsMask_toNat (b : Byte) : (b &&& secondsMask).toNat = b.toNat % 128 := by
  rw [BitVec.toNat_and, show secondsMask.toNat = 2 ^ 7 - 1 from rfl, Nat.and_two_pow_sub_one_eq_mod]

theorem minutesMask_toNat (b : Byte) : (b &&& minutesMask).toNat = b.toNat % 128 := secondsMask_toNat b

theorem hoursMask_toNat (b : Byte) : (b &&& hoursMask).toNat = b.toNat % 64 := by
  rw [BitVec.toNat_and, show hoursMask.toNat = 2 ^ 6 - 1 from rfl, Nat.and_two_pow_sub_one_eq_mod]

theorem unpackTime_eq (r0 r1 r2 : Byte) :
    unpackTime r0 r1 r2 =
      ⟨r2.toNat % 64 / 16 * 10 + r2.toNat % 16, r1.toNat % 128 / 16 * 10 + r1.toNat % 16,
        r0.toNat % 128 / 16 * 10 + r0.toNat % 16⟩ := by
  simp only [unpackTime, bcdDecode_eq, secondsMask_toNat, minutesMask_toNat, hoursMask_toNat, TimeFields.mk.injEq]
  omega

theorem validTod_iff (t : TimeFields) : validTod t = true ↔ t.hours ≤ 23 ∧ t.minutes ≤ 59 ∧ t.seconds ≤ 59 := by
  simp [validTod, and_assoc]

/-- A byte with its low seven bits kept or replaced: value and flag. -/
theorem keepSeconds_toNat {v : Nat} (h : v ≤ 59) (old : Byte) :
    (keepFlags secondsMask old v).toNat = v / 10 * 16 + v % 10 + old.toNat / 128 * 128 := by
  have key : ∀ (w : Fin 60) (b : BitVec 8), (keepFlags secondsMask b w.1).toNat =
      w.1 / 10 * 16 + w.1 % 10 + b.toNat / 128 * 128 := by
    intro w b
    have hb : b &&& ~~~secondsMask = BitVec.ofNat 8 (b.toNat / 128 * 128) := by
      revert b; decide
    rw [keepFlags, hb]
    have hc : b.toNat / 128 = 0 ∨ b.toNat / 128 = 1 := by have := b.isLt; omega
    rcases hc with hc | hc <;> rw [hc] <;> revert w <;> decide
  exact key ⟨v, by omega⟩ old

theorem keepMinutes_toNat {v : Nat} (h : v ≤ 59) (old : Byte) :
    (keepFlags minutesMask old v).toNat = v / 10 * 16 + v % 10 + old.toNat / 128 * 128 := keepSeconds_toNat h old

theorem keepHours_toNat {v : Nat} (h : v ≤ 23) (old : Byte) :
    (keepFlags hoursMask old v).toNat = v / 10 * 16 + v % 10 + old.toNat / 64 * 64 := by
  have key : ∀ (w : Fin 24) (b : BitVec 8), (keepFlags hoursMask b w.1).toNat =
      w.1 / 10 * 16 + w.1 % 10 + b.toNat / 64 * 64 := by
    intro w b
    have hb : b &&& ~~~hoursMask = BitVec.ofNat 8 (b.toNat / 64 * 64) := by
      revert b; decide
    rw [keepFlags, hb]
    have hc : b.toNat / 64 = 0 ∨ b.toNat / 64 = 1 ∨ b.toNat / 64 = 2 ∨ b.toNat / 64 = 3 := by have := b.isLt; omega
    rcases hc with hc | hc | hc | hc <;> rw [hc] <;> revert w <;> decide
  exact key ⟨v, by omega⟩ old

/-- `fc[3:2]` as a bit field (R103). -/
theorem frameType_eq (fc : HalfWord) : frameType fc = fc.extractLsb' 2 2 := by
  apply BitVec.eq_of_getLsbD_eq
  intro i hi
  have : i = 0 ∨ i = 1 := by omega
  rcases this with rfl | rfl <;> simp [frameType]

/-- `fc[7:4]` as a bit field (R103). -/
theorem frameSubtype_eq (fc : HalfWord) : frameSubtype fc = fc.extractLsb' 4 4 := by
  apply BitVec.eq_of_getLsbD_eq
  intro i hi
  have : i = 0 ∨ i = 1 ∨ i = 2 ∨ i = 3 := by omega
  rcases this with rfl | rfl | rfl | rfl <;> simp [frameSubtype]

/-- The assembled value is the two bytes side by side (R73). -/
theorem assembleFc_eq (le : Bool) (b0 b1 : Byte) : assembleFc le b0 b1 = if le then b1 ++ b0 else b0 ++ b1 := by
  have key : ∀ x y : Byte, x.setWidth 16 ||| (y.setWidth 16 <<< 8) = y ++ x := by
    intro x y
    apply BitVec.eq_of_getLsbD_eq
    intro i hi
    rw [BitVec.getLsbD_append, BitVec.getLsbD_or, BitVec.getLsbD_shiftLeft, BitVec.getLsbD_setWidth]
    by_cases h : i < 8
    · simp [h, hi]
    · have hx : x.getLsbD i = false := BitVec.getLsbD_of_ge _ _ (by omega)
      have h8 : i - 8 < 16 := by omega
      simp [h, hi, hx, h8]
  cases le
  · exact key b1 b0
  · exact key b0 b1

/-- Both fields lie in the field's low byte (R103). -/
theorem assembleFc_fields (le : Bool) (b0 b1 : Byte) :
    frameType (assembleFc le b0 b1) = (if le then b0 else b1).extractLsb' 2 2 ∧
      frameSubtype (assembleFc le b0 b1) = (if le then b0 else b1).extractLsb' 4 4 := by
  have k1 : ∀ x y : Byte, (y ++ x).extractLsb' 2 2 = x.extractLsb' 2 2 := by
    intro x y
    apply BitVec.eq_of_getLsbD_eq
    intro i hi
    rw [BitVec.getLsbD_extractLsb', BitVec.getLsbD_extractLsb', BitVec.getLsbD_append]
    simp [show 2 + i < 8 from by omega]
  have k2 : ∀ x y : Byte, (y ++ x).extractLsb' 4 4 = x.extractLsb' 4 4 := by
    intro x y
    apply BitVec.eq_of_getLsbD_eq
    intro i hi
    rw [BitVec.getLsbD_extractLsb', BitVec.getLsbD_extractLsb', BitVec.getLsbD_append]
    simp [show 4 + i < 8 from by omega]
  rw [frameType_eq, frameSubtype_eq, assembleFc_eq]
  cases le
  · exact ⟨k1 b1 b0, k2 b1 b0⟩
  · exact ⟨k1 b0 b1, k2 b0 b1⟩

end Sys2Proof.Machine
end

