-- ==== Sys2Proof/Laws/Memory.lean ====
section
/-! SUPPORT. The laws of sparse memory: a read after a write, the canonical form is kept, byte runs. -/
namespace Sys2Proof.Machine

theorem Memory.read?_write_same (a : Nat) (b : Byte) (m : Memory) : (Memory.write a b m).read? a = some b := by
  induction m with
  | nil => simp [Memory.write, Memory.read?]
  | cons x m ih =>
    obtain ⟨k, v⟩ := x
    unfold Memory.write
    split
    · simp [Memory.read?]
    · split
      · simp [Memory.read?]
      · rename_i h
        simpa [Memory.read?, Ne.symm h] using ih

theorem Memory.read?_write_other {a c : Nat} (h : c ≠ a) (b : Byte) (m : Memory) :
    (Memory.write a b m).read? c = m.read? c := by
  induction m with
  | nil => simp [Memory.write, Memory.read?, Ne.symm h]
  | cons x m ih =>
    obtain ⟨k, v⟩ := x
    unfold Memory.write
    split
    · simp [Memory.read?, Ne.symm h]
    · split
      · rename_i e
        subst e
        simp [Memory.read?, Ne.symm h]
      · simp only [Memory.read?, ih]

theorem Memory.read?_write (a c : Nat) (b : Byte) (m : Memory) :
    (Memory.write a b m).read? c = if c = a then some b else m.read? c := by
  by_cases h : c = a
  · subst h
    simp [Memory.read?_write_same]
  · simp [h, Memory.read?_write_other h]

/-- An entry of the memory after a write is the one written or an old one. -/
theorem Memory.mem_write {a : Nat} {b : Byte} {m : Memory} {x : Host.Cell} (h : x ∈ Memory.write a b m) :
    x = (a, b) ∨ x ∈ m := by
  induction m with
  | nil => simpa [Memory.write] using h
  | cons y m ih =>
    obtain ⟨k, v⟩ := y
    unfold Memory.write at h
    split at h
    · simpa using h
    · split at h
      · rcases List.mem_cons.1 h with h | h
        · exact .inl h
        · exact .inr (List.mem_cons_of_mem _ h)
      · rcases List.mem_cons.1 h with h | h
        · exact .inr (h ▸ List.mem_cons_self)
        · rcases ih h with h | h
          · exact .inl h
          · exact .inr (List.mem_cons_of_mem _ h)

/-- A write keeps the canonical form. -/
theorem Memory.write_wf (a : Nat) (b : Byte) {m : Memory} (h : m.wf) : (Memory.write a b m).wf := by
  induction m with
  | nil => simp [Memory.write, Memory.wf]
  | cons x m ih =>
    obtain ⟨k, v⟩ := x
    obtain ⟨hk, hm⟩ := List.pairwise_cons.1 h
    unfold Memory.write
    split
    · rename_i hlt
      refine List.pairwise_cons.2 ⟨fun y hy => ?_, h⟩
      rcases List.mem_cons.1 hy with rfl | hy
      · exact hlt
      · exact Nat.lt_trans hlt (hk y hy)
    · split
      · rename_i e
        subst e
        exact List.pairwise_cons.2 ⟨fun y hy => hk y hy, hm⟩
      · rename_i h1 h2
        refine List.pairwise_cons.2 ⟨fun y hy => ?_, ih hm⟩
        rcases Memory.mem_write hy with rfl | hy
        · show k < a
          omega
        · exact hk y hy

theorem Memory.writeList_wf (a : Nat) (l : List Byte) {m : Memory} (h : m.wf) : (Memory.writeList a l m).wf := by
  induction l generalizing a m with
  | nil => exact h
  | cons b bs ih => exact ih (a + 1) (Memory.write_wf a b h)

/-- A property of addresses that the old entries and the written run have is kept. -/
theorem Memory.mem_writeList {a : Nat} {l : List Byte} {m : Memory} {x : Host.Cell}
    (h : x ∈ Memory.writeList a l m) : (a ≤ x.1 ∧ x.1 < a + l.length) ∨ x ∈ m := by
  induction l generalizing a m with
  | nil => exact .inr h
  | cons b bs ih =>
    rcases ih h with h | h
    · left
      simp only [List.length_cons]
      omega
    · rcases Memory.mem_write h with rfl | h
      · left
        simp
      · exact .inr h

/-- A read after a run of writes: the run's byte inside it, the old one outside. -/
theorem Memory.read?_writeList (a c : Nat) (l : List Byte) (m : Memory) :
    (Memory.writeList a l m).read? c = if a ≤ c ∧ c < a + l.length then l[c - a]? else m.read? c := by
  induction l generalizing a m with
  | nil =>
    rw [if_neg (by simp only [List.length_nil]; omega)]
    rfl
  | cons b bs ih =>
    rw [Memory.writeList, ih, Memory.read?_write]
    simp only [List.length_cons]
    by_cases h1 : a + 1 ≤ c ∧ c < a + 1 + bs.length
    · have h2 : a ≤ c ∧ c < a + (bs.length + 1) := by omega
      obtain ⟨d, rfl⟩ : ∃ d, c = a + 1 + d := ⟨c - (a + 1), by omega⟩
      have h3 : a + 1 + d - (a + 1) = d := by omega
      have h4 : a + 1 + d - a = d + 1 := by omega
      rw [if_pos h1, if_pos h2, h3, h4, List.getElem?_cons_succ]
    · rw [if_neg h1]
      by_cases h3 : c = a
      · subst h3
        simp
      · have h2 : ¬ (a ≤ c ∧ c < a + (bs.length + 1)) := by omega
        rw [if_neg h3, if_neg h2]

theorem Memory.read?_writeList_outside {a c : Nat} {l : List Byte} (h : c < a ∨ a + l.length ≤ c) (m : Memory) :
    (Memory.writeList a l m).read? c = m.read? c := by
  rw [Memory.read?_writeList, if_neg]
  omega

theorem Memory.readList?_length {m : Memory} {a n : Nat} {l : List Byte} (h : m.readList? a n = some l) :
    l.length = n := by
  induction n generalizing a l with
  | zero =>
    cases h
    rfl
  | succ n ih =>
    unfold Memory.readList? at h
    split at h
    · rename_i b bs _ hb
      cases h
      simp [ih hb]
    · cases h

/-- Reading a run is reading its bytes one by one. -/
theorem Memory.readList?_getElem? {m : Memory} {a n : Nat} {l : List Byte} (h : m.readList? a n = some l) :
    ∀ k, k < n → m.read? (a + k) = l[k]? := by
  induction n generalizing a l with
  | zero =>
    intro k hk
    omega
  | succ n ih =>
    intro k hk
    unfold Memory.readList? at h
    split at h
    · rename_i b bs h0 hb
      cases h
      cases k with
      | zero => simpa using h0
      | succ k =>
        have := ih hb k (by omega)
        rw [show a + (k + 1) = a + 1 + k from by omega, this]
        simp
    · cases h

/-- A run whose bytes all have values can be read. -/
theorem Memory.readList?_isSome {m : Memory} {a n : Nat} (h : ∀ k, k < n → (m.read? (a + k)).isSome) :
    ∃ l, m.readList? a n = some l := by
  induction n generalizing a with
  | zero => exact ⟨[], rfl⟩
  | succ n ih =>
    obtain ⟨l, hl⟩ := ih (a := a + 1) fun k hk => by
      have := h (k + 1) (by omega)
      rwa [show a + (k + 1) = a + 1 + k from by omega] at this
    obtain ⟨b, hb⟩ := Option.isSome_iff_exists.1 (h 0 (by omega))
    exact ⟨b :: l, by simp [Memory.readList?, hl, show m.read? a = some b from hb]⟩

/-- Two memories that agree on a run read the same run. -/
theorem Memory.readList?_congr {m m' : Memory} {a n : Nat} (h : ∀ k, k < n → m.read? (a + k) = m'.read? (a + k)) :
    m.readList? a n = m'.readList? a n := by
  induction n generalizing a with
  | zero => rfl
  | succ n ih =>
    have h0 := h 0 (by omega)
    have hs := ih (a := a + 1) fun k hk => by
      have := h (k + 1) (by omega)
      rwa [show a + (k + 1) = a + 1 + k from by omega] at this
    simp only [Nat.add_zero] at h0
    simp only [Memory.readList?, hs, h0]

/-- A run just written reads back. -/
theorem Memory.readList?_writeList (a : Nat) (l : List Byte) (m : Memory) :
    (Memory.writeList a l m).readList? a l.length = some l := by
  obtain ⟨l', hl'⟩ := Memory.readList?_isSome (m := Memory.writeList a l m) (a := a) (n := l.length) fun k hk => by
    rw [Memory.read?_writeList, if_pos (by omega)]
    simp [hk]
  have hlen := Memory.readList?_length hl'
  rw [hl']
  congr 1
  apply List.ext_getElem? fun k => ?_
  by_cases hk : k < l.length
  · rw [← Memory.readList?_getElem? hl' k hk, Memory.read?_writeList, if_pos (by omega)]
    simp
  · rw [List.getElem?_eq_none (by omega), List.getElem?_eq_none (by omega)]

end Sys2Proof.Machine
end

