-- ==== Sys2Proof/Laws/State.lean ====
section
/-! SUPPORT. One lemma a field and update: what each shared update of the state leaves alone, so that no later proof
unfolds a record update. -/
namespace Sys2Proof.Machine

/-! ### The result port -/

@[simp] theorem withResult_result (r : Result) (s : State) : (withResult r s).result = r := rfl
@[simp] theorem withResult_cfg (r : Result) (s : State) : (withResult r s).cfg = s.cfg := rfl
@[simp] theorem withResult_agent (r : Result) (s : State) : (withResult r s).agent = s.agent := rfl
@[simp] theorem withResult_held (r : Result) (s : State) : (withResult r s).held = s.held := rfl
@[simp] theorem withResult_fifo (r : Result) (s : State) : (withResult r s).fifo = s.fifo := rfl
@[simp] theorem withResult_dropCnt (r : Result) (s : State) : (withResult r s).dropCnt = s.dropCnt := rfl
@[simp] theorem withResult_cons (r : Result) (s : State) : (withResult r s).cons = s.cons := rfl
@[simp] theorem withResult_i2c (r : Result) (s : State) : (withResult r s).i2c = s.i2c := rfl
@[simp] theorem withResult_chip (r : Result) (s : State) : (withResult r s).chip = s.chip := rfl
@[simp] theorem withResult_hwbuf (r : Result) (s : State) : (withResult r s).hwbuf = s.hwbuf := rfl
@[simp] theorem withResult_log (r : Result) (s : State) : (withResult r s).log = s.log := rfl
@[simp] theorem withResult_bus (r : Result) (s : State) : (withResult r s).bus = s.bus := rfl
@[simp] theorem withResult_exc (r : Result) (s : State) : (withResult r s).exc = s.exc := rfl
@[simp] theorem withResult_draws (r : Result) (s : State) : (withResult r s).draws = s.draws := rfl
@[simp] theorem withResult_sched (r : Result) (s : State) : (withResult r s).sched = s.sched := rfl
@[simp] theorem withResult_events (r : Result) (s : State) : (withResult r s).events = s.events := rfl

/-! ### Exceptions -/

@[simp] theorem raise_cfg (c : Cause) (s : State) : (raise c s).cfg = s.cfg := by cases c <;> rfl
@[simp] theorem raise_agent (c : Cause) (s : State) : (raise c s).agent = s.agent := by cases c <;> rfl
@[simp] theorem raise_held (c : Cause) (s : State) : (raise c s).held = s.held := by cases c <;> rfl
@[simp] theorem raise_fifo (c : Cause) (s : State) : (raise c s).fifo = s.fifo := by cases c <;> rfl
@[simp] theorem raise_i2c (c : Cause) (s : State) : (raise c s).i2c = s.i2c := by cases c <;> rfl
@[simp] theorem raise_chip (c : Cause) (s : State) : (raise c s).chip = s.chip := by cases c <;> rfl
@[simp] theorem raise_hwbuf (c : Cause) (s : State) : (raise c s).hwbuf = s.hwbuf := by cases c <;> rfl
@[simp] theorem raise_log (c : Cause) (s : State) : (raise c s).log = s.log := by cases c <;> rfl
@[simp] theorem raise_bus (c : Cause) (s : State) : (raise c s).bus = s.bus := by cases c <;> rfl
@[simp] theorem raise_result (c : Cause) (s : State) : (raise c s).result = s.result := by cases c <;> rfl
@[simp] theorem raise_draws (c : Cause) (s : State) : (raise c s).draws = s.draws := by cases c <;> rfl
@[simp] theorem raise_sched (c : Cause) (s : State) : (raise c s).sched = s.sched := by cases c <;> rfl
@[simp] theorem raise_events (c : Cause) (s : State) : (raise c s).events = s.events := by cases c <;> rfl
@[simp] theorem raise_exc (c : Cause) (s : State) : (raise c s).exc = s.exc ++ [c] := by cases c <;> rfl

/-- A fatal cause (R271, R272, R276). -/
theorem raise_fatal {c : Cause} (h : causeClass c = .fatal) (s : State) :
    raise c s = { s with exc := s.exc ++ [c], cons := { s.cons with cstate := .fatal } } := by
  simp [raise, h]

/-- A transient cause (R273, R274). -/
theorem raise_transient {c : Cause} (h : causeClass c = .transient) (s : State) :
    raise c s = { s with
      exc := s.exc ++ [c]
      cons := { s.cons with timeValid := false, busErrCnt := s.cons.busErrCnt + 1, cstep := .s3Parse } } := by
  simp [raise, h]

/-- Backpressure (R275). -/
theorem raise_backpressure {c : Cause} (h : causeClass c = .backpressure) (s : State) :
    raise c s = { s with exc := s.exc ++ [c], dropCnt := s.dropCnt + 1 } := by
  simp [raise, h]

/-! ### The codec and the bus -/

@[simp] theorem packTime_cfg (t : TimeFields) (s : State) : (packTime t s).cfg = s.cfg := rfl
@[simp] theorem packTime_agent (t : TimeFields) (s : State) : (packTime t s).agent = s.agent := rfl
@[simp] theorem packTime_held (t : TimeFields) (s : State) : (packTime t s).held = s.held := rfl
@[simp] theorem packTime_fifo (t : TimeFields) (s : State) : (packTime t s).fifo = s.fifo := rfl
@[simp] theorem packTime_dropCnt (t : TimeFields) (s : State) : (packTime t s).dropCnt = s.dropCnt := rfl
@[simp] theorem packTime_cons (t : TimeFields) (s : State) : (packTime t s).cons = s.cons := rfl
@[simp] theorem packTime_chip (t : TimeFields) (s : State) : (packTime t s).chip = s.chip := rfl
@[simp] theorem packTime_hwbuf (t : TimeFields) (s : State) : (packTime t s).hwbuf = s.hwbuf := rfl
@[simp] theorem packTime_log (t : TimeFields) (s : State) : (packTime t s).log = s.log := rfl
@[simp] theorem packTime_bus (t : TimeFields) (s : State) : (packTime t s).bus = s.bus := rfl
@[simp] theorem packTime_exc (t : TimeFields) (s : State) : (packTime t s).exc = s.exc := rfl
@[simp] theorem packTime_result (t : TimeFields) (s : State) : (packTime t s).result = s.result := rfl
@[simp] theorem packTime_draws (t : TimeFields) (s : State) : (packTime t s).draws = s.draws := rfl
@[simp] theorem packTime_sched (t : TimeFields) (s : State) : (packTime t s).sched = s.sched := rfl
@[simp] theorem packTime_events (t : TimeFields) (s : State) : (packTime t s).events = s.events := rfl
@[simp] theorem transmit_cfg (l : List Byte) (s : State) : (transmit l s).cfg = s.cfg := rfl
@[simp] theorem transmit_agent (l : List Byte) (s : State) : (transmit l s).agent = s.agent := rfl
@[simp] theorem transmit_held (l : List Byte) (s : State) : (transmit l s).held = s.held := rfl
@[simp] theorem transmit_fifo (l : List Byte) (s : State) : (transmit l s).fifo = s.fifo := rfl
@[simp] theorem transmit_dropCnt (l : List Byte) (s : State) : (transmit l s).dropCnt = s.dropCnt := rfl
@[simp] theorem transmit_cons (l : List Byte) (s : State) : (transmit l s).cons = s.cons := rfl
@[simp] theorem transmit_hwbuf (l : List Byte) (s : State) : (transmit l s).hwbuf = s.hwbuf := rfl
@[simp] theorem transmit_log (l : List Byte) (s : State) : (transmit l s).log = s.log := rfl
@[simp] theorem transmit_exc (l : List Byte) (s : State) : (transmit l s).exc = s.exc := rfl
@[simp] theorem transmit_result (l : List Byte) (s : State) : (transmit l s).result = s.result := rfl
@[simp] theorem transmit_sched (l : List Byte) (s : State) : (transmit l s).sched = s.sched := rfl
@[simp] theorem transmit_events (l : List Byte) (s : State) : (transmit l s).events = s.events := rfl
@[simp] theorem transmit_busOpen (l : List Byte) (s : State) : (transmit l s).i2c.busOpen = s.i2c.busOpen := rfl
@[simp] theorem transmit_txbuf (l : List Byte) (s : State) : (transmit l s).i2c.txbuf = s.i2c.txbuf := rfl
@[simp] theorem transmit_rxbuf (l : List Byte) (s : State) : (transmit l s).i2c.rxbuf = s.i2c.rxbuf := rfl
@[simp] theorem writeTime_cfg (t : TimeFields) (s : State) : (writeTime t s).cfg = s.cfg := rfl
@[simp] theorem writeTime_agent (t : TimeFields) (s : State) : (writeTime t s).agent = s.agent := rfl
@[simp] theorem writeTime_held (t : TimeFields) (s : State) : (writeTime t s).held = s.held := rfl
@[simp] theorem writeTime_fifo (t : TimeFields) (s : State) : (writeTime t s).fifo = s.fifo := rfl
@[simp] theorem writeTime_dropCnt (t : TimeFields) (s : State) : (writeTime t s).dropCnt = s.dropCnt := rfl
@[simp] theorem writeTime_cons (t : TimeFields) (s : State) : (writeTime t s).cons = s.cons := rfl
@[simp] theorem writeTime_hwbuf (t : TimeFields) (s : State) : (writeTime t s).hwbuf = s.hwbuf := rfl
@[simp] theorem writeTime_log (t : TimeFields) (s : State) : (writeTime t s).log = s.log := rfl
@[simp] theorem writeTime_exc (t : TimeFields) (s : State) : (writeTime t s).exc = s.exc := rfl
@[simp] theorem writeTime_result (t : TimeFields) (s : State) : (writeTime t s).result = s.result := rfl
@[simp] theorem writeTime_sched (t : TimeFields) (s : State) : (writeTime t s).sched = s.sched := rfl
@[simp] theorem writeTime_events (t : TimeFields) (s : State) : (writeTime t s).events = s.events := rfl
@[simp] theorem writeTime_busOpen (t : TimeFields) (s : State) : (writeTime t s).i2c.busOpen = s.i2c.busOpen := rfl
@[simp] theorem writeTime_rxbuf (t : TimeFields) (s : State) : (writeTime t s).i2c.rxbuf = s.i2c.rxbuf := rfl
@[simp] theorem writeTime_txbuf (t : TimeFields) (s : State) : (writeTime t s).i2c.txbuf = clockFrame s.cfg t := rfl
@[simp] theorem transceive_cfg (w : Byte) (n : Nat) (s : State) : (transceive w n s).cfg = s.cfg := by unfold transceive; split <;> rfl
@[simp] theorem transceive_agent (w : Byte) (n : Nat) (s : State) : (transceive w n s).agent = s.agent := by unfold transceive; split <;> rfl
@[simp] theorem transceive_held (w : Byte) (n : Nat) (s : State) : (transceive w n s).held = s.held := by unfold transceive; split <;> rfl
@[simp] theorem transceive_fifo (w : Byte) (n : Nat) (s : State) : (transceive w n s).fifo = s.fifo := by unfold transceive; split <;> rfl
@[simp] theorem transceive_dropCnt (w : Byte) (n : Nat) (s : State) : (transceive w n s).dropCnt = s.dropCnt := by unfold transceive; split <;> rfl
@[simp] theorem transceive_cons (w : Byte) (n : Nat) (s : State) : (transceive w n s).cons = s.cons := by unfold transceive; split <;> rfl
@[simp] theorem transceive_hwbuf (w : Byte) (n : Nat) (s : State) : (transceive w n s).hwbuf = s.hwbuf := by unfold transceive; split <;> rfl
@[simp] theorem transceive_log (w : Byte) (n : Nat) (s : State) : (transceive w n s).log = s.log := by unfold transceive; split <;> rfl
@[simp] theorem transceive_exc (w : Byte) (n : Nat) (s : State) : (transceive w n s).exc = s.exc := by unfold transceive; split <;> rfl
@[simp] theorem transceive_result (w : Byte) (n : Nat) (s : State) : (transceive w n s).result = s.result := by unfold transceive; split <;> rfl
@[simp] theorem transceive_sched (w : Byte) (n : Nat) (s : State) : (transceive w n s).sched = s.sched := by unfold transceive; split <;> rfl
@[simp] theorem transceive_events (w : Byte) (n : Nat) (s : State) : (transceive w n s).events = s.events := by unfold transceive; split <;> rfl
@[simp] theorem transceive_busOpen (w : Byte) (n : Nat) (s : State) : (transceive w n s).i2c.busOpen = s.i2c.busOpen := by
  unfold transceive; split <;> rfl
@[simp] theorem transceive_txbuf (w : Byte) (n : Nat) (s : State) : (transceive w n s).i2c.txbuf = s.i2c.txbuf := by
  unfold transceive; split <;> rfl
@[simp] theorem openBus_cfg (s : State) : (openBus s).cfg = s.cfg := by unfold openBus; split <;> simp
@[simp] theorem openBus_agent (s : State) : (openBus s).agent = s.agent := by unfold openBus; split <;> simp
@[simp] theorem openBus_held (s : State) : (openBus s).held = s.held := by unfold openBus; split <;> simp
@[simp] theorem openBus_fifo (s : State) : (openBus s).fifo = s.fifo := by unfold openBus; split <;> simp
@[simp] theorem openBus_chip (s : State) : (openBus s).chip = s.chip := by unfold openBus; split <;> simp
@[simp] theorem openBus_hwbuf (s : State) : (openBus s).hwbuf = s.hwbuf := by unfold openBus; split <;> simp
@[simp] theorem openBus_log (s : State) : (openBus s).log = s.log := by unfold openBus; split <;> simp
@[simp] theorem openBus_bus (s : State) : (openBus s).bus = s.bus := by unfold openBus; split <;> simp
@[simp] theorem openBus_result (s : State) : (openBus s).result = s.result := by unfold openBus; split <;> simp
@[simp] theorem openBus_sched (s : State) : (openBus s).sched = s.sched := by unfold openBus; split <;> simp
@[simp] theorem openBus_events (s : State) : (openBus s).events = s.events := by unfold openBus; split <;> simp
@[simp] theorem openBus_dropCnt (s : State) : (openBus s).dropCnt = s.dropCnt := by unfold openBus; split <;> rfl

/-! ### The parser -/

@[simp] theorem decodeFc_cfg (fc : HalfWord) (s : State) : (decodeFc fc s).cfg = s.cfg := rfl
@[simp] theorem decodeFc_agent (fc : HalfWord) (s : State) : (decodeFc fc s).agent = s.agent := rfl
@[simp] theorem decodeFc_held (fc : HalfWord) (s : State) : (decodeFc fc s).held = s.held := rfl
@[simp] theorem decodeFc_fifo (fc : HalfWord) (s : State) : (decodeFc fc s).fifo = s.fifo := rfl
@[simp] theorem decodeFc_dropCnt (fc : HalfWord) (s : State) : (decodeFc fc s).dropCnt = s.dropCnt := rfl
@[simp] theorem decodeFc_i2c (fc : HalfWord) (s : State) : (decodeFc fc s).i2c = s.i2c := rfl
@[simp] theorem decodeFc_chip (fc : HalfWord) (s : State) : (decodeFc fc s).chip = s.chip := rfl
@[simp] theorem decodeFc_hwbuf (fc : HalfWord) (s : State) : (decodeFc fc s).hwbuf = s.hwbuf := rfl
@[simp] theorem decodeFc_log (fc : HalfWord) (s : State) : (decodeFc fc s).log = s.log := rfl
@[simp] theorem decodeFc_bus (fc : HalfWord) (s : State) : (decodeFc fc s).bus = s.bus := rfl
@[simp] theorem decodeFc_exc (fc : HalfWord) (s : State) : (decodeFc fc s).exc = s.exc := rfl
@[simp] theorem decodeFc_result (fc : HalfWord) (s : State) : (decodeFc fc s).result = s.result := rfl
@[simp] theorem decodeFc_draws (fc : HalfWord) (s : State) : (decodeFc fc s).draws = s.draws := rfl
@[simp] theorem decodeFc_sched (fc : HalfWord) (s : State) : (decodeFc fc s).sched = s.sched := rfl
@[simp] theorem decodeFc_events (fc : HalfWord) (s : State) : (decodeFc fc s).events = s.events := rfl

/-! ### The producer and the environment -/

@[simp] theorem pushOrDrop_cfg (b : List Byte) (s : State) : (pushOrDrop b s).cfg = s.cfg := by unfold pushOrDrop; split <;> simp
@[simp] theorem pushOrDrop_agent (b : List Byte) (s : State) : (pushOrDrop b s).agent = s.agent := by unfold pushOrDrop; split <;> simp
@[simp] theorem pushOrDrop_held (b : List Byte) (s : State) : (pushOrDrop b s).held = s.held := by unfold pushOrDrop; split <;> simp
@[simp] theorem pushOrDrop_i2c (b : List Byte) (s : State) : (pushOrDrop b s).i2c = s.i2c := by unfold pushOrDrop; split <;> simp
@[simp] theorem pushOrDrop_chip (b : List Byte) (s : State) : (pushOrDrop b s).chip = s.chip := by unfold pushOrDrop; split <;> simp
@[simp] theorem pushOrDrop_hwbuf (b : List Byte) (s : State) : (pushOrDrop b s).hwbuf = s.hwbuf := by unfold pushOrDrop; split <;> simp
@[simp] theorem pushOrDrop_log (b : List Byte) (s : State) : (pushOrDrop b s).log = s.log := by unfold pushOrDrop; split <;> simp
@[simp] theorem pushOrDrop_bus (b : List Byte) (s : State) : (pushOrDrop b s).bus = s.bus := by unfold pushOrDrop; split <;> simp
@[simp] theorem pushOrDrop_result (b : List Byte) (s : State) : (pushOrDrop b s).result = s.result := by unfold pushOrDrop; split <;> simp
@[simp] theorem pushOrDrop_draws (b : List Byte) (s : State) : (pushOrDrop b s).draws = s.draws := by unfold pushOrDrop; split <;> simp
@[simp] theorem pushOrDrop_sched (b : List Byte) (s : State) : (pushOrDrop b s).sched = s.sched := by unfold pushOrDrop; split <;> simp
@[simp] theorem pushOrDrop_events (b : List Byte) (s : State) : (pushOrDrop b s).events = s.events := by unfold pushOrDrop; split <;> simp
@[simp] theorem pushOrDrop_cons (b : List Byte) (s : State) : (pushOrDrop b s).cons = s.cons := by unfold pushOrDrop; split <;> rfl
@[simp] theorem onFrame_cfg (p : Option Nat) (s : State) : (onFrame p s).cfg = s.cfg := by
  unfold onFrame; split <;> (try split) <;> simp
@[simp] theorem onFrame_agent (p : Option Nat) (s : State) : (onFrame p s).agent = s.agent := by
  unfold onFrame; split <;> (try split) <;> simp
@[simp] theorem onFrame_held (p : Option Nat) (s : State) : (onFrame p s).held = s.held := by
  unfold onFrame; split <;> (try split) <;> simp
@[simp] theorem onFrame_cons (p : Option Nat) (s : State) : (onFrame p s).cons = s.cons := by
  unfold onFrame; split <;> (try split) <;> simp
@[simp] theorem onFrame_i2c (p : Option Nat) (s : State) : (onFrame p s).i2c = s.i2c := by
  unfold onFrame; split <;> (try split) <;> simp
@[simp] theorem onFrame_chip (p : Option Nat) (s : State) : (onFrame p s).chip = s.chip := by
  unfold onFrame; split <;> (try split) <;> simp
@[simp] theorem onFrame_hwbuf (p : Option Nat) (s : State) : (onFrame p s).hwbuf = s.hwbuf := by
  unfold onFrame; split <;> (try split) <;> simp
@[simp] theorem onFrame_log (p : Option Nat) (s : State) : (onFrame p s).log = s.log := by
  unfold onFrame; split <;> (try split) <;> simp
@[simp] theorem onFrame_bus (p : Option Nat) (s : State) : (onFrame p s).bus = s.bus := by
  unfold onFrame; split <;> (try split) <;> simp
@[simp] theorem onFrame_result (p : Option Nat) (s : State) : (onFrame p s).result = s.result := by
  unfold onFrame; split <;> (try split) <;> simp
@[simp] theorem onFrame_sched (p : Option Nat) (s : State) : (onFrame p s).sched = s.sched := by
  unfold onFrame; split <;> (try split) <;> simp
@[simp] theorem onFrame_events (p : Option Nat) (s : State) : (onFrame p s).events = s.events := by
  unfold onFrame; split <;> (try split) <;> simp
@[simp] theorem radioFrame_cfg (p : Option Nat) (frame : List Byte) (s : State) : (radioFrame p frame s).cfg = s.cfg := by simp [radioFrame]
@[simp] theorem radioFrame_agent (p : Option Nat) (frame : List Byte) (s : State) : (radioFrame p frame s).agent = s.agent := by simp [radioFrame]
@[simp] theorem radioFrame_held (p : Option Nat) (frame : List Byte) (s : State) : (radioFrame p frame s).held = s.held := by simp [radioFrame]
@[simp] theorem radioFrame_cons (p : Option Nat) (frame : List Byte) (s : State) : (radioFrame p frame s).cons = s.cons := by simp [radioFrame]
@[simp] theorem radioFrame_i2c (p : Option Nat) (frame : List Byte) (s : State) : (radioFrame p frame s).i2c = s.i2c := by simp [radioFrame]
@[simp] theorem radioFrame_chip (p : Option Nat) (frame : List Byte) (s : State) : (radioFrame p frame s).chip = s.chip := by simp [radioFrame]
@[simp] theorem radioFrame_log (p : Option Nat) (frame : List Byte) (s : State) : (radioFrame p frame s).log = s.log := by simp [radioFrame]
@[simp] theorem radioFrame_bus (p : Option Nat) (frame : List Byte) (s : State) : (radioFrame p frame s).bus = s.bus := by simp [radioFrame]
@[simp] theorem radioFrame_result (p : Option Nat) (frame : List Byte) (s : State) : (radioFrame p frame s).result = s.result := by simp [radioFrame]
@[simp] theorem radioFrame_sched (p : Option Nat) (frame : List Byte) (s : State) : (radioFrame p frame s).sched = s.sched := by simp [radioFrame]
@[simp] theorem radioFrame_events (p : Option Nat) (frame : List Byte) (s : State) : (radioFrame p frame s).events = s.events := by simp [radioFrame]
@[simp] theorem radioFrame_hwbuf (p : Option Nat) (frame : List Byte) (s : State) : (radioFrame p frame s).hwbuf = [] := rfl
@[simp] theorem resetBlock_cfg (s : State) : (resetBlock s).cfg = s.cfg := rfl
@[simp] theorem resetBlock_agent (s : State) : (resetBlock s).agent = State.reset.agent := rfl
@[simp] theorem resetBlock_held (s : State) : (resetBlock s).held = State.reset.held := rfl
@[simp] theorem resetBlock_fifo (s : State) : (resetBlock s).fifo = State.reset.fifo := rfl
@[simp] theorem resetBlock_dropCnt (s : State) : (resetBlock s).dropCnt = State.reset.dropCnt := rfl
@[simp] theorem resetBlock_cons (s : State) : (resetBlock s).cons = State.reset.cons := rfl
@[simp] theorem resetBlock_i2c (s : State) : (resetBlock s).i2c = State.reset.i2c := rfl
@[simp] theorem resetBlock_chip (s : State) : (resetBlock s).chip = s.chip := rfl
@[simp] theorem resetBlock_hwbuf (s : State) : (resetBlock s).hwbuf = s.hwbuf := rfl
@[simp] theorem resetBlock_log (s : State) : (resetBlock s).log = State.reset.log := rfl
@[simp] theorem resetBlock_bus (s : State) : (resetBlock s).bus = State.reset.bus := rfl
@[simp] theorem resetBlock_exc (s : State) : (resetBlock s).exc = State.reset.exc := rfl
@[simp] theorem resetBlock_result (s : State) : (resetBlock s).result = State.reset.result := rfl
@[simp] theorem resetBlock_draws (s : State) : (resetBlock s).draws = s.draws := rfl
@[simp] theorem resetBlock_sched (s : State) : (resetBlock s).sched = s.sched := rfl
@[simp] theorem resetBlock_events (s : State) : (resetBlock s).events = s.events := rfl
@[simp] theorem radioInitFailed_cfg (s : State) : (radioInitFailed s).cfg = s.cfg := by
  unfold radioInitFailed; split <;> simp
@[simp] theorem radioInitFailed_agent (s : State) : (radioInitFailed s).agent = s.agent := by
  unfold radioInitFailed; split <;> simp
@[simp] theorem radioInitFailed_held (s : State) : (radioInitFailed s).held = s.held := by
  unfold radioInitFailed; split <;> simp
@[simp] theorem radioInitFailed_fifo (s : State) : (radioInitFailed s).fifo = s.fifo := by
  unfold radioInitFailed; split <;> simp
@[simp] theorem radioInitFailed_i2c (s : State) : (radioInitFailed s).i2c = s.i2c := by
  unfold radioInitFailed; split <;> simp
@[simp] theorem radioInitFailed_chip (s : State) : (radioInitFailed s).chip = s.chip := by
  unfold radioInitFailed; split <;> simp
@[simp] theorem radioInitFailed_hwbuf (s : State) : (radioInitFailed s).hwbuf = s.hwbuf := by
  unfold radioInitFailed; split <;> simp
@[simp] theorem radioInitFailed_log (s : State) : (radioInitFailed s).log = s.log := by
  unfold radioInitFailed; split <;> simp
@[simp] theorem radioInitFailed_bus (s : State) : (radioInitFailed s).bus = s.bus := by
  unfold radioInitFailed; split <;> simp
@[simp] theorem radioInitFailed_result (s : State) : (radioInitFailed s).result = s.result := by
  unfold radioInitFailed; split <;> simp
@[simp] theorem radioInitFailed_draws (s : State) : (radioInitFailed s).draws = s.draws := by
  unfold radioInitFailed; split <;> simp
@[simp] theorem radioInitFailed_sched (s : State) : (radioInitFailed s).sched = s.sched := by
  unfold radioInitFailed; split <;> simp
@[simp] theorem radioInitFailed_events (s : State) : (radioInitFailed s).events = s.events := by
  unfold radioInitFailed; split <;> simp
@[simp] theorem radioInitFailed_dropCnt (s : State) : (radioInitFailed s).dropCnt = s.dropCnt := by
  unfold radioInitFailed; split <;> rfl
@[simp] theorem runEvent_cfg (k : EventKind) (s : State) : (runEvent k s).cfg = s.cfg := by
  cases k <;> simp [runEvent] <;> split <;> rfl
theorem runEvent_agent {k : EventKind} (h : k ≠ .reset) (s : State) : (runEvent k s).agent = s.agent := by
  cases k <;> simp [runEvent] at h ⊢ <;> split <;> rfl
theorem runEvent_held {k : EventKind} (h : k ≠ .reset) (s : State) : (runEvent k s).held = s.held := by
  cases k <;> simp [runEvent] at h ⊢ <;> split <;> rfl
theorem runEvent_i2c {k : EventKind} (h : k ≠ .reset) (s : State) : (runEvent k s).i2c = s.i2c := by
  cases k <;> simp [runEvent] at h ⊢ <;> split <;> rfl
theorem runEvent_log {k : EventKind} (h : k ≠ .reset) (s : State) : (runEvent k s).log = s.log := by
  cases k <;> simp [runEvent] at h ⊢ <;> split <;> rfl
theorem runEvent_bus {k : EventKind} (h : k ≠ .reset) (s : State) : (runEvent k s).bus = s.bus := by
  cases k <;> simp [runEvent] at h ⊢ <;> split <;> rfl
theorem runEvent_result {k : EventKind} (h : k ≠ .reset) (s : State) : (runEvent k s).result = s.result := by
  cases k <;> simp [runEvent] at h ⊢ <;> split <;> rfl
@[simp] theorem runEvent_sched (k : EventKind) (s : State) : (runEvent k s).sched = s.sched := by
  cases k <;> simp [runEvent] <;> split <;> rfl
@[simp] theorem runEvent_events (k : EventKind) (s : State) : (runEvent k s).events = s.events := by
  cases k <;> simp [runEvent] <;> split <;> rfl
@[simp] theorem deliver_cfg (e : Event) (s : State) : (deliver e s).cfg = s.cfg := by simp [deliver]
theorem deliver_agent {e : Event} (h : e.kind ≠ .reset) (s : State) : (deliver e s).agent = s.agent := by
  simp [deliver, runEvent_agent h]
theorem deliver_held {e : Event} (h : e.kind ≠ .reset) (s : State) : (deliver e s).held = s.held := by
  simp [deliver, runEvent_held h]
theorem deliver_i2c {e : Event} (h : e.kind ≠ .reset) (s : State) : (deliver e s).i2c = s.i2c := by
  simp [deliver, runEvent_i2c h]
theorem deliver_log {e : Event} (h : e.kind ≠ .reset) (s : State) : (deliver e s).log = s.log := by
  simp [deliver, runEvent_log h]
theorem deliver_bus {e : Event} (h : e.kind ≠ .reset) (s : State) : (deliver e s).bus = s.bus := by
  simp [deliver, runEvent_bus h]
theorem deliver_result {e : Event} (h : e.kind ≠ .reset) (s : State) : (deliver e s).result = s.result := by
  simp [deliver, runEvent_result h]
@[simp] theorem deliver_sched (e : Event) (s : State) : (deliver e s).sched = s.sched := by simp [deliver]
@[simp] theorem deliver_events (e : Event) (s : State) : (deliver e s).events = s.events := by simp [deliver]
@[simp] theorem deliver_script (e : Event) (s : State) : (deliver e s).draws.script = s.draws.script := rfl
@[simp] theorem deliverDue_cfg (es : List Event) (s : State) : (deliverDue es s).cfg = s.cfg := by
  induction es generalizing s with
  | nil => rfl
  | cons e es ih => unfold deliverDue; split <;> simp [ih]
@[simp] theorem deliverDue_agent (es : List Event) (s : State) : (deliverDue es s).agent = s.agent := by
  induction es generalizing s with
  | nil => rfl
  | cons e es ih =>
    unfold deliverDue
    split
    · rename_i h
      rw [ih, deliver_agent h.2]
    · rfl
@[simp] theorem deliverDue_held (es : List Event) (s : State) : (deliverDue es s).held = s.held := by
  induction es generalizing s with
  | nil => rfl
  | cons e es ih =>
    unfold deliverDue
    split
    · rename_i h
      rw [ih, deliver_held h.2]
    · rfl
@[simp] theorem deliverDue_i2c (es : List Event) (s : State) : (deliverDue es s).i2c = s.i2c := by
  induction es generalizing s with
  | nil => rfl
  | cons e es ih =>
    unfold deliverDue
    split
    · rename_i h
      rw [ih, deliver_i2c h.2]
    · rfl
@[simp] theorem deliverDue_log (es : List Event) (s : State) : (deliverDue es s).log = s.log := by
  induction es generalizing s with
  | nil => rfl
  | cons e es ih =>
    unfold deliverDue
    split
    · rename_i h
      rw [ih, deliver_log h.2]
    · rfl
@[simp] theorem deliverDue_bus (es : List Event) (s : State) : (deliverDue es s).bus = s.bus := by
  induction es generalizing s with
  | nil => rfl
  | cons e es ih =>
    unfold deliverDue
    split
    · rename_i h
      rw [ih, deliver_bus h.2]
    · rfl
@[simp] theorem deliverDue_result (es : List Event) (s : State) : (deliverDue es s).result = s.result := by
  induction es generalizing s with
  | nil => rfl
  | cons e es ih =>
    unfold deliverDue
    split
    · rename_i h
      rw [ih, deliver_result h.2]
    · rfl
@[simp] theorem deliverDue_sched (es : List Event) (s : State) : (deliverDue es s).sched = s.sched := by
  induction es generalizing s with
  | nil => rfl
  | cons e es ih => unfold deliverDue; split <;> simp [ih]
@[simp] theorem betweenSteps_cfg (s : State) : (betweenSteps s).cfg = s.cfg := by simp [betweenSteps]
@[simp] theorem betweenSteps_agent (s : State) : (betweenSteps s).agent = s.agent := by simp [betweenSteps]
@[simp] theorem betweenSteps_held (s : State) : (betweenSteps s).held = s.held := by simp [betweenSteps]
@[simp] theorem betweenSteps_i2c (s : State) : (betweenSteps s).i2c = s.i2c := by simp [betweenSteps]
@[simp] theorem betweenSteps_log (s : State) : (betweenSteps s).log = s.log := by simp [betweenSteps]
@[simp] theorem betweenSteps_bus (s : State) : (betweenSteps s).bus = s.bus := by simp [betweenSteps]
@[simp] theorem betweenSteps_result (s : State) : (betweenSteps s).result = s.result := by simp [betweenSteps]
@[simp] theorem betweenSteps_sched (s : State) : (betweenSteps s).sched = s.sched := by simp [betweenSteps]

/-! ### The consumer -/

@[simp] theorem finishInit_cfg (s : State) : (finishInit s).cfg = s.cfg := by
  unfold finishInit; split <;> simp
@[simp] theorem finishInit_agent (s : State) : (finishInit s).agent = s.agent := by
  unfold finishInit; split <;> simp
@[simp] theorem finishInit_held (s : State) : (finishInit s).held = s.held := by
  unfold finishInit; split <;> simp
@[simp] theorem finishInit_fifo (s : State) : (finishInit s).fifo = s.fifo := by
  unfold finishInit; split <;> simp
@[simp] theorem finishInit_i2c (s : State) : (finishInit s).i2c = s.i2c := by
  unfold finishInit; split <;> simp
@[simp] theorem finishInit_chip (s : State) : (finishInit s).chip = s.chip := by
  unfold finishInit; split <;> simp
@[simp] theorem finishInit_hwbuf (s : State) : (finishInit s).hwbuf = s.hwbuf := by
  unfold finishInit; split <;> simp
@[simp] theorem finishInit_bus (s : State) : (finishInit s).bus = s.bus := by
  unfold finishInit; split <;> simp
@[simp] theorem finishInit_draws (s : State) : (finishInit s).draws = s.draws := by
  unfold finishInit; split <;> simp
@[simp] theorem finishInit_sched (s : State) : (finishInit s).sched = s.sched := by
  unfold finishInit; split <;> simp
@[simp] theorem finishInit_events (s : State) : (finishInit s).events = s.events := by
  unfold finishInit; split <;> simp
@[simp] theorem finishInit_dropCnt (s : State) : (finishInit s).dropCnt = s.dropCnt := by
  unfold finishInit; split <;> rfl
@[simp] theorem finishClock_cfg (s : State) : (finishClock s).cfg = s.cfg := by
  unfold finishClock; split <;> simp
@[simp] theorem finishClock_agent (s : State) : (finishClock s).agent = s.agent := by
  unfold finishClock; split <;> simp
@[simp] theorem finishClock_held (s : State) : (finishClock s).held = s.held := by
  unfold finishClock; split <;> simp
@[simp] theorem finishClock_fifo (s : State) : (finishClock s).fifo = s.fifo := by
  unfold finishClock; split <;> simp
@[simp] theorem finishClock_i2c (s : State) : (finishClock s).i2c = s.i2c := by
  unfold finishClock; split <;> simp
@[simp] theorem finishClock_chip (s : State) : (finishClock s).chip = s.chip := by
  unfold finishClock; split <;> simp
@[simp] theorem finishClock_hwbuf (s : State) : (finishClock s).hwbuf = s.hwbuf := by
  unfold finishClock; split <;> simp
@[simp] theorem finishClock_log (s : State) : (finishClock s).log = s.log := by
  unfold finishClock; split <;> simp
@[simp] theorem finishClock_bus (s : State) : (finishClock s).bus = s.bus := by
  unfold finishClock; split <;> simp
@[simp] theorem finishClock_draws (s : State) : (finishClock s).draws = s.draws := by
  unfold finishClock; split <;> simp
@[simp] theorem finishClock_sched (s : State) : (finishClock s).sched = s.sched := by
  unfold finishClock; split <;> simp
@[simp] theorem finishClock_events (s : State) : (finishClock s).events = s.events := by
  unfold finishClock; split <;> simp
@[simp] theorem finishClock_dropCnt (s : State) : (finishClock s).dropCnt = s.dropCnt := by
  unfold finishClock; split <;> rfl
@[simp] theorem finishSample_cfg (s : State) : (finishSample s).cfg = s.cfg := rfl
@[simp] theorem finishSample_agent (s : State) : (finishSample s).agent = s.agent := rfl
@[simp] theorem finishSample_held (s : State) : (finishSample s).held = s.held := rfl
@[simp] theorem finishSample_fifo (s : State) : (finishSample s).fifo = s.fifo := rfl
@[simp] theorem finishSample_dropCnt (s : State) : (finishSample s).dropCnt = s.dropCnt := rfl
@[simp] theorem finishSample_i2c (s : State) : (finishSample s).i2c = s.i2c := rfl
@[simp] theorem finishSample_chip (s : State) : (finishSample s).chip = s.chip := rfl
@[simp] theorem finishSample_hwbuf (s : State) : (finishSample s).hwbuf = s.hwbuf := rfl
@[simp] theorem finishSample_log (s : State) : (finishSample s).log = s.log := rfl
@[simp] theorem finishSample_bus (s : State) : (finishSample s).bus = s.bus := rfl
@[simp] theorem finishSample_exc (s : State) : (finishSample s).exc = s.exc := rfl
@[simp] theorem finishSample_draws (s : State) : (finishSample s).draws = s.draws := rfl
@[simp] theorem finishSample_sched (s : State) : (finishSample s).sched = s.sched := rfl
@[simp] theorem finishSample_events (s : State) : (finishSample s).events = s.events := rfl

end Sys2Proof.Machine
end

