-- ==== Sys2Proof/Laws/Ops.lean ====
section
/-! SUPPORT. One lemma a shared operation: what it answers, and when. Later proofs cite these instead of unfolding. -/
namespace Sys2Proof.Machine

/-! ### Outcomes in sequence -/

@[simp] theorem andThen_next {α β : Type} (a : α) (k : α → Out β) : andThen (.next a) k = k a := rfl
@[simp] theorem andThen_fault {α β : Type} (r : Fault) (k : α → Out β) : andThen (.fault r) k = .fault r := rfl
@[simp] theorem andThen_refused {α β : Type} (r : Refusal) (k : α → Out β) : andThen (.refused r) k = .refused r := rfl

/-- A sequence that answers has a first part that answers. -/
theorem andThen_eq_next {α β : Type} {x : Out α} {k : α → Out β} {b : β} :
    andThen x k = .next b ↔ ∃ a, x = .next a ∧ k a = .next b := by
  cases x <;> simp [andThen]

theorem orRefuse_eq_next {α : Type} {r : Option Refusal} {a b : α} :
    orRefuse r a = .next b ↔ r = none ∧ a = b := by
  cases r <;> simp [orRefuse]

@[simp] theorem orRefuse_none {α : Type} (a : α) : orRefuse none a = .next a := rfl
@[simp] theorem orRefuse_some {α : Type} (r : Refusal) (a : α) : orRefuse (some r) a = .refused r := rfl

theorem requireAgent_eq_next {a : Agent} {s t : State} {k : Out State} :
    requireAgent a s k = .next t ↔ s.agent = some a ∧ k = .next t := by
  unfold requireAgent
  split <;> simp_all

theorem requireAgent_of {a : Agent} {s : State} (h : s.agent = some a) (k : Out State) : requireAgent a s k = k := by
  simp [requireAgent, h]

/-- An operation runs unless the consumer, stuck, issues it (U30). -/
theorem unlessStuck_eq_next {s t : State} {k : Out State} :
    unlessStuck s k = .next t ↔
      (s.agent = some .cons ∧ s.cons.cstate = .fatal ∧ t = withResult .stuck s) ∨
      (¬ (s.agent = some .cons ∧ s.cons.cstate = .fatal) ∧ k = .next t) := by
  unfold unlessStuck
  split <;> rename_i h
  · simp [h, eq_comm]
  · rw [← and_assoc]
    simp [h]

theorem unlessStuck_of {s : State} (h : ¬ (s.agent = some .cons ∧ s.cons.cstate = .fatal)) (k : Out State) :
    unlessStuck s k = k := if_neg h

/-- In the consumer's context an operation runs, unless the consumer is stuck (U30). -/
theorem requireConsumer_eq_next {s t : State} {k : Out State} :
    requireConsumer s k = .next t ↔ s.agent = some .cons ∧
      ((s.cons.cstate = .fatal ∧ t = withResult .stuck s) ∨ (s.cons.cstate ≠ .fatal ∧ k = .next t)) := by
  unfold requireConsumer
  rw [requireAgent_eq_next, unlessStuck_eq_next]
  constructor
  · rintro ⟨ha, ⟨_, hf, ht⟩ | ⟨hn, hk⟩⟩
    · exact ⟨ha, .inl ⟨hf, ht⟩⟩
    · exact ⟨ha, .inr ⟨fun hf => hn ⟨ha, hf⟩, hk⟩⟩
  · rintro ⟨ha, ⟨hf, ht⟩ | ⟨hn, hk⟩⟩
    · exact ⟨ha, .inl ⟨ha, hf, ht⟩⟩
    · exact ⟨ha, .inr ⟨fun h => hn h.2, hk⟩⟩

theorem requireConsumer_of {s : State} (h : s.agent = some .cons) (hf : s.cons.cstate ≠ .fatal) (k : Out State) :
    requireConsumer s k = k := by
  simp [requireConsumer, requireAgent, unlessStuck, h, hf]

theorem requireConsumer_fatal {s : State} (h : s.agent = some .cons) (hf : s.cons.cstate = .fatal) (k : Out State) :
    requireConsumer s k = .next (withResult .stuck s) := by
  simp [requireConsumer, requireAgent, unlessStuck, h, hf]

theorem requireAgent_refused {a : Agent} {s : State} (h : s.agent ≠ some a) (k : Out State) :
    requireAgent a s k = .refused .wrongAgent := by
  simp [requireAgent, h]

/-! ### Draws -/

theorem drawBelow_lt {k : Nat} (h : 0 < k) (d : Draws) : (drawBelow k d).1 < k := Nat.mod_lt _ h

/-- A draw named by the running line is that outcome. -/
theorem drawBelow_script {k x : Nat} {xs : List Nat} {n : Nat} :
    drawBelow k ⟨x :: xs, n⟩ = (x % k, ⟨xs, n⟩) := rfl

@[simp] theorem drawBytes_length (n : Nat) (d : Draws) : (drawBytes n d).1.length = n := by
  induction n generalizing d with
  | zero => rfl
  | succ n ih => simp [drawBytes, ih]

/-- The bytes of a buffer read: as many as asked. -/
@[simp] theorem readHwbuf_length (m : Memory) (a n : Nat) (d : Draws) : (readHwbuf m a n d).1.length = n := by
  induction n generalizing a d with
  | zero => rfl
  | succ n ih =>
    unfold readHwbuf
    split <;> simp [ih]

/-- A byte of the buffer that has a value is read as it is. -/
theorem readHwbuf_getElem? {m : Memory} {a n k : Nat} {b : Byte} (hk : k < n) (h : m.read? (a + k) = some b)
    (d : Draws) : (readHwbuf m a n d).1[k]? = some b := by
  induction n generalizing a d k with
  | zero => omega
  | succ n ih =>
    unfold readHwbuf
    cases k with
    | zero =>
      simp only [Nat.add_zero] at h
      simp [h]
    | succ k =>
      have h' : m.read? (a + 1 + k) = some b := by rwa [show a + 1 + k = a + (k + 1) from by omega]
      split <;> simp [ih (by omega) h']

/-! ### Slot reads -/

/-- A slot read answers exactly when the slot is on loan, the run lies in it and every byte has a value. -/
theorem readSlot_eq_next {h off n : Nat} {s : State} {l : List Byte} :
    readSlot h off n s = .next l ↔
      onLoan s.cfg s.fifo h = true ∧ off + n ≤ s.cfg.recBytes ∧
        s.fifo.slots.readList? (h * s.cfg.recBytes + off) n = some l := by
  unfold readSlot
  split
  · split
    · split <;> simp_all
    · rename_i h
      simp [h]
  · simp_all

/-- A slot read of bytes that are known one by one. -/
theorem readSlot_of_bytes {h off n : Nat} {s : State} {l : List Byte} (hl : onLoan s.cfg s.fifo h = true)
    (ho : off + n ≤ s.cfg.recBytes) (hn : l.length = n)
    (hb : ∀ k, k < n → s.fifo.slots.read? (h * s.cfg.recBytes + off + k) = l[k]?) :
    readSlot h off n s = .next l := by
  refine readSlot_eq_next.2 ⟨hl, ho, ?_⟩
  obtain ⟨l', hl'⟩ := Memory.readList?_isSome (m := s.fifo.slots) (a := h * s.cfg.recBytes + off) (n := n) fun k hk => by
    rw [hb k hk]
    simp [hn, hk]
  rw [hl']
  congr 1
  apply List.ext_getElem? fun k => ?_
  have hlen := Memory.readList?_length hl'
  by_cases hk : k < n
  · rw [← Memory.readList?_getElem? hl' k hk, hb k hk]
  · rw [List.getElem?_eq_none (by omega), List.getElem?_eq_none (by omega)]

theorem readSlot_length {h off n : Nat} {s : State} {l : List Byte} (hr : readSlot h off n s = .next l) :
    l.length = n := Memory.readList?_length (readSlot_eq_next.1 hr).2.2

/-- `MAC.FC_LOAD` changes `fc_reg` alone. -/
theorem loadFc_eq_next {h : Nat} {s t : State} (ht : loadFc h s = .next t) :
    ∃ l, readSlot h (s.cfg.metaBytes + s.cfg.fcOff) 2 s = .next l ∧
      t = { s with cons := { s.cons with fcReg := assembleFc s.cfg.fcLe (l.getD 0 0#8) (l.getD 1 0#8) } } := by
  obtain ⟨l, hl, h2⟩ := andThen_eq_next.1 ht
  exact ⟨l, hl, by simpa using h2.symm⟩

/-- `MAC.ADDR_EXTRACT` changes the two address fields alone. -/
theorem extractAddrs_eq_next {h : Nat} {s t : State} (ht : extractAddrs h s = .next t) :
    ∃ a b, readSlot h (s.cfg.metaBytes + s.cfg.addrAOff) 6 s = .next a ∧
      readSlot h (s.cfg.metaBytes + s.cfg.addrBOff) 6 s = .next b ∧
      t = { s with cons := { s.cons with addrA := a, addrB := b } } := by
  obtain ⟨a, ha, h2⟩ := andThen_eq_next.1 ht
  obtain ⟨b, hb, h3⟩ := andThen_eq_next.1 h2
  exact ⟨a, b, ha, hb, by simpa using h3.symm⟩

/-- A slot read looks at the parameters and the FIFO alone. -/
theorem readSlot_congr {s s' : State} (hc : s'.cfg = s.cfg) (hf : s'.fifo = s.fifo) (h off n : Nat) :
    readSlot h off n s' = readSlot h off n s := by
  simp [readSlot, hc, hf]

/-- `MAC.PARSE` changes the five registers of R223 alone. -/
theorem parseRecord_eq_next {h : Nat} {s t : State} (ht : parseRecord h s = .next t) :
    ∃ l a b, readSlot h (s.cfg.metaBytes + s.cfg.fcOff) 2 s = .next l ∧
      readSlot h (s.cfg.metaBytes + s.cfg.addrAOff) 6 s = .next a ∧
      readSlot h (s.cfg.metaBytes + s.cfg.addrBOff) 6 s = .next b ∧
      t = { s with
        cons := { s.cons with
          fcReg := assembleFc s.cfg.fcLe (l.getD 0 0#8) (l.getD 1 0#8)
          ftype := frameType (assembleFc s.cfg.fcLe (l.getD 0 0#8) (l.getD 1 0#8))
          fsubtype := frameSubtype (assembleFc s.cfg.fcLe (l.getD 0 0#8) (l.getD 1 0#8))
          addrA := a
          addrB := b } } := by
  obtain ⟨s1, h1, h2⟩ := andThen_eq_next.1 ht
  obtain ⟨l, hl, rfl⟩ := loadFc_eq_next h1
  obtain ⟨a, b, ha, hb, rfl⟩ := extractAddrs_eq_next h2
  exact ⟨l, a, b, hl, ha, hb, rfl⟩

/-- `MAC.FC_LOAD` of a run that can be read. -/
theorem loadFc_of_read {h : Nat} {s : State} {l : List Byte}
    (hl : readSlot h (s.cfg.metaBytes + s.cfg.fcOff) 2 s = .next l) :
    loadFc h s = .next
      { s with cons := { s.cons with fcReg := assembleFc s.cfg.fcLe (l.getD 0 0#8) (l.getD 1 0#8) } } := by
  rw [loadFc, hl, andThen_next]

/-- `MAC.ADDR_EXTRACT` of two runs that can be read. -/
theorem extractAddrs_of_reads {h : Nat} {s : State} {a b : List Byte}
    (ha : readSlot h (s.cfg.metaBytes + s.cfg.addrAOff) 6 s = .next a)
    (hb : readSlot h (s.cfg.metaBytes + s.cfg.addrBOff) 6 s = .next b) :
    extractAddrs h s = .next { s with cons := { s.cons with addrA := a, addrB := b } } := by
  rw [extractAddrs, ha, andThen_next, hb, andThen_next]

/-- `MAC.PARSE` of three runs that can be read. -/
theorem parseRecord_of_reads {h : Nat} {s : State} {l a b : List Byte}
    (hl : readSlot h (s.cfg.metaBytes + s.cfg.fcOff) 2 s = .next l)
    (ha : readSlot h (s.cfg.metaBytes + s.cfg.addrAOff) 6 s = .next a)
    (hb : readSlot h (s.cfg.metaBytes + s.cfg.addrBOff) 6 s = .next b) :
    parseRecord h s = .next { s with
      cons := { s.cons with
        fcReg := assembleFc s.cfg.fcLe (l.getD 0 0#8) (l.getD 1 0#8)
        ftype := frameType (assembleFc s.cfg.fcLe (l.getD 0 0#8) (l.getD 1 0#8))
        fsubtype := frameSubtype (assembleFc s.cfg.fcLe (l.getD 0 0#8) (l.getD 1 0#8))
        addrA := a
        addrB := b } } := by
  rw [parseRecord, loadFc_of_read hl, andThen_next]
  exact extractAddrs_of_reads ha hb

end Sys2Proof.Machine
end

