-- ==== Sys2Proof/Laws/Chip.lean ====
section
/-! SUPPORT. The clock chip's laws: every operation keeps the register file canonical and inside 8-bit addresses; what a
write, a read, a tick and a flag change do to each register; what a transaction does to the chip. -/
namespace Sys2Proof.Machine

/-- The register file is in canonical form, at 8-bit addresses (R70). -/
structure ChipWf (k : Chip) : Prop where
  canonical : k.regs.wf
  inside    : ∀ x ∈ k.regs, x.1 < 256

/-! ### The canonical form is kept -/

theorem ChipWf.store {k : Chip} (h : ChipWf k) {a : Nat} (ha : a < 256) (b : Byte) : ChipWf (chipStore a b k) := by
  refine ⟨Memory.write_wf a b h.canonical, fun x hx => ?_⟩
  rcases Memory.mem_write hx with rfl | hx
  · exact ha
  · exact h.inside x hx

theorem ChipWf.ptr {k : Chip} (h : ChipWf k) (p : Byte) : ChipWf { k with ptr := p } := ⟨h.canonical, h.inside⟩

theorem ChipWf.storeTime {k : Chip} (h : ChipWf k) {c : Params} (hc : c.timeBase.toNat + 6 ≤ 255) (x y z : Byte) :
    ChipWf (storeTime c x y z k) :=
  ((h.store (by omega) x).store (by omega) y).store (by omega) z

theorem ChipWf.tick {k : Chip} (h : ChipWf k) {c : Params} (hc : c.timeBase.toNat + 6 ≤ 255) (d : Draws) :
    ChipWf (chipTick c k d).1 := by
  unfold chipTick
  split
  · split
    · exact h.storeTime hc _ _ _
    · exact h.storeTime hc _ _ _
  · exact h.storeTime hc _ _ _

theorem ChipWf.ticks {k : Chip} (h : ChipWf k) {c : Params} (hc : c.timeBase.toNat + 6 ≤ 255) (n : Nat) (d : Draws) :
    ChipWf (chipTicks c n k d).1 := by
  induction n generalizing k d with
  | zero => exact h
  | succ n ih => exact ih (h.tick hc d) _

theorem ChipWf.inside' {k : Chip} (h : ChipWf k) {c : Params} (hc : c.timeBase.toNat + 6 ≤ 255) (d : Draws) :
    ChipWf (ticksInside c k d).1 := by
  unfold ticksInside
  split
  · exact h
  · exact h.ticks hc _ _

theorem ChipWf.flag {k : Chip} (h : ChipWf k) {a : Nat} (ha : a < 256) (m f : Byte) :
    ChipWf (flagRegister a m f k) := by
  unfold flagRegister
  split
  · exact h.store ha _
  · exact h

theorem ChipWf.setFlags {k : Chip} (h : ChipWf k) {c : Params} (hc : c.timeBase.toNat + 6 ≤ 255) (f : ChipFlags) :
    ChipWf (chipSetFlags c f k) :=
  ((h.flag (by omega) _ _).flag (by omega) _ _).flag (by omega) _ _

theorem ChipWf.storeFrom {k : Chip} (h : ChipWf k) {c : Params} (hc : c.timeBase.toNat + 6 ≤ 255) {a : Nat}
    {l : List Byte} (hl : a + l.length ≤ 256) (d : Draws) : ChipWf (chipStoreFrom c a l k d).1 := by
  induction l generalizing a k d with
  | nil => exact h
  | cons b bs ih =>
    simp only [List.length_cons] at hl
    exact ih ((h.inside' hc d).store (by omega) b) (by omega) _

theorem ChipWf.fetchFrom {k : Chip} (h : ChipWf k) {c : Params} (hc : c.timeBase.toNat + 6 ≤ 255) (a n : Nat)
    (d : Draws) : ChipWf (chipFetchFrom c a n k d).2.1 := by
  induction n generalizing a k d with
  | zero => exact h
  | succ n ih => exact ih (h.inside' hc d) _ _

theorem ChipWf.accept {k : Chip} (h : ChipWf k) {c : Params} (hc : c.timeBase.toNat + 6 ≤ 255) {p : Byte}
    {data : List Byte} (hl : p.toNat + data.length ≤ 256) (j : Nat) (d : Draws) :
    ChipWf (chipAccept c ((p :: data).take j) k d).1 := by
  cases j with
  | zero => exact h
  | succ j =>
    refine (h.storeFrom hc ?_ d).ptr _
    rw [List.length_take]
    omega

/-! ### Reads and writes with `RTC_ATOMIC_READ` (R199) -/

theorem ticksInside_atomic {c : Params} (h : c.rtcAtomicRead = true) (k : Chip) (d : Draws) :
    ticksInside c k d = (k, d) := by
  simp [ticksInside, h]

/-- A run of data bytes stands in the registers, and nothing else has happened. -/
theorem chipStoreFrom_atomic {c : Params} (h : c.rtcAtomicRead = true) (a : Nat) (l : List Byte) (k : Chip)
    (d : Draws) : chipStoreFrom c a l k d = ({ k with regs := k.regs.writeList a l }, d) := by
  induction l generalizing a k with
  | nil => rfl
  | cons b bs ih =>
    simp only [chipStoreFrom, ticksInside_atomic h]
    rw [ih]
    rfl

/-- A read changes no register. -/
theorem chipFetchFrom_atomic {c : Params} (h : c.rtcAtomicRead = true) (a n : Nat) (k : Chip) (d : Draws) :
    (chipFetchFrom c a n k d).2.1 = k := by
  induction n generalizing a d with
  | zero => rfl
  | succ n ih =>
    simp only [chipFetchFrom, ticksInside_atomic h]
    exact ih _ _

@[simp] theorem chipFetchFrom_length (c : Params) (a n : Nat) (k : Chip) (d : Draws) :
    (chipFetchFrom c a n k d).1.length = n := by
  induction n generalizing a k d with
  | zero => rfl
  | succ n ih => simp [chipFetchFrom, ih]

/-- `rtc.ptr` inside the registers is the address advanced to (R44). -/
theorem pointerAt_toNat {a : Nat} (h : a < 256) (d : Draws) : (pointerAt a d).1.toNat = a := by
  simp [pointerAt, h, Byte.ofNat, Nat.mod_eq_of_lt h]

theorem chipAccept_ptr {c : Params} (p : Byte) (data : List Byte) {j : Nat} (hj : 0 < j)
    (hl : p.toNat + min (j - 1) data.length < 256) (k : Chip) (d : Draws) :
    (chipAccept c ((p :: data).take j) k d).1.ptr.toNat = p.toNat + min (j - 1) data.length := by
  cases j with
  | zero => omega
  | succ j =>
    simp only [Nat.add_sub_cancel] at hl
    simp only [List.take_succ_cons, chipAccept, List.length_take, Nat.add_sub_cancel]
    exact pointerAt_toNat hl _

/-! ### Ticks and flag changes -/

theorem chipStore_read? (a b : Nat) (x : Byte) (k : Chip) :
    (chipStore a x k).regs.read? b = if b = a then some x else k.regs.read? b := Memory.read?_write a b x k.regs

@[simp] theorem chipStore_ptr (a : Nat) (x : Byte) (k : Chip) : (chipStore a x k).ptr = k.ptr := rfl

/-- The three time registers after a tick, and every other register (R200). -/
theorem storeTime_read? (c : Params) (x y z : Byte) (k : Chip) (r : Nat) :
    (storeTime c x y z k).regs.read? r =
      if r = c.timeBase.toNat + 2 then some z
      else if r = c.timeBase.toNat + 1 then some y
      else if r = c.timeBase.toNat then some x
      else k.regs.read? r := by
  simp only [storeTime, chipStore_read?]

@[simp] theorem storeTime_ptr (c : Params) (x y z : Byte) (k : Chip) : (storeTime c x y z k).ptr = k.ptr := rfl

/-- A tick of a valid time (R200). -/
theorem chipTick_valid {c : Params} {k : Chip} {b0 b1 b2 : Byte} (h0 : k.regs.read? c.timeBase.toNat = some b0)
    (h1 : k.regs.read? (c.timeBase.toNat + 1) = some b1) (h2 : k.regs.read? (c.timeBase.toNat + 2) = some b2)
    (hv : validTod (unpackTime b0 b1 b2) = true) (d : Draws) :
    chipTick c k d =
      (storeTime c (keepFlags secondsMask b0 (nextSecond (unpackTime b0 b1 b2)).seconds)
        (keepFlags minutesMask b1 (nextSecond (unpackTime b0 b1 b2)).minutes)
        (keepFlags hoursMask b2 (nextSecond (unpackTime b0 b1 b2)).hours) k, d) := by
  simp [chipTick, h0, h1, h2, hv]

/-- A flag change of a register: its masked bits stay, no other register changes. -/
theorem flagRegister_read? (a r : Nat) (m f : Byte) (k : Chip) :
    (flagRegister a m f k).regs.read? r =
      if r = a then (k.regs.read? a).map fun b => (b &&& m) ||| f else k.regs.read? r := by
  unfold flagRegister
  split
  · rename_i b hb
    simp [chipStore_read?, hb]
  · rename_i hb
    by_cases h : r = a
    · subst h
      simp [hb]
    · simp [h]

@[simp] theorem flagRegister_ptr (a : Nat) (m f : Byte) (k : Chip) : (flagRegister a m f k).ptr = k.ptr := by
  unfold flagRegister
  split <;> rfl

/-- A flag change of the three time registers (R198, U24). -/
theorem chipSetFlags_read? (c : Params) (f : ChipFlags) (k : Chip) (r : Nat) :
    (chipSetFlags c f k).regs.read? r =
      if r = c.timeBase.toNat then
        (k.regs.read? r).map fun b => (b &&& secondsMask) ||| (f.seconds.setWidth 8 <<< 7)
      else if r = c.timeBase.toNat + 1 then
        (k.regs.read? r).map fun b => (b &&& minutesMask) ||| (f.minutes.setWidth 8 <<< 7)
      else if r = c.timeBase.toNat + 2 then
        (k.regs.read? r).map fun b => (b &&& hoursMask) ||| (f.hours.setWidth 8 <<< 6)
      else k.regs.read? r := by
  simp only [chipSetFlags, flagRegister_read?]
  by_cases h0 : r = c.timeBase.toNat
  · subst h0
    simp
  · by_cases h1 : r = c.timeBase.toNat + 1
    · subst h1
      simp
    · by_cases h2 : r = c.timeBase.toNat + 2
      · subst h2
        simp
      · simp [h0, h1, h2]

/-! ### Ticks inside a transaction (R199, R200): they touch the three time registers alone -/

/-- Register `r` is outside the three time registers. -/
def OutsideTime (c : Params) (r : Nat) : Prop := r < c.timeBase.toNat ∨ c.timeBase.toNat + 3 ≤ r

theorem storeTime_outside {c : Params} {r : Nat} (h : OutsideTime c r) (x y z : Byte) (k : Chip) :
    (storeTime c x y z k).regs.read? r = k.regs.read? r := by
  unfold OutsideTime at h
  rw [storeTime_read?, if_neg (by omega), if_neg (by omega), if_neg (by omega)]

theorem chipTick_outside {c : Params} {r : Nat} (h : OutsideTime c r) (k : Chip) (d : Draws) :
    (chipTick c k d).1.regs.read? r = k.regs.read? r := by
  unfold chipTick
  split
  · split
    · exact storeTime_outside h _ _ _ k
    · exact storeTime_outside h _ _ _ k
  · exact storeTime_outside h _ _ _ k

theorem ticksInside_outside {c : Params} {r : Nat} (h : OutsideTime c r) (k : Chip) (d : Draws) :
    (ticksInside c k d).1.regs.read? r = k.regs.read? r := by
  have key : ∀ n k d, (chipTicks c n k d).1.regs.read? r = k.regs.read? r := by
    intro n
    induction n with
    | zero =>
      intro k d
      rfl
    | succ n ih =>
      intro k d
      exact (ih _ _).trans (chipTick_outside h k d)
  unfold ticksInside
  split
  · rfl
  · exact key _ k _

/-- A register the chip's own time does not reach: always with `RTC_ATOMIC_READ`, and else outside the time registers. -/
theorem ticksInside_read? {c : Params} {r : Nat} (h : c.rtcAtomicRead = true ∨ OutsideTime c r) (k : Chip) (d : Draws) :
    (ticksInside c k d).1.regs.read? r = k.regs.read? r := by
  rcases h with h | h
  · rw [ticksInside_atomic h]
  · exact ticksInside_outside h k d

/-- The registers after the data bytes of a write, whatever ticks land inside it. -/
theorem chipStoreFrom_read? {c : Params} {r : Nat} (h : c.rtcAtomicRead = true ∨ OutsideTime c r) (a : Nat)
    (l : List Byte) (k : Chip) (d : Draws) :
    (chipStoreFrom c a l k d).1.regs.read? r =
      if a ≤ r ∧ r < a + l.length then l[r - a]? else k.regs.read? r := by
  induction l generalizing a k d with
  | nil =>
    rw [if_neg (by simp only [List.length_nil]; omega)]
    rfl
  | cons b bs ih =>
    simp only [chipStoreFrom, List.length_cons]
    rw [ih, chipStore_read?, ticksInside_read? h]
    by_cases h1 : a + 1 ≤ r ∧ r < a + 1 + bs.length
    · obtain ⟨e, rfl⟩ : ∃ e, r = a + 1 + e := ⟨r - (a + 1), by omega⟩
      rw [if_pos h1, if_pos (by omega), show a + 1 + e - (a + 1) = e from by omega,
        show a + 1 + e - a = e + 1 from by omega, List.getElem?_cons_succ]
    · rw [if_neg h1]
      by_cases h3 : r = a
      · subst h3
        simp
      · rw [if_neg h3, if_neg (by omega)]

/-- The registers after a prefix of a write (R191, R196): its data bytes, and every other register as it was. -/
theorem chipAccept_read? {c : Params} {a : Nat} (h : c.rtcAtomicRead = true ∨ OutsideTime c a) (p : Byte)
    (data : List Byte) (j : Nat) (k : Chip) (d : Draws) :
    (chipAccept c ((p :: data).take j) k d).1.regs.read? a =
      if p.toNat ≤ a ∧ a < p.toNat + min (j - 1) data.length then data[a - p.toNat]? else k.regs.read? a := by
  cases j with
  | zero =>
    rw [if_neg (by omega)]
    rfl
  | succ j =>
    simp only [List.take_succ_cons, chipAccept, chipStoreFrom_read? h, List.length_take, Nat.add_sub_cancel]
    split
    · rw [List.getElem?_take_of_lt (by omega)]
    · rfl

theorem chipFetchFrom_read? {c : Params} {r : Nat} (h : c.rtcAtomicRead = true ∨ OutsideTime c r) (a n : Nat) (k : Chip)
    (d : Draws) : (chipFetchFrom c a n k d).2.1.regs.read? r = k.regs.read? r := by
  induction n generalizing a k d with
  | zero => rfl
  | succ n ih => exact (ih _ _ _).trans (ticksInside_read? h k d)

/-- A register of the seven that holds a value is returned as it is, whatever ticks land inside the read. -/
theorem chipFetchFrom_value {c : Params} {a n j : Nat} (h : c.rtcAtomicRead = true ∨ OutsideTime c (a + j)) {k : Chip}
    {b : Byte} (hj : j < n) (h1 : c.timeBase.toNat ≤ a + j) (h2 : a + j ≤ c.timeBase.toNat + 6)
    (hb : k.regs.read? (a + j) = some b) (d : Draws) : (chipFetchFrom c a n k d).1[j]? = some b := by
  induction n generalizing a j k d with
  | zero => omega
  | succ n ih =>
    simp only [chipFetchFrom]
    cases j with
    | zero =>
      simp only [Nat.add_zero] at h h1 h2 hb
      rw [← ticksInside_read? h k d] at hb
      simp [chipRead, inTimeBlock, h1, h2, hb]
    | succ j =>
      rw [List.getElem?_cons_succ]
      rw [show a + (j + 1) = a + 1 + j from by omega] at h h1 h2 hb
      rw [← ticksInside_read? h k d] at hb
      exact ih h (by omega) h1 h2 hb _

/-! ### Transactions -/

theorem transmit_chipWf {p : Byte} {data : List Byte} {s : State} (h : ChipWf s.chip)
    (hc : s.cfg.timeBase.toNat + 6 ≤ 255) (hl : p.toNat + data.length ≤ 256) :
    ChipWf (transmit (p :: data) s).chip := h.accept hc hl _ _

theorem transceive_chipWf {s : State} (h : ChipWf s.chip) (hc : s.cfg.timeBase.toNat + 6 ≤ 255) (w : Byte) (n : Nat) :
    ChipWf (transceive w n s).chip := by
  unfold transceive
  split
  · exact (h.fetchFrom hc _ _ _).ptr _
  · exact h.ptr _

@[simp] theorem transmit_busStatus (l : List Byte) (s : State) :
    (transmit l s).i2c.busStatus = (drawStatus s.draws).1 := rfl
@[simp] theorem transmit_bus (l : List Byte) (s : State) :
    (transmit l s).bus = s.bus ++ [.write l (drawStatus s.draws).1] := rfl
@[simp] theorem writeTime_busStatus (t : TimeFields) (s : State) :
    (writeTime t s).i2c.busStatus = (drawStatus s.draws).1 := rfl
@[simp] theorem writeTime_bus (t : TimeFields) (s : State) :
    (writeTime t s).bus = s.bus ++ [.write (clockFrame s.cfg t) (drawStatus s.draws).1] := rfl

@[simp] theorem transceive_busStatus (w : Byte) (n : Nat) (s : State) :
    (transceive w n s).i2c.busStatus = (drawStatus s.draws).1 := by
  unfold transceive
  split
  · rename_i h
    simp [transceiveOk, h]
  · rfl

@[simp] theorem transceive_rxbuf_length (w : Byte) (n : Nat) (s : State) :
    (transceive w n s).i2c.rxbuf.length = n := by
  unfold transceive
  split
  · simp [transceiveOk]
  · simp [transceiveFailed]

theorem transceive_bus (w : Byte) (n : Nat) (s : State) :
    (transceive w n s).bus = s.bus ++ [.writeRead [w] n (drawStatus s.draws).1
      (if (drawStatus s.draws).1 = .ok then some (transceive w n s).i2c.rxbuf else none)] := by
  unfold transceive
  split
  · rename_i h
    simp [transceiveOk, h]
  · simp [transceiveFailed]

/-- A read that nothing ticks inside, and a read that failed, leave the registers as they are. -/
theorem transceive_regs {s : State} (h : s.cfg.rtcAtomicRead = true ∨ (drawStatus s.draws).1 ≠ .ok) (w : Byte) (n : Nat) :
    (transceive w n s).chip.regs = s.chip.regs := by
  unfold transceive
  split
  · rename_i ho
    rcases h with h | h
    · show (chipFetchFrom s.cfg w.toNat n s.chip _).2.1.regs = _
      rw [chipFetchFrom_atomic h]
    · exact absurd ho h
  · rfl

theorem transceive_read? {s : State} {r : Nat} (h : s.cfg.rtcAtomicRead = true ∨ OutsideTime s.cfg r) (w : Byte)
    (n : Nat) : (transceive w n s).chip.regs.read? r = s.chip.regs.read? r := by
  unfold transceive
  split
  · exact chipFetchFrom_read? h _ _ _ _
  · rfl

theorem transceive_value {s : State} {w : Byte} {n j : Nat} {b : Byte}
    (h : s.cfg.rtcAtomicRead = true ∨ OutsideTime s.cfg (w.toNat + j)) (ho : (drawStatus s.draws).1 = .ok) (hj : j < n)
    (h1 : s.cfg.timeBase.toNat ≤ w.toNat + j) (h2 : w.toNat + j ≤ s.cfg.timeBase.toNat + 6)
    (hb : s.chip.regs.read? (w.toNat + j) = some b) : (transceive w n s).i2c.rxbuf[j]? = some b := by
  rw [transceive, if_pos ho]
  exact chipFetchFrom_value h hj h1 h2 hb _

theorem transceive_ptr_ok {s : State} {w : Byte} {n : Nat} (ho : (drawStatus s.draws).1 = .ok)
    (hl : w.toNat + n < 256) : (transceive w n s).chip.ptr.toNat = w.toNat + n := by
  rw [transceive, if_pos ho]
  exact pointerAt_toNat hl _

theorem transceive_ptr_failed {s : State} {w : Byte} {n : Nat} (ho : (drawStatus s.draws).1 ≠ .ok) :
    (transceive w n s).chip.ptr = s.chip.ptr ∨ 256 ≤ w.toNat + n ∨
      ∃ k, k ≤ n ∧ (transceive w n s).chip.ptr.toNat = w.toNat + k := by
  rw [transceive, if_neg ho]
  simp only [transceiveFailed, pointerAfterFailedRead]
  split
  · exact .inl rfl
  · rename_i h
    have hlt := drawBelow_lt (show 0 < n + 2 by omega) (drawStatus s.draws).2
    by_cases hb : 256 ≤ w.toNat + n
    · exact .inr (.inl hb)
    · refine .inr (.inr ⟨(drawBelow (n + 2) (drawStatus s.draws).2).1 - 1, by omega, ?_⟩)
      exact pointerAt_toNat (by omega) _

end Sys2Proof.Machine
end

