-- ==== Sys2Proof/Laws/Consumer.lean ====
section
/-! SUPPORT. Inversion lemmas of the sequencers, the environment and the schedule: everything each can do if it answers. -/
namespace Sys2Proof.Machine

/-! ### The five steps (R242 to R246) -/

/-- `S1_POP` holds over an empty FIFO, and else puts the oldest queued block on loan. -/
theorem stepPop_eq_next {s t : State} (h : stepPop s = .next t) :
    s.fifo.ready = true ∧
      ((emptySeen s.cfg s.fifo = true ∧ t = { s with result := .hold }) ∨
        (emptySeen s.cfg s.fifo = false ∧ t = { s with
          fifo := popBlock s.cfg s.fifo
          cons := { s.cons with curHandle := nextHandle s.cfg s.fifo, curValid := true, cstep := .s2Clock }
          result := .done })) := by
  unfold stepPop at h
  split at h
  · cases h
  · rename_i hr
    refine ⟨by simpa using hr, ?_⟩
    split at h
    · rename_i he
      exact .inl ⟨he, by cases h; rfl⟩
    · rename_i he
      exact .inr ⟨by simpa using he, by cases h; rfl⟩

/-- What `S2_CLOCK` makes of a transaction that ended (R243). -/
theorem finishClock_cases (s : State) :
    (s.i2c.busStatus = .ok ∧ finishClock s = { s with
      cons := { s.cons with todLast := unpackBytes s.i2c.rxbuf, timeValid := true, cstep := .s3Parse }
      result := .done }) ∨
    (s.i2c.busStatus ≠ .ok ∧ ∃ c, (c = if s.i2c.busStatus = .timeout then .busTimeout else .busError) ∧
      finishClock s = { s with
        cons := { s.cons with timeValid := false, busErrCnt := s.cons.busErrCnt + 1, cstep := .s3Parse }
        exc := s.exc ++ [c]
        result := .raised c }) := by
  unfold finishClock
  split
  · rename_i h
    exact .inl ⟨h, rfl⟩
  · rename_i h
    exact .inr ⟨by simp [h], .busTimeout, by simp [h], rfl⟩
  · rename_i h
    exact .inr ⟨by simp [h], .busError, by simp [h], rfl⟩

theorem stepClock_eq_next {s t : State} (h : stepClock s = .next t) :
    readRefusal s.cfg.timeBase Config.readLen s = none ∧
      t = finishClock (transceive s.cfg.timeBase Config.readLen s) := by
  obtain ⟨h1, h2⟩ := orRefuse_eq_next.1 h
  exact ⟨h1, h2.symm⟩

theorem stepParse_eq_next {s t : State} (h : stepParse s = .next t) :
    ∃ u, parseRecord s.cons.curHandle s = .next u ∧
      t = { u with cons := { u.cons with cstep := .s4Sample }, result := .done } := by
  obtain ⟨u, hu, h2⟩ := andThen_eq_next.1 h
  exact ⟨u, hu, by cases h2; rfl⟩

/-- `S4_SAMPLE` counts, and logs where the count is due. -/
theorem stepSample_eq_next {s t : State} (h : stepSample s = .next t) :
    (sampleDue s.cfg (s.cons.capCnt + 1) = false ∧ t = { s with
      cons := { s.cons with capCnt := s.cons.capCnt + 1, cstep := .s5Release }
      result := .done }) ∨
    (sampleDue s.cfg (s.cons.capCnt + 1) = true ∧ ∃ m, readSlot s.cons.curHandle 0 s.cfg.metaBytes s = .next m ∧
      t = { s with
        cons := { s.cons with capCnt := s.cons.capCnt + 1, cstep := .s5Release }
        log := s.log ++ [sampleEvent m s]
        result := .done }) := by
  unfold stepSample at h
  dsimp only at h
  split at h
  · rename_i hd
    obtain ⟨m, hm, h2⟩ := andThen_eq_next.1 h
    exact .inr ⟨hd, m, hm, by cases h2; rfl⟩
  · rename_i hd
    exact .inl ⟨by simpa using hd, by cases h; rfl⟩

/-- Why a release is not refused. -/
theorem releaseRefusal_none {c : Params} {h : Nat} {f : Fifo} :
    releaseRefusal c h f = none ↔ f.ready = true ∧ loanedBlocks f ≠ 0 ∧ h = f.fr % depth c := by
  unfold releaseRefusal
  split
  · simp_all
  · split
    · simp_all
    · split <;> simp_all

theorem stepRelease_eq_next {s t : State} (h : stepRelease s = .next t) :
    s.fifo.ready = true ∧ loanedBlocks s.fifo ≠ 0 ∧ s.cons.curHandle = s.fifo.fr % depth s.cfg ∧
      t = { s with
        fifo := releaseBlock s.cfg s.fifo
        cons := { s.cons with curValid := false, cstep := .s1Pop }
        result := .done } := by
  obtain ⟨h1, h2⟩ := orRefuse_eq_next.1 h
  obtain ⟨a, b, c⟩ := releaseRefusal_none.1 h1
  exact ⟨a, b, c, h2.symm⟩

/-- The consumer's step is the step `cstep` names, in RUNNING only. -/
theorem consumerStep_eq_next {s t : State} (h : consumerStep s = .next t) :
    s.cons.cstate = .running ∧
      ((s.cons.cstep = .s1Pop ∧ stepPop s = .next t) ∨ (s.cons.cstep = .s2Clock ∧ stepClock s = .next t) ∨
        (s.cons.cstep = .s3Parse ∧ stepParse s = .next t) ∨ (s.cons.cstep = .s4Sample ∧ stepSample s = .next t) ∨
        (s.cons.cstep = .s5Release ∧ stepRelease s = .next t)) := by
  unfold consumerStep at h
  split at h
  · cases h
  · rename_i hr
    refine ⟨by simpa using hr, ?_⟩
    split at h <;> simp_all

/-! ### Induction over a pass (R247) -/

/-- A property that the consumer's step and the environment's turn keep holds after a pass. -/
theorem consCycle_induct {P : State → Prop} (hstep : ∀ s t, P s → consumerStep s = .next t → P t)
    (henv : ∀ s, P s → P (betweenSteps s)) {s t : State} (hs : P s) (h : execConsCycle s = .next t) : P t := by
  obtain ⟨_, h⟩ := requireAgent_eq_next.1 h
  split at h
  · cases h
  · split at h
    · cases h
    · obtain ⟨s1, h1, h⟩ := andThen_eq_next.1 h
      have p1 := hstep _ _ hs h1
      split at h
      · cases h
        exact p1
      · obtain ⟨s2, h2, h⟩ := andThen_eq_next.1 h
        have p2 := hstep _ _ (henv _ p1) h2
        obtain ⟨s3, h3, h⟩ := andThen_eq_next.1 h
        have p3 := hstep _ _ (henv _ p2) h3
        obtain ⟨s4, h4, h⟩ := andThen_eq_next.1 h
        have p4 := hstep _ _ (henv _ p3) h4
        exact hstep _ _ (henv _ p4) h

/-! ### Start-up (R190, R241) -/

theorem openBus_cases (s : State) :
    ((drawBelow 2 s.draws).1 = 0 ∧ openBus s = { s with
      draws := (drawBelow 2 s.draws).2, i2c := { s.i2c with busOpen := true } }) ∨
    ((drawBelow 2 s.draws).1 ≠ 0 ∧ openBus s = { s with
      draws := (drawBelow 2 s.draws).2
      cons := { s.cons with cstate := .fatal }
      exc := s.exc ++ [.busInit] }) := by
  unfold openBus
  split
  · rename_i h
    exact .inl ⟨h, rfl⟩
  · rename_i h
    exact .inr ⟨h, rfl⟩

theorem finishInit_cases (s : State) :
    (s.i2c.busStatus = .ok ∧ finishInit s = { s with
      cons := { s.cons with todLast := s.cfg.seedTod, cstate := .running, cstep := .s1Pop }
      log := s.log ++ [.seed s.cfg.seedTod]
      result := .done }) ∨
    (s.i2c.busStatus ≠ .ok ∧ finishInit s = { s with
      cons := { s.cons with cstate := .fatal }
      exc := s.exc ++ [.seedWrite]
      result := .raised .seedWrite }) := by
  unfold finishInit
  split
  · rename_i h
    exact .inl ⟨h, rfl⟩
  · rename_i h
    exact .inr ⟨h, rfl⟩

theorem execConsInit_eq_next {s t : State} (h : execConsInit s = .next t) :
    s.agent = some .cons ∧ s.cons.cstate = .init ∧ s.i2c.busOpen = false ∧ seedRefusal s.cfg = none ∧
      t = startConsumer s := by
  obtain ⟨h0, h⟩ := requireAgent_eq_next.1 h
  split at h
  · cases h
  · split at h
    · cases h
    · rename_i h1 h2
      obtain ⟨h3, h4⟩ := orRefuse_eq_next.1 h
      exact ⟨h0, by simpa using h1, by simpa using h2, h3, h4.symm⟩

/-- Legal parameters never refuse the seed write (R312). -/
theorem seedRefusal_legal {c : Params} (h : LegalParams c) : seedRefusal c = none := by
  obtain ⟨_, _, _, _, h5, h6⟩ := h
  unfold seedRefusal
  rw [if_neg (by simp [h5]), if_neg (by omega)]

/-! ### The producer's callback and the environment -/

theorem pushOrDrop_cases (b : List Byte) (s : State) :
    (fullSeen s.cfg s.fifo = true ∧ pushOrDrop b s = { s with exc := s.exc ++ [.fifoFull], dropCnt := s.dropCnt + 1 }) ∨
    (fullSeen s.cfg s.fifo = false ∧ pushOrDrop b s = { s with fifo := pushBlock s.cfg b s.fifo }) := by
  unfold pushOrDrop
  split
  · rename_i h
    exact .inl ⟨h, rfl⟩
  · rename_i h
    exact .inr ⟨by simpa using h, rfl⟩

/-- The callback does nothing, counts a drop or pushes one whole block (R240). -/
theorem onFrame_cases (p : Option Nat) (s : State) :
    ((s.fifo.ready = false ∨ p = none) ∧ onFrame p s = s) ∨
    (s.fifo.ready = true ∧ ∃ (a : Nat) (b : List Byte) (d : Draws), p = some a ∧ b.length = s.cfg.recBytes ∧
      (b, d) = readHwbuf s.hwbuf a s.cfg.recBytes s.draws ∧
      ((fullSeen s.cfg s.fifo = true ∧
          onFrame p s = { s with exc := s.exc ++ [.fifoFull], dropCnt := s.dropCnt + 1, draws := d }) ∨
        (fullSeen s.cfg s.fifo = false ∧
          onFrame p s = { s with fifo := pushBlock s.cfg b s.fifo, draws := d }))) := by
  cases p with
  | none => exact .inl ⟨.inr rfl, rfl⟩
  | some a =>
    unfold onFrame
    dsimp only
    split
    · rename_i h
      exact .inl ⟨.inl h, rfl⟩
    · rename_i h
      refine .inr ⟨by simpa using h, a, (readHwbuf s.hwbuf a s.cfg.recBytes s.draws).1,
        (readHwbuf s.hwbuf a s.cfg.recBytes s.draws).2, rfl, by simp, rfl, ?_⟩
      rcases pushOrDrop_cases (readHwbuf s.hwbuf a s.cfg.recBytes s.draws).1
        { s with draws := (readHwbuf s.hwbuf a s.cfg.recBytes s.draws).2 } with ⟨h1, h2⟩ | ⟨h1, h2⟩
      · exact .inl ⟨h1, h2⟩
      · exact .inr ⟨h1, h2⟩

/-- A property that environment steps keep, and that no draw or waiting event can change, holds after the environment's
turn. No reset lands in it. -/
theorem betweenSteps_induct {P : State → Prop} (hev : ∀ k s, k ≠ .reset → P s → P (runEvent k s))
    (hd : ∀ s d, P s → P { s with draws := d }) (he : ∀ s es, P s → P { s with events := es }) {s : State} (hs : P s) :
    P (betweenSteps s) := by
  have key : ∀ es s, P s → P (deliverDue es s) := by
    intro es
    induction es with
    | nil =>
      intro s hs
      exact he s [] hs
    | cons e es ih =>
      intro s hs
      unfold deliverDue
      split
      · rename_i h
        exact ih _ (hd _ _ (hev _ _ h.2 (hd _ _ hs)))
      · exact he _ _ hs
  exact key s.events s hs

/-! ### The schedule -/

theorem dueEvent_none {es : List Event} (h : ∀ e ∈ es.head?, e.wait ≠ 0) : dueEvent es = none := by
  cases es with
  | nil => rfl
  | cons e es => simp [dueEvent, h e (by simp)]

/-- The line that passes the waiting ones is another agent's. -/
theorem nextOfOthers_agent {ls r : List Line} {l : Line} (h : nextOfOthers ls = some (l, r)) : l.agent ≠ .cons := by
  induction ls generalizing r with
  | nil => cases h
  | cons x xs ih =>
    unfold nextOfOthers at h
    split at h
    · obtain ⟨y, hy, he⟩ := Option.map_eq_some_iff.1 h
      cases he
      exact ih hy
    · rename_i hx
      cases h
      exact hx

/-- The consumer's lines before the first one of another agent keep their place. -/
theorem nextOfOthers_append {pre post : List Line} {l : Line} (h : ∀ x ∈ pre, x.agent = .cons) (hl : l.agent ≠ .cons) :
    nextOfOthers (pre ++ l :: post) = some (l, pre ++ post) := by
  induction pre with
  | nil => simp [nextOfOthers, hl]
  | cons x xs ih =>
    rw [List.cons_append, nextOfOthers, if_pos (h x (by simp)), ih fun y hy => h y (by simp [hy])]
    rfl

/-- Where every line is the consumer's, no other agent has one. -/
theorem nextOfOthers_none {ls : List Line} (h : ∀ x ∈ ls, x.agent = .cons) : nextOfOthers ls = none := by
  induction ls with
  | nil => rfl
  | cons x xs ih => rw [nextOfOthers, if_pos (h x (by simp)), ih fun y hy => h y (by simp [hy])]; rfl

@[simp] theorem leaveAs_cfg (a : Agent) (i : Instr) (s t : State) : (leaveAs a i s t).cfg = t.cfg := rfl
@[simp] theorem leaveAs_fifo (a : Agent) (i : Instr) (s t : State) : (leaveAs a i s t).fifo = t.fifo := rfl
@[simp] theorem leaveAs_dropCnt (a : Agent) (i : Instr) (s t : State) : (leaveAs a i s t).dropCnt = t.dropCnt := rfl
@[simp] theorem leaveAs_cons (a : Agent) (i : Instr) (s t : State) : (leaveAs a i s t).cons = t.cons := rfl
@[simp] theorem leaveAs_i2c (a : Agent) (i : Instr) (s t : State) : (leaveAs a i s t).i2c = t.i2c := rfl
@[simp] theorem leaveAs_chip (a : Agent) (i : Instr) (s t : State) : (leaveAs a i s t).chip = t.chip := rfl
@[simp] theorem leaveAs_hwbuf (a : Agent) (i : Instr) (s t : State) : (leaveAs a i s t).hwbuf = t.hwbuf := rfl
@[simp] theorem leaveAs_log (a : Agent) (i : Instr) (s t : State) : (leaveAs a i s t).log = t.log := rfl
@[simp] theorem leaveAs_bus (a : Agent) (i : Instr) (s t : State) : (leaveAs a i s t).bus = t.bus := rfl
@[simp] theorem leaveAs_exc (a : Agent) (i : Instr) (s t : State) : (leaveAs a i s t).exc = t.exc := rfl
@[simp] theorem leaveAs_result (a : Agent) (i : Instr) (s t : State) : (leaveAs a i s t).result = t.result := rfl
@[simp] theorem leaveAs_draws (a : Agent) (i : Instr) (s t : State) : (leaveAs a i s t).draws = t.draws := rfl
@[simp] theorem leaveAs_sched (a : Agent) (i : Instr) (s t : State) : (leaveAs a i s t).sched = t.sched := rfl
@[simp] theorem leaveAs_events (a : Agent) (i : Instr) (s t : State) : (leaveAs a i s t).events = t.events := rfl
@[simp] theorem enterAs_cfg (a : Agent) (l : List Nat) (s : State) : (enterAs a l s).cfg = s.cfg := rfl
@[simp] theorem enterAs_held (a : Agent) (l : List Nat) (s : State) : (enterAs a l s).held = s.held := rfl
@[simp] theorem enterAs_fifo (a : Agent) (l : List Nat) (s : State) : (enterAs a l s).fifo = s.fifo := rfl
@[simp] theorem enterAs_dropCnt (a : Agent) (l : List Nat) (s : State) : (enterAs a l s).dropCnt = s.dropCnt := rfl
@[simp] theorem enterAs_cons (a : Agent) (l : List Nat) (s : State) : (enterAs a l s).cons = s.cons := rfl
@[simp] theorem enterAs_i2c (a : Agent) (l : List Nat) (s : State) : (enterAs a l s).i2c = s.i2c := rfl
@[simp] theorem enterAs_chip (a : Agent) (l : List Nat) (s : State) : (enterAs a l s).chip = s.chip := rfl
@[simp] theorem enterAs_hwbuf (a : Agent) (l : List Nat) (s : State) : (enterAs a l s).hwbuf = s.hwbuf := rfl
@[simp] theorem enterAs_log (a : Agent) (l : List Nat) (s : State) : (enterAs a l s).log = s.log := rfl
@[simp] theorem enterAs_bus (a : Agent) (l : List Nat) (s : State) : (enterAs a l s).bus = s.bus := rfl
@[simp] theorem enterAs_exc (a : Agent) (l : List Nat) (s : State) : (enterAs a l s).exc = s.exc := rfl
@[simp] theorem enterAs_result (a : Agent) (l : List Nat) (s : State) : (enterAs a l s).result = s.result := rfl
@[simp] theorem enterAs_sched (a : Agent) (l : List Nat) (s : State) : (enterAs a l s).sched = s.sched := rfl
@[simp] theorem enterAs_events (a : Agent) (l : List Nat) (s : State) : (enterAs a l s).events = s.events := rfl
@[simp] theorem enterAs_agent (a : Agent) (l : List Nat) (s : State) : (enterAs a l s).agent = some a := rfl

/-- A step of one agent: the instruction, and then which context is in force and whether the task context is held. -/
theorem runAs_eq_next {a : Agent} {ds : List Nat} {i : Instr} {s t : State} :
    runAs a ds i s = .next t ↔ ∃ u, exec i (enterAs a ds s) = .next u ∧ t = leaveAs a i s u := by
  unfold runAs
  rw [andThen_eq_next]
  simp only [Host.Outcome.next.injEq, eq_comm]

theorem runLine_eq_next {l : Line} {s t : State} (h : runLine l s = .next t) :
    ∃ i r, decode (lineBytes l) = .ok (i, r) ∧ runAs l.agent l.draws i s = .next t := by
  unfold runLine at h
  split at h
  · rename_i i r hd
    exact ⟨i, r, hd, h⟩
  · cases h

/-- Everything a step of the machine can do: a due environment step; one instruction as a step of one agent; nothing but
the passing of a step. While the task context is held it takes no instruction but the held operation again. -/
theorem runStep_cases {s t : State} (h : runStep s = .next t) :
    (∃ e es, s.events = e :: es ∧ e.wait = 0 ∧ t = deliver e { s with events := es }) ∨
    (dueEvent s.events = none ∧ ∃ a ds i ls,
      runAs a ds i { s with events := countDown s.events, sched := ls } = .next t ∧
      (a = .cons → ∀ x, s.held = some x → continuesHeld x i = true)) ∨
    (dueEvent s.events = none ∧ t = { s with events := countDown s.events }) := by
  unfold runStep at h
  split at h
  · rename_i e es he
    cases h
    refine .inl ⟨e, es, ?_⟩
    unfold dueEvent at he
    split at he
    · cases he
    · rename_i hs
      split at he
      · rename_i hw
        cases he
        exact ⟨hs, hw, rfl⟩
      · cases he
  · rename_i hd
    have hself : ∀ x : Hold, continuesHeld x x.instr = true := by
      intro x
      cases x <;> simp [continuesHeld, Hold.instr, holdOf]
    have hres : ∀ {x}, s.held = some x → resume x { s with events := countDown s.events } = .next t →
        ∃ a ds i ls, runAs a ds i { s with events := countDown s.events, sched := ls } = .next t ∧
          (a = .cons → ∀ x, s.held = some x → continuesHeld x i = true) := fun {x} hx hr =>
      ⟨.cons, [], x.instr, s.sched, hr, fun _ y hy => by rw [hx] at hy; cases hy; exact hself x⟩
    unfold runBlock at h
    split at h
    · rename_i hh
      have hh : s.held = none := hh
      unfold runFree at h
      split at h
      · obtain ⟨i, r, _, hr⟩ := runLine_eq_next h
        exact .inr (.inl ⟨hd, _, _, i, _, hr, fun _ x hx => by rw [hh] at hx; cases hx⟩)
      · split at h
        · exact .inr (.inl ⟨hd, .cons, [], .consStep, s.sched, h, fun _ x hx => by rw [hh] at hx; cases hx⟩)
        · cases h
          exact .inr (.inr ⟨hd, rfl⟩)
    · rename_i x hh
      have hh : s.held = some x := hh
      split at h
      · exact .inr (.inl ⟨hd, hres hh h⟩)
      · split at h
        · rename_i hc
          obtain ⟨i, r, hi, hr⟩ := runLine_eq_next h
          refine .inr (.inl ⟨hd, _, _, i, _, hr, fun ha y hy => ?_⟩)
          rw [hh] at hy
          cases hy
          rcases hc with hc | hc
          · exact absurd ha hc
          · simpa [lineContinues, hi] using hc
        · unfold runHeld at h
          split at h
          · split at h
            · rename_i hn
              obtain ⟨i, r, hi, hr⟩ := runLine_eq_next h
              refine .inr (.inl ⟨hd, _, _, i, _, hr, fun ha => absurd ha (nextOfOthers_agent hn)⟩)
            · exact .inr (.inl ⟨hd, hres hh h⟩)
          · exact .inr (.inl ⟨hd, hres hh h⟩)

/-- A property that environment steps and every instruction keep, and that the schedule, the draws, the waiting events,
the context in force and what it is held at cannot change, is kept by every step of the machine. -/
theorem runStep_induct {P : State → Prop} (hev : ∀ k s, P s → P (runEvent k s))
    (hex : ∀ i s t, P s → exec i s = .next t → P t) (hd : ∀ s d, P s → P { s with draws := d })
    (he : ∀ s es, P s → P { s with events := es }) (hl : ∀ s ls, P s → P { s with sched := ls })
    (ha : ∀ s a, P s → P { s with agent := a }) (hh : ∀ s x, P s → P { s with held := x }) {s t : State} (hs : P s)
    (h : runStep s = .next t) : P t := by
  rcases runStep_cases h with ⟨e, es, _, _, rfl⟩ | ⟨_, a, ds, i, ls, hr, _⟩ | ⟨_, rfl⟩
  · exact hd _ _ (hev _ _ (hd _ _ (he _ _ hs)))
  · obtain ⟨u, hu, rfl⟩ := runAs_eq_next.1 hr
    have hin : P (enterAs a ds { s with events := countDown s.events, sched := ls }) :=
      ha _ (some a) (hd _ { s.draws with script := ds } (hl _ ls (he _ (countDown s.events) hs)))
    exact hh _ (leaveAs a i _ u).held (ha _ (leaveAs a i _ u).agent (hex _ _ _ hin hu))
  · exact he _ _ hs

end Sys2Proof.Machine
end

