-- ==== Sys2Proof/Laws/Decode.lean ====
section
/-! SUPPORT. The decoder's laws: codes and operations correspond one to one, each operand reads back what was written. -/
namespace Sys2Proof

/-- Every operation's code stands for it. -/
@[simp] theorem Opcode.ofCode_code (o : Opcode) : Opcode.ofCode o.code = some o := by
  cases o <;> decide

/-- A code that stands for an operation is that operation's. -/
theorem Opcode.code_of_ofCode {c : Byte} {o : Opcode} (h : Opcode.ofCode c = some o) : o.code = c := by
  have := List.find?_some h
  simpa using this

/-- The decoder on an operation's code. -/
@[simp] theorem decode_code (o : Opcode) (bs : List Byte) : decode (o.code :: bs) = decodeOperands o bs := by
  simp [decode]

theorem Operand.decNat_encNat {n : Nat} (h : n < Instr.natLimit) (r : List Byte) :
    Operand.decNat (Operand.encNat n ++ r) = some (n, r) := by
  simp only [Instr.natLimit] at h
  simp only [Operand.encNat, List.cons_append, List.nil_append, Operand.decNat, BitVec.toNat_ofNat, Option.some.injEq,
    Prod.mk.injEq, and_true]
  omega

theorem Operand.decList_encList {l : List Byte} (h : l.length < Instr.natLimit) (r : List Byte) :
    Operand.decList (Operand.encList l ++ r) = some (l, r) := by
  simp [Operand.decList, Operand.encList, Operand.decNat_encNat h]

theorem Operand.decTod_encTod {t : TimeFields} (h : Instr.todFits t = true) (r : List Byte) :
    Operand.decTod (Operand.encTod t ++ r) = some (t, r) := by
  obtain ⟨a, b, c⟩ := t
  simp only [Instr.todFits, Bool.and_eq_true, decide_eq_true_eq] at h
  simp only [Operand.encTod, List.cons_append, List.nil_append, Operand.decTod, BitVec.toNat_ofNat, Option.some.injEq,
    Prod.mk.injEq, and_true, TimeFields.mk.injEq]
  omega

/-- A 16-bit word is its high byte and its low byte. -/
theorem halfWord_of_bytes (w : HalfWord) : w.extractLsb' 8 8 ++ w.extractLsb' 0 8 = w := by
  apply BitVec.eq_of_getLsbD_eq
  intro i hi
  rw [BitVec.getLsbD_append]
  by_cases hlt : i < 8
  · simp [hlt]
  · have h1 : 8 + (i - 8) = i := by omega
    have h2 : i - 8 < 8 := by omega
    simp [hlt, h1, h2]

theorem decodeNat_encNat (c : Byte) (mk : Nat → Instr) {n : Nat} (h : Instr.natFits n = true) (r : List Byte) :
    decodeNat c mk (Operand.encNat n ++ r) = .ok (mk n, r) := by
  simp [decodeNat, Operand.decNat_encNat (of_decide_eq_true h)]

theorem decodeList_encList (c : Byte) (mk : List Byte → Instr) {l : List Byte} (h : Instr.natFits l.length = true)
    (r : List Byte) : decodeList c mk (Operand.encList l ++ r) = .ok (mk l, r) := by
  simp [decodeList, Operand.decList_encList (of_decide_eq_true h)]

theorem decodeTod_encTod (c : Byte) (mk : TimeFields → Instr) {t : TimeFields} (h : Instr.todFits t = true)
    (r : List Byte) : decodeTod c mk (Operand.encTod t ++ r) = .ok (mk t, r) := by
  simp [decodeTod, Operand.decTod_encTod h]

end Sys2Proof
end

