-- ==== Sys2Proof/Laws/Fifo.lean ====
section
/-! SUPPORT. The FIFO unit's laws: slots do not overlap, the loan test, what each operation does to the counts (R24, R149)
and to the blocks held (R144). -/
namespace Sys2Proof.Machine

/-- The memories after reset are in canonical form: nothing is listed. -/
theorem State.reset_memories : State.reset.fifo.slots.wf ∧ State.reset.chip.regs.wf ∧ State.reset.hwbuf.wf := by decide

/-! ### Arithmetic of slots -/

/-- Two block numbers less than a FIFO's depth apart have two slots. -/
theorem mod_ne_of_lt {D n m : Nat} (h : n < m) (hm : m < n + D) : n % D ≠ m % D := by
  intro e
  have hn := Nat.div_add_mod n D
  have hm' := Nat.div_add_mod m D
  by_cases hq : m / D ≤ n / D
  · have := Nat.mul_le_mul_left D hq
    omega
  · have := Nat.mul_le_mul_left D (show n / D + 1 ≤ m / D from by omega)
    rw [Nat.mul_add] at this
    omega

/-- Two slots have no byte in common. -/
theorem slot_disjoint {i j R k : Nat} (h : i ≠ j) (hk : k < R) : i * R + k < j * R ∨ j * R + R ≤ i * R + k := by
  rcases Nat.lt_or_gt_of_ne h with h | h
  · have := Nat.mul_le_mul_right R (show i + 1 ≤ j from h)
    rw [Nat.add_mul] at this
    omega
  · have := Nat.mul_le_mul_right R (show j + 1 ≤ i from h)
    rw [Nat.add_mul] at this
    omega

/-- A slot lies in the space. -/
theorem slot_inside {i D R k : Nat} (h : i < D) (hk : k < R) : i * R + k < D * R := by
  have := Nat.mul_le_mul_right R (show i + 1 ≤ D from h)
  rw [Nat.add_mul] at this
  omega

theorem mod_double_mod (n D : Nat) : n % (2 * D) % D = n % D := Nat.mod_mod_of_dvd n ⟨2, Nat.mul_comm 2 D⟩

/-- The pointer after the pointer of a count is the pointer of the next count (R23). -/
theorem nextPointer_mod (c : Params) (n : Nat) : nextPointer c (n % (2 * depth c)) = (n + 1) % (2 * depth c) :=
  Nat.mod_add_mod n (2 * depth c) 1

/-- The distance from a slot to another, counted upward around the FIFO. -/
theorem slot_distance {D r h : Nat} (hr : r < D) (hh : h < D) :
    (h + D - r) % D = if r ≤ h then h - r else h + D - r := by
  split
  · rw [show h + D - r = h - r + D from by omega, Nat.add_mod_right, Nat.mod_eq_of_lt (by omega)]
  · rw [Nat.mod_eq_of_lt (by omega)]

/-! ### The views -/

theorem FifoCounts.releasedView_le {c : Params} {f : Fifo} (h : FifoCounts c f) : releasedView c f ≤ f.released := by
  unfold releasedView
  split
  · exact Nat.le_refl _
  · exact h.frViewLe

theorem FifoCounts.pushedView_le {c : Params} {f : Fifo} (h : FifoCounts c f) : pushedView c f ≤ f.pushed := by
  unfold pushedView
  split
  · exact Nat.le_refl _
  · exact h.wrViewLe

theorem fullSeen_iff (c : Params) (f : Fifo) : fullSeen c f = true ↔ f.pushed - releasedView c f = depth c := by
  simp [fullSeen]

theorem emptySeen_iff (c : Params) (f : Fifo) : emptySeen c f = true ↔ pushedView c f - f.popped = 0 := by
  simp [emptySeen]

/-- A FIFO that its producer does not see full has a free slot. -/
theorem FifoCounts.free_of_not_full {c : Params} {f : Fifo} (h : FifoCounts c f) (hf : fullSeen c f = false) :
    f.pushed < releasedView c f + depth c := by
  have h1 := h.wrLeView
  have h2 : ¬ f.pushed - releasedView c f = depth c := by simpa [fullSeen] using hf
  omega

/-- A FIFO that its consumer does not see empty has a queued block. -/
theorem popped_lt_of_not_empty {c : Params} {f : Fifo} (hf : emptySeen c f = false) : f.popped < pushedView c f := by
  have h2 : ¬ pushedView c f - f.popped = 0 := by simpa [emptySeen] using hf
  omega

/-! ### The loan test -/

/-- A slot is on loan exactly when a block popped and not released lies in it (R89). -/
theorem FifoCounts.onLoan_iff {c : Params} {f : Fifo} (h : FifoCounts c f) (hr : f.ready = true) (hd : 1 ≤ depth c)
    (i : Nat) : onLoan c f i = true ↔ ∃ n, f.released ≤ n ∧ n < f.popped ∧ i = n % depth c := by
  have h1 := h.frLeRd
  have h2 := h.rdLeWr
  have h3 := h.wrLeDepth
  have hR : f.fr % depth c = f.released % depth c := by rw [h.frCount, mod_double_mod]
  have hlt : f.released % depth c < depth c := Nat.mod_lt _ hd
  have hdm := Nat.div_add_mod f.released (depth c)
  simp only [onLoan, hr, Bool.true_and, Bool.and_eq_true, decide_eq_true_eq, loanedBlocks, hR]
  constructor
  · rintro ⟨hi, hl⟩
    rw [slot_distance hlt hi] at hl
    by_cases hle : f.released % depth c ≤ i
    · rw [if_pos hle] at hl
      refine ⟨f.released + (i - f.released % depth c), by omega, by omega, ?_⟩
      rw [show f.released + (i - f.released % depth c) = i + depth c * (f.released / depth c) from by omega,
        Nat.add_mul_mod_self_left, Nat.mod_eq_of_lt hi]
    · rw [if_neg hle] at hl
      refine ⟨f.released + (i + depth c - f.released % depth c), by omega, by omega, ?_⟩
      rw [show f.released + (i + depth c - f.released % depth c) = i + depth c + depth c * (f.released / depth c) from by
        omega, Nat.add_mul_mod_self_left, Nat.add_mod_right, Nat.mod_eq_of_lt hi]
  · rintro ⟨n, hn1, hn2, rfl⟩
    have hi : n % depth c < depth c := Nat.mod_lt _ hd
    refine ⟨hi, ?_⟩
    have hn := Nat.div_add_mod n (depth c)
    rw [slot_distance hlt hi]
    by_cases hq : n / depth c ≤ f.released / depth c
    · have := Nat.mul_le_mul_left (depth c) hq
      rw [if_pos (by omega)]
      by_cases hq' : n / depth c = f.released / depth c
      · rw [hq'] at hn
        omega
      · have := Nat.mul_le_mul_left (depth c) (show n / depth c + 1 ≤ f.released / depth c from by omega)
        rw [Nat.mul_add] at this
        omega
    · have hq2 := Nat.mul_le_mul_left (depth c) (show f.released / depth c + 1 ≤ n / depth c from by omega)
      rw [Nat.mul_add] at hq2
      by_cases hq3 : n / depth c = f.released / depth c + 1
      · rw [hq3, Nat.mul_add] at hn
        split <;> omega
      · have := Nat.mul_le_mul_left (depth c) (show f.released / depth c + 2 ≤ n / depth c from by omega)
        rw [Nat.mul_add] at this
        omega

/-! ### Initialisation -/

/-- The counts of an initialised FIFO. -/
theorem initFifo_counts (c : Params) (f : Fifo) : FifoCounts c (initFifo f) := by
  constructor <;> simp [initFifo, releasedView, pushedView]

@[simp] theorem initFifo_ready (f : Fifo) : (initFifo f).ready = true := rfl
@[simp] theorem initFifo_slots (f : Fifo) : (initFifo f).slots = f.slots := rfl

/-! ### Push -/

@[simp] theorem pushBlock_ready (c : Params) (b : List Byte) (f : Fifo) : (pushBlock c b f).ready = f.ready := rfl
@[simp] theorem pushBlock_pushed (c : Params) (b : List Byte) (f : Fifo) :
    (pushBlock c b f).pushed = f.pushed + 1 := rfl
@[simp] theorem pushBlock_popped (c : Params) (b : List Byte) (f : Fifo) : (pushBlock c b f).popped = f.popped := rfl
@[simp] theorem pushBlock_released (c : Params) (b : List Byte) (f : Fifo) :
    (pushBlock c b f).released = f.released := rfl
@[simp] theorem pushBlock_rd (c : Params) (b : List Byte) (f : Fifo) : (pushBlock c b f).rd = f.rd := rfl
@[simp] theorem pushBlock_fr (c : Params) (b : List Byte) (f : Fifo) : (pushBlock c b f).fr = f.fr := rfl
@[simp] theorem pushBlock_frView (c : Params) (b : List Byte) (f : Fifo) : (pushBlock c b f).frView = f.frView := rfl
@[simp] theorem pushBlock_wrView (c : Params) (b : List Byte) (f : Fifo) : (pushBlock c b f).wrView = f.wrView := rfl

/-- A byte of a slot after a push: the block's in the slot written, the old one in every other slot. -/
theorem slotByte_pushBlock {c : Params} {b : List Byte} {f : Fifo} (hb : b.length = c.recBytes) {i k : Nat}
    (hk : k < c.recBytes) :
    slotByte c (pushBlock c b f) i k = if i = f.wr % depth c then b[k]? else slotByte c f i k := by
  unfold slotByte pushBlock
  simp only [Memory.read?_writeList]
  by_cases hi : i = f.wr % depth c
  · subst hi
    rw [if_pos (by omega), if_pos rfl]
    congr 1
    omega
  · have := slot_disjoint hi hk
    rw [if_neg (by omega), if_neg hi]

/-- A push on a FIFO that is not full keeps the counts. -/
theorem FifoCounts.push {c : Params} {b : List Byte} {f : Fifo} (h : FifoCounts c f) (hf : fullSeen c f = false)
    (hb : b.length = c.recBytes) : FifoCounts c (pushBlock c b f) := by
  have hfree := h.free_of_not_full hf
  have hv := h.releasedView_le
  have hrv : releasedView c (pushBlock c b f) = releasedView c f := by
    unfold releasedView
    split <;> rfl
  have h1 := h.frLeRd
  have h2 := h.rdLeWr
  constructor
  · show nextPointer c f.wr = (f.pushed + 1) % (2 * depth c)
    rw [h.wrCount, nextPointer_mod]
  · exact h.rdCount
  · exact h.frCount
  · exact h.frLeRd
  · show f.popped ≤ f.pushed + 1
    omega
  · show f.pushed + 1 ≤ f.released + depth c
    omega
  · exact h.frViewLe
  · show f.wrView ≤ f.pushed + 1
    have := h.wrViewLe
    omega
  · show f.pushed + 1 ≤ releasedView c (pushBlock c b f) + depth c
    omega
  · have h3 := h.rdLeView
    unfold pushedView at h3 ⊢
    split
    · rename_i e
      simp only [e] at h3
      show f.popped ≤ f.pushed + 1
      omega
    · rename_i e
      simp only [e] at h3
      exact h3
  · intro n hn1 hn2 k hk
    simp only [pushBlock_released] at hn1
    simp only [pushBlock_pushed] at hn2
    rw [slotByte_pushBlock hb hk]
    split
    · simp [hb, hk]
    · rename_i hne
      refine h.bytesWritten n hn1 ?_ k hk
      rcases Nat.lt_or_ge n f.pushed with hlt | hge
      · exact hlt
      · exact absurd (by rw [show n = f.pushed from by omega, h.wrCount, mod_double_mod]) hne

theorem pushBlock_slotsIn {c : Params} {b : List Byte} {f : Fifo} (hd : 1 ≤ depth c) (hb : b.length = c.recBytes)
    (h : ∀ x ∈ f.slots, x.1 < depth c * c.recBytes) : ∀ x ∈ (pushBlock c b f).slots, x.1 < depth c * c.recBytes := by
  intro x hx
  rcases Memory.mem_writeList hx with hx | hx
  · have hlt : f.wr % depth c < depth c := Nat.mod_lt _ hd
    have := slot_inside (k := x.1 - f.wr % depth c * c.recBytes) hlt (R := c.recBytes) (by omega)
    omega
  · exact h x hx

theorem pushBlock_wf {c : Params} {b : List Byte} {f : Fifo} (h : f.slots.wf) : (pushBlock c b f).slots.wf :=
  Memory.writeList_wf _ _ h

/-! ### Pop, release, SYNC -/

/-- A pop of a block the consumer sees keeps the counts. -/
theorem FifoCounts.pop {c : Params} {f : Fifo} (h : FifoCounts c f) (he : emptySeen c f = false) :
    FifoCounts c (popBlock c f) := by
  have hlt := popped_lt_of_not_empty he
  have hle := h.pushedView_le
  have hpv : pushedView c (popBlock c f) = pushedView c f := by
    unfold pushedView
    split <;> rfl
  have hrv : releasedView c (popBlock c f) = releasedView c f := by
    unfold releasedView
    split <;> rfl
  have h1 := h.frLeRd
  refine ⟨h.wrCount, ?_, h.frCount, ?_, ?_, h.wrLeDepth, h.frViewLe, h.wrViewLe, ?_, ?_, h.bytesWritten⟩
  · show nextPointer c f.rd = (f.popped + 1) % (2 * depth c)
    rw [h.rdCount, nextPointer_mod]
  · show f.released ≤ f.popped + 1
    omega
  · show f.popped + 1 ≤ f.pushed
    omega
  · rw [hrv]
    exact h.wrLeView
  · rw [hpv]
    exact hlt

/-- A release of a loan keeps the counts. -/
theorem FifoCounts.release {c : Params} {f : Fifo} (h : FifoCounts c f) (hl : loanedBlocks f ≠ 0) :
    FifoCounts c (releaseBlock c f) := by
  have hl' : f.released < f.popped := by
    unfold loanedBlocks at hl
    omega
  have hpv : pushedView c (releaseBlock c f) = pushedView c f := by
    unfold pushedView
    split <;> rfl
  have hrv : releasedView c f ≤ releasedView c (releaseBlock c f) := by
    unfold releasedView
    split
    · exact Nat.le_succ _
    · exact Nat.le_refl _
  have h1 := h.wrLeDepth
  have h2 := h.frViewLe
  have h3 := h.wrLeView
  refine ⟨h.wrCount, h.rdCount, ?_, hl', h.rdLeWr, ?_, ?_, h.wrViewLe, ?_, ?_, ?_⟩
  · show nextPointer c f.fr = (f.released + 1) % (2 * depth c)
    rw [h.frCount, nextPointer_mod]
  · show f.pushed ≤ f.released + 1 + depth c
    omega
  · show f.frView ≤ f.released + 1
    omega
  · show f.pushed ≤ releasedView c (releaseBlock c f) + depth c
    omega
  · rw [hpv]
    exact h.rdLeView
  · intro n hn
    have hn' : f.released + 1 ≤ n := hn
    exact h.bytesWritten n (by omega)

/-- `SYNC` keeps the counts: a view rises at most to the true count (R83). -/
theorem FifoCounts.sync {c : Params} {f : Fifo} (h : FifoCounts c f) (x y : Nat) :
    FifoCounts c (syncViews x y f) := by
  have h1 := h.frViewLe
  have h2 := h.wrViewLe
  have h3 := h.wrLeView
  have h4 := h.rdLeView
  have hfv : (syncViews x y f).frView = max f.frView (min x f.released) := rfl
  have hwv : (syncViews x y f).wrView = max f.wrView (min y f.pushed) := rfl
  refine ⟨h.wrCount, h.rdCount, h.frCount, h.frLeRd, h.rdLeWr, h.wrLeDepth, ?_, ?_, ?_, ?_, h.bytesWritten⟩
  · show (syncViews x y f).frView ≤ f.released
    omega
  · show (syncViews x y f).wrView ≤ f.pushed
    omega
  · show f.pushed ≤ releasedView c (syncViews x y f) + depth c
    unfold releasedView at h3 ⊢
    split
    · rename_i e
      simp only [e] at h3
      exact h3
    · rename_i e
      simp only [e] at h3
      omega
  · show f.popped ≤ pushedView c (syncViews x y f)
    unfold pushedView at h4 ⊢
    split
    · rename_i e
      simp only [e] at h4
      exact h4
    · rename_i e
      simp only [e] at h4
      omega

/-! ### The blocks held -/

/-- Two FIFOs whose slots agree on a block's bytes hold the same block. -/
theorem blockAt_congr {c : Params} {f g : Fifo} {n : Nat}
    (h : ∀ k, k < c.recBytes → slotByte c f (n % depth c) k = slotByte c g (n % depth c) k) :
    blockAt c f n = blockAt c g n := Memory.readList?_congr h

/-- The block just pushed is the FIFO's newest. -/
theorem FifoCounts.blockAt_push_new {c : Params} {b : List Byte} {f : Fifo} (h : FifoCounts c f)
    (hb : b.length = c.recBytes) : blockAt c (pushBlock c b f) f.pushed = some b := by
  unfold blockAt pushBlock
  rw [h.wrCount, mod_double_mod, ← hb]
  exact Memory.readList?_writeList _ b f.slots

/-- A push leaves every block already held as it is (R80). -/
theorem FifoCounts.blockAt_push_old {c : Params} {b : List Byte} {f : Fifo} (h : FifoCounts c f)
    (hf : fullSeen c f = false) (hb : b.length = c.recBytes) {n : Nat} (hn1 : f.released ≤ n) (hn2 : n < f.pushed) :
    blockAt c (pushBlock c b f) n = blockAt c f n := by
  have hfree := h.free_of_not_full hf
  have hv := h.releasedView_le
  refine blockAt_congr fun k hk => ?_
  rw [slotByte_pushBlock hb hk, if_neg]
  rw [h.wrCount, mod_double_mod]
  exact mod_ne_of_lt hn2 (by omega)

/-- A block that is held can be read. -/
theorem FifoCounts.blockAt_isSome {c : Params} {f : Fifo} (h : FifoCounts c f) {n : Nat} (hn1 : f.released ≤ n)
    (hn2 : n < f.pushed) : ∃ l, blockAt c f n = some l := Memory.readList?_isSome (h.bytesWritten n hn1 hn2)

/-- Every run inside a slot that is on loan can be read: no byte of it is without a value (U1). -/
theorem FifoCounts.readSlot_of_loan {s : State} (h : FifoCounts s.cfg s.fifo) (hr : s.fifo.ready = true)
    (hd : 1 ≤ depth s.cfg) {i off n : Nat} (hl : onLoan s.cfg s.fifo i = true) (ho : off + n ≤ s.cfg.recBytes) :
    ∃ l, readSlot i off n s = .next l := by
  obtain ⟨m, hm1, hm2, rfl⟩ := (h.onLoan_iff hr hd i).1 hl
  have h2 := h.rdLeWr
  obtain ⟨l, hl'⟩ := Memory.readList?_isSome (m := s.fifo.slots) (a := m % depth s.cfg * s.cfg.recBytes + off) (n := n)
    fun k hk => by
      have := h.bytesWritten m hm1 (by omega) (off + k) (by omega)
      rwa [slotByte, ← Nat.add_assoc] at this
  exact ⟨l, readSlot_eq_next.2 ⟨hl, ho, hl'⟩⟩

end Sys2Proof.Machine
end

