-- ==== Sys2Proof/Laws/PerInstr.lean ====
section
/-! SUPPORT. One lemma a constructor of Instr. The family Encoding: an instruction the encoding can carry reads back from
its own bytes, whatever bytes follow. The data formats have no encoding and are not well formed. -/
namespace Sys2Proof.Laws.Encoding

/-- A well-formed instruction decodes from its encoding, and the bytes after it come back unread. -/
def Statement (i : Instr) : Prop :=
  i.wellFormed = true → ∀ rest : List Byte, decode (encode i ++ rest) = .ok (i, rest)

theorem fifoInit : Statement (.fifoInit) := by
  intro _ rest
  simp [encode, decodeOperands]

theorem fifoTryPush (b : List Byte) : Statement (.fifoTryPush b) := by
  intro h rest
  simp only [encode, List.cons_append, decode_code, decodeOperands, decodeList_encList _ _ h]

theorem fifoPop (d : Deadline) : Statement (.fifoPop d) := by
  intro _ rest
  cases d <;> simp [encode, decodeOperands]

theorem fifoRelease (h : Nat) : Statement (.fifoRelease h) := by
  intro h rest
  simp only [encode, List.cons_append, decode_code, decodeOperands, decodeNat_encNat _ _ h]

theorem bcdEnc (v : Nat) : Statement (.bcdEnc v) := by
  intro h rest
  simp only [encode, List.cons_append, decode_code, decodeOperands, decodeNat_encNat _ _ h]

theorem bcdDec (b : Byte) : Statement (.bcdDec b) := by
  intro _ rest
  simp [encode, decodeOperands]

theorem timePack (t : TimeFields) : Statement (.timePack t) := by
  intro h rest
  simp only [encode, List.cons_append, decode_code, decodeOperands, decodeTod_encTod _ _ h]

theorem timeUnpack (r0 : Byte) (r1 : Byte) (r2 : Byte) : Statement (.timeUnpack r0 r1 r2) := by
  intro _ rest
  simp [encode, decodeOperands]

theorem i2cInit : Statement (.i2cInit) := by
  intro _ rest
  simp [encode, decodeOperands]

theorem i2cWrite (l : List Byte) : Statement (.i2cWrite l) := by
  intro h rest
  simp only [encode, List.cons_append, decode_code, decodeOperands, decodeList_encList _ _ h]

theorem i2cWriteRead (w : List Byte) (n : Nat) : Statement (.i2cWriteRead w n) := by
  intro h rest
  simp only [Instr.wellFormed, Bool.and_eq_true] at h
  simp [encode, decodeOperands, Operand.decList_encList (of_decide_eq_true h.1), decodeNat_encNat _ _ h.2]

theorem rtcWriteTime (t : TimeFields) : Statement (.rtcWriteTime t) := by
  intro h rest
  simp only [encode, List.cons_append, decode_code, decodeOperands, decodeTod_encTod _ _ h]

theorem rtcReadRegs (a : Byte) (n : Nat) : Statement (.rtcReadRegs a n) := by
  intro h rest
  simp [encode, decodeOperands, decodeNat_encNat _ _ h]

theorem macFcLoad (h : Nat) : Statement (.macFcLoad h) := by
  intro h rest
  simp only [encode, List.cons_append, decode_code, decodeOperands, decodeNat_encNat _ _ h]

theorem macFcDecode (fc : HalfWord) : Statement (.macFcDecode fc) := by
  intro _ rest
  simp only [encode, List.cons_append, List.nil_append, decode_code, decodeOperands, halfWord_of_bytes]

theorem macAddrExtract (h : Nat) : Statement (.macAddrExtract h) := by
  intro h rest
  simp only [encode, List.cons_append, decode_code, decodeOperands, decodeNat_encNat _ _ h]

theorem macParse (h : Nat) : Statement (.macParse h) := by
  intro h rest
  simp only [encode, List.cons_append, decode_code, decodeOperands, decodeNat_encNat _ _ h]

theorem prodOnFrame (p : Option Nat) (t : Nat) : Statement (.prodOnFrame p t) := by
  intro h rest
  simp only [Instr.wellFormed, Bool.and_eq_true] at h
  cases p with
  | none => simp [encode, decodeOperands, decodeNat_encNat _ _ h.2]
  | some p =>
    have hp : p < Instr.natLimit := of_decide_eq_true h.1
    simp [encode, decodeOperands, Operand.decNat_encNat hp, decodeNat_encNat _ _ h.2]

theorem consInit : Statement (.consInit) := by
  intro _ rest
  simp [encode, decodeOperands]

theorem consStep : Statement (.consStep) := by
  intro _ rest
  simp [encode, decodeOperands]

theorem consCycle : Statement (.consCycle) := by
  intro _ rest
  simp [encode, decodeOperands]

theorem fmtFrameControl (fc : HalfWord) : Statement (.fmtFrameControl fc) := by
  intro h
  cases h

theorem fmtBcdByte (b : Byte) : Statement (.fmtBcdByte b) := by
  intro h
  cases h

theorem fmtSecondsReg (b : Byte) : Statement (.fmtSecondsReg b) := by
  intro h
  cases h

theorem fmtMinutesReg (b : Byte) : Statement (.fmtMinutesReg b) := by
  intro h
  cases h

theorem fmtHoursReg (b : Byte) : Statement (.fmtHoursReg b) := by
  intro h
  cases h

theorem fmtClockRegisterFrame (b0 : Byte) (b1 : Byte) (b2 : Byte) (b3 : Byte) (b4 : Byte) (b5 : Byte) (b6 : Byte) (b7 : Byte) : Statement (.fmtClockRegisterFrame b0 b1 b2 b3 b4 b5 b6 b7) := by
  intro h
  cases h

theorem fmtI2cAddressByte (b : Byte) : Statement (.fmtI2cAddressByte b) := by
  intro h
  cases h

theorem fmtLinkHeader (l : List Byte) : Statement (.fmtLinkHeader l) := by
  intro h
  cases h

theorem fmtCaptureRecord (l : List Byte) : Statement (.fmtCaptureRecord l) := by
  intro h
  cases h

end Sys2Proof.Laws.Encoding
end

