-- ==== Sys2Proof/Machine/Wire.lean ====
section
/-! DEFINITION. The wire image of a transaction (R76, R110 to R112, R197): a view of a `BUS` entry and of how far it got,
read by no rule and by no operation. All of it is marked general knowledge in the spec (G3 to G5). -/
namespace Sys2Proof.Machine

/-- What passes on the two wires, at byte level (R197). -/
inductive WireEvent where
  | start
  | repeatedStart
  | stop
  | byte (b : Byte)
  /-- The chip acknowledges a byte it received. -/
  | chipAck
  /-- The chip does not acknowledge a byte: a `BUSERR` (R197). -/
  | chipNoAck
  /-- The master acknowledges a byte it read. -/
  | masterAck
  /-- The master answers the last byte it reads. -/
  | masterNack
deriving DecidableEq, Repr

/-- How far a transaction got; the spec leaves this of a failed one to the environment (R195, R196). That a failed one
ends between two bytes, after the last of them too, is a DESIGN CHOICE (notes/assumptions/28.md). -/
inductive WireEnd where
  /-- It ended OK. -/
  | complete
  /-- It was given up after the chip had acknowledged `k` bytes, the address byte at least: a timeout, or a bus-level
  error other than a missing acknowledge. -/
  | stopped (k : Nat)
  /-- The chip acknowledged `k` bytes and not the next: the address byte if `k` is 0 (R197). -/
  | missingAck (k : Nat)
  /-- It was given up in the read phase, after these bytes: any of them, none, or all that were asked for. That a failed
  read may have got all its bytes is the model's choice (notes/assumptions/28.md). -/
  | inRead (received : List Byte)
deriving DecidableEq, Repr

/-- The outcome a `BUS` entry records. -/
def BusEvent.outcome : BusEvent → BusStatus
  | .write _ o => o
  | .writeRead _ _ o _ => o

/-- A byte the master sends, with the condition before it. -/
abbrev SentByte := List WireEvent × Byte

/-- What the master sends after START (R110 to R112, R197): the chip's address with the direction, the bytes, and for a
read, after a repeated START and no STOP, the address again. The address is the parameter `DEV_ADDR` (R13). -/
def masterSends (c : Params) : BusEvent → List SentByte
  | .write l _ => ([], busAddressByte c.devAddr 0#1) :: l.map fun b => ([], b)
  | .writeRead w _ _ _ =>
    (([], busAddressByte c.devAddr 0#1) :: w.map fun b => ([], b)) ++ [([.repeatedStart], busAddressByte c.devAddr 1#1)]

/-- Each byte the master sends, with the chip's acknowledge. -/
def acknowledged (l : List SentByte) : List WireEvent := l.flatMap fun x => x.1 ++ [.byte x.2, .chipAck]

/-- The bytes the master reads, of `n` it asked for: it acknowledges every byte but the last of the `n`, and answers that
one with a nack (R112, R197), whether or not all of them come. -/
def readBytes : Nat → List Byte → List WireEvent
  | _, [] => []
  | n, b :: bs => [.byte b, if n = 1 then .masterNack else .masterAck] ++ readBytes (n - 1) bs

/-- What stands between START and STOP. A transaction that ended OK is complete, a missing acknowledge is a `BUSERR`, and
a read given up has received at most the bytes asked for; one that failed after all of them (a DESIGN CHOICE to admit it,
notes/assumptions/28.md) shows the last answered with a nack, as R197 says of a last byte. -/
def wireBody (c : Params) (e : BusEvent) : WireEnd → Option (List WireEvent)
  | .complete =>
    match e with
    | .write _ .ok => some (acknowledged (masterSends c e))
    | .writeRead _ n .ok (some r) => some (acknowledged (masterSends c e) ++ readBytes n r)
    | _ => none
  | .stopped k =>
    if e.outcome ≠ .ok ∧ 1 ≤ k ∧ k ≤ (masterSends c e).length then
      some (acknowledged ((masterSends c e).take k))
    else none
  | .missingAck k =>
    match (masterSends c e)[k]? with
    | some x =>
      if e.outcome = .busErr then
        some (acknowledged ((masterSends c e).take k) ++ x.1 ++ [.byte x.2, .chipNoAck])
      else none
    | none => none
  | .inRead r =>
    match e with
    | .write _ _ => none
    | .writeRead _ n o _ =>
      if o ≠ .ok ∧ r.length ≤ n then some (acknowledged (masterSends c e) ++ readBytes n r) else none

/-- The wire image of a transaction that ended as `w` says: it begins with START and the address byte, and ends with STOP
(R197). `none` where no transaction with the recorded outcome ends so. -/
def wireImage (c : Params) (e : BusEvent) (w : WireEnd) : Option (List WireEvent) :=
  (wireBody c e w).map fun l => [.start] ++ l ++ [.stop]

/-- How many of the written bytes `l` the chip has received (R196): those it acknowledged, its address not counted. -/
def bytesReceived (l : List Byte) : WireEnd → Nat
  | .stopped k | .missingAck k => min (k - 1) l.length
  | .complete | .inRead _ => l.length

/-- The bits of a byte in the order they go on the bus (R76): bit 7 first. -/
def bitsOnBus (b : Byte) : List Bool :=
  [b.getLsbD 7, b.getLsbD 6, b.getLsbD 5, b.getLsbD 4, b.getLsbD 3, b.getLsbD 2, b.getLsbD 1, b.getLsbD 0]

end Sys2Proof.Machine
end

