-- ==== Sys2Proof/Laws/Wire.lean ====
section
/-! SUPPORT. The laws of the wire image (R112, R196, R197). -/
namespace Sys2Proof.Machine

/-- A missing acknowledge is a `BUSERR` (R197). -/
theorem missingAck_busErr {c : Params} {e : BusEvent} {k : Nat} {l : List WireEvent}
    (h : wireImage c e (.missingAck k) = some l) : e.outcome = .busErr := by
  simp only [wireImage, wireBody, Option.map_eq_some_iff] at h
  obtain ⟨b, h, _⟩ := h
  split at h
  · split at h
    · assumption
    · cases h
  · cases h

/-- What the master sends begins with the address byte, direction 0 (R110, R197). -/
theorem masterSends_begins (c : Params) (e : BusEvent) :
    ∃ l, masterSends c e = ([], busAddressByte c.devAddr 0#1) :: l := by
  cases e <;> exact ⟨_, rfl⟩

/-- Every image begins with START and the address byte, however the transaction ended (R197). -/
theorem wireImage_begins {c : Params} {e : BusEvent} {w : WireEnd} {l : List WireEvent} (hw : wireImage c e w = some l) :
    ∃ r, l = [.start, .byte (busAddressByte c.devAddr 0#1)] ++ r := by
  obtain ⟨b, h, rfl⟩ := Option.map_eq_some_iff.1 hw
  clear hw
  obtain ⟨m, hm⟩ := masterSends_begins c e
  cases w with
  | complete =>
    simp only [wireBody] at h
    split at h <;> cases h <;> rw [hm] <;> exact ⟨_, rfl⟩
  | stopped k =>
    simp only [wireBody, hm] at h
    split at h <;> cases h
    obtain ⟨j, rfl⟩ : ∃ j, k = j + 1 := ⟨k - 1, by omega⟩
    exact ⟨_, rfl⟩
  | missingAck k =>
    simp only [wireBody, hm] at h
    cases k with
    | zero =>
      simp only [List.getElem?_cons_zero] at h
      split at h <;> cases h
      exact ⟨_, rfl⟩
    | succ k =>
      split at h
      · split at h <;> cases h
        exact ⟨_, rfl⟩
      · cases h
  | inRead r =>
    simp only [wireBody] at h
    split at h
    · cases h
    · split at h <;> cases h
      rw [hm]; exact ⟨_, rfl⟩

/-- Every prefix of a failed write is on the wire in some way (R196). -/
theorem failed_write_prefix (c : Params) {l : List Byte} {o : BusStatus} (ho : o ≠ .ok) {j : Nat} (hj : j ≤ l.length) :
    (wireImage c (.write l o) (.stopped (j + 1))).isSome ∧ bytesReceived l (.stopped (j + 1)) = j := by
  simp [wireImage, wireBody, masterSends, BusEvent.outcome, bytesReceived, ho, hj]

/-- A read that got fewer bytes than it asked for has acknowledged each of them (R197). -/
theorem readBytes_partial {n : Nat} {r : List Byte} (h : r.length < n) :
    readBytes n r = r.flatMap fun b => [.byte b, .masterAck] := by
  induction r generalizing n with
  | nil => rfl
  | cons b bs ih =>
    have hb : bs.length < n - 1 := by rw [List.length_cons] at h; omega
    rw [readBytes, if_neg (by omega), ih hb]; rfl

/-- Of all the bytes asked for the last is answered with a nack, and every other one acknowledged (R112, R197). -/
theorem readBytes_all (r : List Byte) (b : Byte) :
    readBytes (r.length + 1) (r ++ [b]) = (r.flatMap fun b => [.byte b, .masterAck]) ++ [.byte b, .masterNack] := by
  induction r with
  | nil => rfl
  | cons x xs ih =>
    rw [List.cons_append, readBytes, List.length_cons, if_neg (by omega), Nat.add_sub_cancel, ih]; rfl

end Sys2Proof.Machine
end

