-- ==== Sys2Proof/Tests/Slice0.lean ====
section
/-! SUPPORT. The model's own tests. Expected results come from spec/95_test_vectors.md (the vector's name stands in the
docstring) or are written out from the rule named. Then one witness a statement: states that meet its hypotheses. -/
namespace Sys2Proof.Tests

open Sys2Proof.Machine

/-! ### Helpers -/

/-- The next state of an outcome. -/
def next? {α : Type} (o : Out α) : Option α :=
  match o with
  | .next s => some s
  | _ => none

/-- The refusal of an outcome. -/
def refusal? {α : Type} (o : Out α) : Option Refusal :=
  match o with
  | .refused r => some r
  | _ => none

/-- The illustrative parameters of program P3: `DEPTH` 2, `SAMPLE_N` 1. -/
def params : Params := { Config.resetParams with sampleN := 1 }

/-- The frame `F` of program P3. -/
def frameF : List Byte :=
  [0xc4#8, 0x18#8, 0x0b#8, 0x06#8, 0x80#8, 0x00#8, 0x00#8, 0x00#8, 0xff#8, 0xff#8, 0xff#8, 0xff#8] ++
  [0xff#8, 0xff#8, 0x02#8, 0x11#8, 0x22#8, 0x33#8, 0x44#8, 0x55#8, 0x02#8, 0x11#8, 0x22#8, 0x33#8]

/-- After reset, under `params`. -/
def start : State := { State.reset with cfg := params }

/-- The FIFO at `(1; 0, 0, 0)`, `(1; 1, 0, 0)`, `(1; 2, 0, 0)`, `(1; 1, 1, 0)` and `(1; 2, 1, 0)`. -/
def fifo000 : Fifo := initFifo State.reset.fifo
def fifo100 : Fifo := pushBlock params frameF fifo000
def fifo200 : Fifo := pushBlock params frameF fifo100
def fifo110 : Fifo := popBlock params fifo100
def fifo210 : Fifo := popBlock params fifo200

/-- A machine with the given FIFO, in the context of `a`, with the outcomes to be drawn. -/
def inContext (f : Fifo) (a : Agent) (script : List Nat) : State :=
  { start with fifo := f, agent := some a, draws := { script := script, taken := 0 } }

/-- A chip whose time registers hold `25 25 16`, its other four zeros. -/
def chip252516 : Chip :=
  { ptr := 0#8
    regs := [(0, 0x25#8), (1, 0x25#8), (2, 0x16#8), (3, 0#8), (4, 0#8), (5, 0#8), (6, 0#8)] }

/-- A machine with the bus open and that chip. -/
def busUp (script : List Nat) : State :=
  { inContext fifo000 .cons script with
    i2c := { State.reset.i2c with busOpen := true }
    chip := chip252516 }

/-- The running consumer at a step, over a FIFO. -/
def running (f : Fifo) (c : CStep) (script : List Nat) : State :=
  { busUp script with
    fifo := f
    cons := { State.reset.cons with cstate := .running, cstep := c, curValid := decide (c ≠ .s1Pop) } }

/-! ### Well-formedness: each check refuses a term -/

theorem test_wf_refuses_large_handle : (Instr.fifoRelease 4294967296).wellFormed = false := by decide
theorem test_wf_takes_largest_handle : (Instr.fifoRelease 4294967295).wellFormed = true := by decide
theorem test_wf_refuses_long_block :
    ∀ b : List Byte, b.length = 4294967296 → (Instr.fifoTryPush b).wellFormed = false := by
  intro b h; simp only [Instr.wellFormed, Instr.natFits, Instr.natLimit, h]; decide
theorem test_wf_refuses_long_write :
    ∀ b : List Byte, b.length = 4294967296 → (Instr.i2cWrite b).wellFormed = false := by
  intro b h; simp only [Instr.wellFormed, Instr.natFits, Instr.natLimit, h]; decide
theorem test_wf_refuses_large_value : (Instr.bcdEnc 4294967296).wellFormed = false := by decide
theorem test_wf_refuses_read_length : (Instr.i2cWriteRead [0#8] 4294967296).wellFormed = false := by decide
theorem test_wf_refuses_regs_length : (Instr.rtcReadRegs 0#8 4294967296).wellFormed = false := by decide
theorem test_wf_refuses_hours : (Instr.timePack ⟨256, 0, 0⟩).wellFormed = false := by decide
theorem test_wf_refuses_minutes : (Instr.timePack ⟨0, 256, 0⟩).wellFormed = false := by decide
theorem test_wf_refuses_seconds : (Instr.rtcWriteTime ⟨0, 0, 256⟩).wellFormed = false := by decide
theorem test_wf_refuses_parse_handles :
    (Instr.macFcLoad 4294967296).wellFormed = false ∧ (Instr.macAddrExtract 4294967296).wellFormed = false ∧
    (Instr.macParse 4294967296).wellFormed = false := by decide
theorem test_wf_refuses_pointer : (Instr.prodOnFrame (some 4294967296) 0).wellFormed = false := by decide
theorem test_wf_refuses_frame_type : (Instr.prodOnFrame none 4294967296).wellFormed = false := by decide
theorem test_wf_refuses_formats :
    (Instr.fmtFrameControl 0#16).wellFormed = false ∧ (Instr.fmtBcdByte 0#8).wellFormed = false ∧
    (Instr.fmtSecondsReg 0#8).wellFormed = false ∧ (Instr.fmtMinutesReg 0#8).wellFormed = false ∧
    (Instr.fmtHoursReg 0#8).wellFormed = false ∧
    (Instr.fmtClockRegisterFrame 0#8 0#8 0#8 0#8 0#8 0#8 0#8 0#8).wellFormed = false ∧
    (Instr.fmtI2cAddressByte 0#8).wellFormed = false ∧ (Instr.fmtLinkHeader []).wellFormed = false ∧
    (Instr.fmtCaptureRecord []).wellFormed = false := by decide

/-! ### Decoding: each code of R114, bit by bit; the operand bytes are the model's layout -/

theorem test_decode_fifo :
    decode [0b00000000#8] = .ok (.fifoInit, []) ∧
    decode [0b00000001#8, 2#8, 0#8, 0#8, 0#8, 7#8, 8#8] = .ok (.fifoTryPush [7#8, 8#8], []) ∧
    decode [0b00000010#8, 0#8] = .ok (.fifoPop .forever, []) ∧ decode [0b00000010#8, 1#8] = .ok (.fifoPop .finite, []) ∧
    decode [0b00000011#8, 1#8, 2#8, 0#8, 0#8] = .ok (.fifoRelease 513, []) :=
  ⟨rfl, rfl, rfl, rfl, rfl⟩
theorem test_decode_codec :
    decode [0b00010000#8, 25#8, 0#8, 0#8, 0#8] = .ok (.bcdEnc 25, []) ∧
    decode [0b00010001#8, 0x59#8] = .ok (.bcdDec 0x59#8, []) ∧
    decode [0b00010010#8, 16#8, 25#8, 26#8] = .ok (.timePack ⟨16, 25, 26⟩, []) ∧
    decode [0b00010011#8, 1#8, 2#8, 3#8] = .ok (.timeUnpack 1#8 2#8 3#8, []) :=
  ⟨rfl, rfl, rfl, rfl⟩
theorem test_decode_i2c :
    decode [0b00100000#8] = .ok (.i2cInit, []) ∧
    decode [0b00100001#8, 1#8, 0#8, 0#8, 0#8, 9#8] = .ok (.i2cWrite [9#8], []) ∧
    decode [0b00100010#8, 1#8, 0#8, 0#8, 0#8, 9#8, 3#8, 0#8, 0#8, 0#8] = .ok (.i2cWriteRead [9#8] 3, []) ∧
    decode [0b00100011#8, 16#8, 25#8, 26#8] = .ok (.rtcWriteTime ⟨16, 25, 26⟩, []) ∧
    decode [0b00100100#8, 9#8, 3#8, 0#8, 0#8, 0#8] = .ok (.rtcReadRegs 9#8 3, []) :=
  ⟨rfl, rfl, rfl, rfl, rfl⟩
theorem test_decode_mac :
    decode [0b00110000#8, 1#8, 0#8, 0#8, 0#8] = .ok (.macFcLoad 1, []) ∧
    decode [0b00110001#8, 0x84#8, 0x01#8] = .ok (.macFcDecode 0x0184#16, []) ∧
    decode [0b00110010#8, 1#8, 0#8, 0#8, 0#8] = .ok (.macAddrExtract 1, []) ∧
    decode [0b00110011#8, 1#8, 0#8, 0#8, 0#8] = .ok (.macParse 1, []) :=
  ⟨rfl, rfl, rfl, rfl⟩
theorem test_decode_sequencers :
    decode [0b01000000#8, 0#8, 5#8, 0#8, 0#8, 0#8] = .ok (.prodOnFrame none 5, []) ∧
    decode [0b01000000#8, 1#8, 4#8, 0#8, 0#8, 0#8, 5#8, 0#8, 0#8, 0#8] = .ok (.prodOnFrame (some 4) 5, []) ∧
    decode [0b01000001#8] = .ok (.consInit, []) ∧ decode [0b01000010#8] = .ok (.consStep, []) ∧
    decode [0b01000011#8] = .ok (.consCycle, []) :=
  ⟨rfl, rfl, rfl, rfl, rfl⟩
/-- R115: the codes next to each unit's last one, and the largest, are unassigned. -/
theorem test_decode_unassigned :
    decode [0x04#8] = .error (.unassignedCode 0x04#8) ∧ decode [0x14#8] = .error (.unassignedCode 0x14#8) ∧
    decode [0x25#8] = .error (.unassignedCode 0x25#8) ∧ decode [0x34#8] = .error (.unassignedCode 0x34#8) ∧
    decode [0x44#8] = .error (.unassignedCode 0x44#8) ∧ decode [0xff#8] = .error (.unassignedCode 0xff#8) :=
  ⟨rfl, rfl, rfl, rfl, rfl, rfl⟩
theorem test_decode_rejects :
    decode [] = .error .noCode ∧ decode [0x11#8] = .error (.operandsTruncated 0x11#8) ∧
    decode [0x02#8, 2#8] = .error (.operandReserved 0x02#8) ∧
    decode [0x40#8, 2#8] = .error (.operandReserved 0x40#8) :=
  ⟨rfl, rfl, rfl, rfl⟩
theorem test_decode_table_words :
    decodeTableWord 8 0x00 = some .fifoInit ∧ decodeTableWord 8 0x24 = some (.rtcReadRegs 0#8 0) ∧
    decodeTableWord 8 0x43 = some .consCycle ∧ decodeTableWord 8 0x05 = none := by decide

/-! ### The FIFO unit -/

/-- V-FIFO F1, F2. -/
theorem test_fifo_init :
    (next? (exec .fifoInit { start with agent := some .host })).map (fun t => (t.fifo.ready, t.fifo.wr, t.fifo.pushed)) =
      some (true, 0, 0) ∧
    refusal? (exec .fifoInit (inContext fifo000 .host [])) = some .alreadyInitialised := by decide
/-- V-FIFO F9: reuse after a release writes slot 0 and moves the pointer to 3. -/
theorem test_push_reuses_slot :
    (next? (exec (.fifoTryPush (List.replicate 24 7#8)) (inContext (releaseBlock params fifo210) .prod []))).map
      (fun t => (t.result, t.fifo.wr, slotByte params t.fifo 0 23, slotByte params t.fifo 1 0)) =
      some (.accepted true, 3, some 7#8, some 0xc4#8) := by decide
/-- V-FIFO F7: full with one block on loan. -/
theorem test_push_rejected_while_on_loan :
    (next? (exec (.fifoTryPush frameF) (inContext fifo210 .prod []))).map (fun t => (t.result, t.fifo.wr)) =
      some (.accepted false, 2) := by decide
/-- V-FIFO F14. -/
theorem test_pop_second_loan :
    (next? (exec (.fifoPop .forever) (inContext fifo210 .cons []))).map (fun t => (t.result, t.fifo.rd, t.fifo.fr)) =
      some (.handle 1, 2, 0) := by decide
/-- V-FIFO F12: with a finite deadline an empty FIFO holds or times out, as drawn. -/
theorem test_pop_finite_draws :
    (next? (exec (.fifoPop .finite) (inContext fifo000 .cons [0]))).map (fun t => t.result) = some .hold ∧
    (next? (exec (.fifoPop .finite) (inContext fifo000 .cons [1]))).map (fun t => t.result) = some .timeout := by decide
/-- V-FIFO F16. -/
theorem test_release_out_of_order :
    refusal? (exec (.fifoRelease 1) (inContext (popBlock params fifo210) .cons [])) = some .notOldestLoan := by decide
/-- V-FIFO F18: a release after the wrap. -/
theorem test_release_after_wrap :
    (next? (exec (.fifoRelease 0)
      (inContext { fifo000 with wr := 1, rd := 1, fr := 0, pushed := 5, popped := 5, released := 4 } .cons []))).map
      (fun t => (t.fifo.fr, t.fifo.released)) = some (1, 5) := by decide

/-! ### The codec -/

/-- V-BCD. -/
theorem test_bcd_enc :
    (next? (exec (.bcdEnc 59) start)).map (fun t => t.result) = some (.byte 0x59#8) ∧
    refusal? (exec (.bcdEnc 100) start) = some .valueAbove99 := by decide
/-- V-BCD: the formula outside packed decimal. -/
theorem test_bcd_dec :
    (next? (exec (.bcdDec 0x1A#8) start)).map (fun t => t.result) = some (.value 20) ∧
    (next? (exec (.bcdDec 0xFF#8) start)).map (fun t => t.result) = some (.value 165) := by decide
/-- V-TIME. -/
theorem test_time_pack :
    (next? (exec (.timePack ⟨9, 5, 7⟩) (inContext fifo000 .cons []))).map (fun t => t.i2c.txbuf) =
      some [0x00#8, 0x07#8, 0x05#8, 0x09#8, 0#8, 0#8, 0#8, 0#8] ∧
    refusal? (exec (.timePack ⟨24, 0, 0⟩) (inContext fifo000 .cons [])) = some .notATimeOfDay := by decide
/-- V-TIME: flags masked, no range check. -/
theorem test_time_unpack :
    (next? (exec (.timeUnpack 0xD9#8 0x80#8 0x56#8) (inContext fifo000 .cons []))).map (fun t => t.cons.todLast) =
      some ⟨16, 0, 59⟩ ∧
    (next? (exec (.timeUnpack 0x7A#8 0x00#8 0x2C#8) (inContext fifo000 .cons []))).map (fun t => t.cons.todLast) =
      some ⟨32, 0, 80⟩ := by decide

/-! ### The I2C master and the clock chip -/

/-- V-I2C I1, I2. -/
theorem test_i2c_init :
    (next? (exec .i2cInit (inContext fifo000 .cons [0]))).map (fun t => (t.i2c.busOpen, t.bus)) = some (true, []) ∧
    (next? (exec .i2cInit (inContext fifo000 .cons [1]))).map (fun t => (t.i2c.busOpen, t.exc, t.cons.cstate)) =
      some (false, [.busInit], .fatal) := by decide
/-- V-I2C I10: a failed write that delivered three bytes. -/
theorem test_i2c_write_prefix :
    (next? (exec (.i2cWrite [0#8, 0x59#8, 0x58#8, 0x23#8]) (busUp [2, 3]))).map
      (fun t => (t.i2c.busStatus, t.chip.ptr, t.chip.regs.readList? 0 3)) =
      some (.busErr, 2#8, some [0x59#8, 0x58#8, 0x16#8]) := by decide
/-- V-I2C I12. -/
theorem test_i2c_write_past_last :
    refusal? (exec (.i2cWrite (0xFA#8 :: List.replicate 7 0#8)) (busUp [0])) = some .pastLastRegister := by decide
/-- V-I2C I16. -/
theorem test_i2c_write_read :
    (next? (exec (.i2cWriteRead [2#8] 2) (busUp [0]))).map (fun t => (t.i2c.rxbuf, t.chip.ptr)) =
      some ([0x16#8, 0#8], 4#8) := by decide
/-- V-I2C I15: a failed read whose pointer is drawn. -/
theorem test_i2c_read_failed :
    (next? (exec (.i2cWriteRead [0#8] 3) (busUp [1, 3, 7, 8, 9]))).map
      (fun t => (t.result, t.chip.ptr, t.i2c.rxbuf)) = some (.status .timeout, 2#8, [7#8, 8#8, 9#8]) := by decide
/-- V-I2C I21. -/
theorem test_rtc_write_time :
    (next? (exec (.rtcWriteTime ⟨23, 59, 58⟩) (busUp [0]))).map
      (fun t => (t.result, t.chip.regs.readList? 0 3, t.chip.ptr)) =
      some (.success true, some [0x58#8, 0x59#8, 0x23#8], 7#8) := by decide
/-- V-I2C I24: raw bytes. -/
theorem test_rtc_read_regs :
    (next? (exec (.rtcReadRegs 0#8 3) (busUp [0]))).map (fun t => t.result) =
      some (.bytes [0x25#8, 0x25#8, 0x16#8]) := by decide
/-- `RTC.TICK`, the vectors `D9 59 23 -> 80 00 00` and `59 59 63 -> 00 00 40`. -/
theorem test_tick_rollover :
    ((chipTick params { ptr := 0#8, regs := [(0, 0xD9#8), (1, 0x59#8), (2, 0x23#8)] } ⟨[], 0⟩).1.regs,
      (chipTick params { ptr := 0#8, regs := [(0, 0x59#8), (1, 0x59#8), (2, 0x63#8)] } ⟨[], 0⟩).1.regs) =
      ([(0, 0x80#8), (1, 0x00#8), (2, 0x00#8)], [(0, 0x00#8), (1, 0x00#8), (2, 0x40#8)]) := by decide
/-- P2c: the chip sets flag bits. -/
theorem test_chip_flags :
    (chipSetFlags params ⟨1#1, 1#1, 1#2⟩ chip252516).regs.readList? 0 3 = some [0xA5#8, 0xA5#8, 0x56#8] := by decide
/-- The wire image of `RTC.READ_REGS 0x00, 3`: `S D0 a 00 a Sr D1 a 25 A 25 A 16 N P`. -/
theorem test_wire_read :
    wireImage params (.writeRead [0#8] 3 .ok (some [0x25#8, 0x25#8, 0x16#8])) .complete =
      some ([.start, .byte 0xD0#8, .chipAck, .byte 0x00#8, .chipAck, .repeatedStart, .byte 0xD1#8, .chipAck] ++
        [.byte 0x25#8, .masterAck, .byte 0x25#8, .masterAck, .byte 0x16#8, .masterNack, .stop]) := by decide
/-- R197: a missing ack is a BUSERR, and no other outcome; here of the address byte, after which nothing but STOP comes. -/
theorem test_wire_missing_ack :
    wireImage params (.write [0#8, 0x59#8] .busErr) (.missingAck 0) =
      some [.start, .byte 0xD0#8, .chipNoAck, .stop] ∧
    wireImage params (.write [0#8, 0x59#8] .ok) (.missingAck 0) = none ∧
    wireImage params (.write [0#8, 0x59#8] .timeout) (.stopped 2) =
      some [.start, .byte 0xD0#8, .chipAck, .byte 0x00#8, .chipAck, .stop] ∧
    wireImage params (.write [0#8, 0x59#8] .timeout) (.stopped 0) = none := by decide
/-- R112, R197: a failed read that got all its bytes answers the last with a nack, one that got fewer acknowledges each. -/
theorem test_wire_failed_read :
    wireImage params (.writeRead [0#8] 2 .timeout none) (.inRead [7#8, 8#8]) =
      some ([.start, .byte 0xD0#8, .chipAck, .byte 0x00#8, .chipAck, .repeatedStart, .byte 0xD1#8, .chipAck] ++
        [.byte 7#8, .masterAck, .byte 8#8, .masterNack, .stop]) ∧
    wireImage params (.writeRead [0#8] 2 .timeout none) (.inRead [7#8]) =
      some ([.start, .byte 0xD0#8, .chipAck, .byte 0x00#8, .chipAck, .repeatedStart, .byte 0xD1#8, .chipAck] ++
        [.byte 7#8, .masterAck, .stop]) := by decide

/-! ### The parser -/

/-- V-MAC: `80 00` low byte first. -/
theorem test_fc_load :
    (next? (exec (.macFcLoad 0) (inContext fifo110 .cons []))).map (fun t => t.cons.fcReg) = some 0x0080#16 ∧
    refusal? (exec (.macFcLoad 1) (inContext fifo110 .cons [])) = some .slotNotOnLoan := by decide
/-- V-MAC: `0x0084` and `0x00B4`; R221 writes both registers whichever agent issues it (R114). -/
theorem test_fc_decode :
    (next? (exec (.macFcDecode 0x0084#16) (busUp []))).map (fun t => (t.cons.ftype, t.cons.fsubtype)) =
      some (1#2, 8#4) ∧
    (next? (exec (.macFcDecode 0xFFB4#16) (inContext fifo000 .prod []))).map
      (fun t => (t.result, t.cons.ftype, t.cons.fsubtype)) = some (.fields [1, 11], 1#2, 11#4) := by decide
/-- V-MAC. -/
theorem test_addr_extract :
    (next? (exec (.macAddrExtract 0) (inContext fifo110 .cons []))).map (fun t => (t.cons.addrA, t.cons.addrB)) =
      some (List.replicate 6 0xff#8, [0x02#8, 0x11#8, 0x22#8, 0x33#8, 0x44#8, 0x55#8]) := by decide
/-- P3 step 7. -/
theorem test_parse :
    (next? (exec (.macParse 0) (inContext fifo110 .cons []))).map
      (fun t => (t.cons.fcReg, t.cons.ftype, t.cons.fsubtype)) = some (0x0080#16, 0#2, 8#4) := by decide

/-! ### The sequencers -/

/-- V-SEQ Q3, Q4. -/
theorem test_on_frame :
    (next? (exec (.prodOnFrame (some 100) 0)
      { inContext fifo000 .prod [] with hwbuf := Memory.writeList 100 frameF [] })).map
      (fun t => (t.fifo.pushed, slotByte params t.fifo 0 4)) = some (1, some 0x80#8) ∧
    (next? (exec (.prodOnFrame (some 100) 0)
      { inContext fifo200 .prod [] with hwbuf := Memory.writeList 100 frameF [] })).map
      (fun t => (t.dropCnt, t.exc, t.fifo.pushed)) = some (1, [.fifoFull], 2) := by decide
/-- V-SEQ Q7. -/
theorem test_cons_init :
    (next? (exec .consInit (inContext fifo000 .cons [0, 0]))).map (fun t => (t.cons.cstate, t.cons.todLast, t.log)) =
      some (.running, ⟨16, 25, 25⟩, [.seed ⟨16, 25, 25⟩]) := by decide
/-- P5b: the seed write fails after three bytes. -/
theorem test_cons_init_seed_failed :
    (next? (exec .consInit { inContext fifo000 .cons [0, 2, 3] with chip := chip252516 })).map
      (fun t => (t.cons.cstate, t.exc, t.i2c.busOpen, t.log, t.chip.ptr)) =
      some (.fatal, [.seedWrite], true, [], 2#8) := by decide
/-- V-SEQ Q10. -/
theorem test_step_clock_failed :
    (next? (exec .consStep (running fifo110 .s2Clock [2, 0, 0, 0, 0]))).map
      (fun t => (t.cons.timeValid, t.cons.busErrCnt, t.cons.cstep, t.exc)) =
      some (false, 1, .s3Parse, [.busError]) := by decide
/-- P3 step 8. -/
theorem test_step_sample :
    (next? (exec .consStep (running fifo110 .s4Sample []))).map (fun t => (t.cons.capCnt, t.log)) =
      some (1, [.sample ⟨0, 0, 0⟩ false [0xc4#8, 0x18#8, 0x0b#8, 0x06#8] (List.replicate 6 0#8) (List.replicate 6 0#8)
        0#2 0#4]) := by decide
/-- P3 steps 5 to 9 as one pass; a frame that arrives after its first step is queued. -/
theorem test_cycle :
    (next? (exec .consCycle
      { running fifo100 .s1Pop [0] with events := [⟨0, [], .frame (some 100) 0 frameF⟩] })).map
      (fun t => (t.fifo.pushed, t.fifo.popped, t.fifo.released, t.cons.capCnt, t.cons.todLast)) =
      some (2, 1, 1, 1, ⟨16, 25, 25⟩) := by decide

/-! ### The data formats -/

/-- R103, R105 to R108, R110, on values of the vectors. -/
theorem test_bit_formats :
    (next? (exec (.fmtFrameControl 0xAB84#16) start)).map (fun t => t.result) = some (.fields [0xAB, 8, 1, 0]) ∧
    (next? (exec (.fmtBcdByte 0x59#8) start)).map (fun t => t.result) = some (.fields [5, 9]) ∧
    (next? (exec (.fmtSecondsReg 0xD9#8) start)).map (fun t => t.result) = some (.fields [1, 5, 9]) ∧
    (next? (exec (.fmtMinutesReg 0x80#8) start)).map (fun t => t.result) = some (.fields [1, 0, 0]) ∧
    (next? (exec (.fmtHoursReg 0x56#8) start)).map (fun t => t.result) = some (.fields [1, 1, 6]) ∧
    (next? (exec (.fmtI2cAddressByte 0xD1#8) start)).map (fun t => t.result) = some (.fields [0x68, 1]) := by decide
theorem test_byte_formats :
    (next? (exec (.fmtClockRegisterFrame 0#8 0x25#8 0x25#8 0x16#8 1#8 2#8 3#8 4#8) start)).map (fun t => t.result) =
      some (.fields [0, 0x25, 0x25, 0x16, 1, 2, 3, 4]) ∧
    refusal? (exec (.fmtClockRegisterFrame 0#8 0x80#8 0#8 0#8 0#8 0#8 0#8 0#8) start) = some .notInFormat ∧
    (next? (exec (.fmtLinkHeader (frameF.drop 4)) start)).map (fun t => t.result) =
      some (.parts [[0x80#8, 0x00#8], List.replicate 6 0xff#8, [0x02#8, 0x11#8, 0x22#8, 0x33#8, 0x44#8, 0x55#8]]) ∧
    (next? (exec (.fmtCaptureRecord frameF) start)).map (fun t => t.result) =
      some (.parts [frameF.take 4, frameF.drop 4]) := by decide

/-! ### Reset and the step -/

/-- A table word placed with `withFetchWord` is the next thing the machine runs. -/
theorem test_fetch_word :
    (next? (step (State.reset.withFetchWord 8 0x00))).map (fun t => t.fifo.ready) = some true ∧
    refusal? (step (State.reset.withFetchWord 8 0x04)) = some (.undecodable (.unassignedCode 0x04#8)) := by decide
/-- R271, R285: a retried `I2C.INIT` after `E_BUS_INIT` does not open the bus, whatever would be drawn. -/
theorem test_fatal_is_stuck :
    (next? (exec .i2cInit (raise .busInit (inContext fifo000 .cons [0])))).map
      (fun t => (t.result, t.i2c.busOpen, t.cons.cstate)) = some (.stuck, false, .fatal) ∧
    (next? (exec (.fifoPop .forever) (raise .busInit (inContext fifo100 .cons [])))).map
      (fun t => (t.result, t.fifo.rd)) = some (.stuck, 0) := by decide
/-- R313: a reset of the block does not reset the chip. -/
theorem test_reset_keeps_chip :
    (next? (step { running fifo110 .s3Parse [] with events := [⟨0, [], .reset⟩] })).map
      (fun t => (t.cons.cstate, t.fifo.ready, t.agent, t.chip)) = some (.init, false, none, chip252516) := by decide
/-- R288: the interrupt context is left at the callback's return. -/
theorem test_interrupt_context_returns :
    (next? (step { busUp [] with sched := [⟨.prod, 0x40#8, [0#8, 5#8, 0#8, 0#8, 0#8], []⟩] })).map
      (fun t => (t.result, t.agent)) = some (.done, some .cons) := by decide
/-- A consumer whose task context is held at a `FIFO.POP`, and whose next line opens the bus; behind it the lines `ls`. -/
def heldThen (f : Fifo) (ls : List Line) : State :=
  { inContext f .cons [] with held := some (.pop .forever), sched := ⟨.cons, 0x20#8, [], [0]⟩ :: ls }
/-- The line on which the interrupt context pushes the frame at 100. -/
def frameLine : Line := ⟨.prod, 0x40#8, [1#8, 100#8, 0#8, 0#8, 0#8, 0#8, 0#8, 0#8, 0#8], []⟩
/-- V-FIFO F11: a pop of an empty FIFO holds, and the held context does not reach its next line. -/
theorem test_hold_blocks_context :
    (next? (step { inContext fifo000 .cons [] with
        sched := [⟨.cons, 0x02#8, [0#8], []⟩, ⟨.cons, 0x20#8, [], [0]⟩] })).map
      (fun t => (t.result, t.held, t.sched.length)) = some (.hold, some (.pop .forever), 1) ∧
    (next? (step (heldThen fifo000 []))).map (fun t => (t.result, t.held, t.i2c.busOpen, t.sched.length)) =
      some (.hold, some (.pop .forever), false, 1) := by decide
/-- R142, 00_scope.md section 5: the producer goes on and lifts the hold; then the pop completes before the next line. -/
theorem test_hold_is_lifted :
    (next? (step { heldThen fifo000 [frameLine] with hwbuf := Memory.writeList 100 frameF [] })).map
      (fun t => (t.fifo.pushed, t.held, t.i2c.busOpen, t.sched.length)) =
      some (1, some (.pop .forever), false, 1) ∧
    (next? (step (heldThen fifo100 []))).map (fun t => (t.result, t.held, t.i2c.busOpen, t.sched.length)) =
      some (.handle 0, none, false, 1) := by decide
theorem test_exception_codes :
    [Cause.busInit, .seedWrite, .radioInit, .busTimeout, .busError, .fifoFull].map causeCode = [1, 2, 3, 4, 5, 6] := by
  decide

/-! ### Witnesses: for each statement with hypotheses, states and operands that meet them, each clause at a boundary -/

theorem counts000 : FifoCounts params fifo000 := initFifo_counts _ _
theorem counts100 : FifoCounts params fifo100 := counts000.push (by decide) (by decide)
theorem counts200 : FifoCounts params fifo200 := counts100.push (by decide) (by decide)
theorem counts110 : FifoCounts params fifo110 := counts100.pop (by decide)
theorem counts210 : FifoCounts params fifo210 := counts200.pop (by decide)

/-- The running consumer over an empty and over a one-block FIFO, and with that block on loan. -/
theorem inv_running000 : Inv (running fifo000 .s1Pop []) :=
  ⟨by decide, fun _ => counts000, by constructor <;> decide, by constructor <;> decide⟩
theorem inv_running100 : Inv (running fifo100 .s1Pop []) :=
  ⟨by decide, fun _ => counts100, by constructor <;> decide, by constructor <;> decide⟩
theorem inv_running110 : Inv (running fifo110 .s3Parse []) :=
  ⟨by decide, fun _ => counts110, by constructor <;> decide, by constructor <;> decide⟩

/-- A machine after a fatal cause, with the chip holding values and a reset due. -/
def stopped : State := { raise .seedWrite (busUp []) with events := [⟨0, [], .reset⟩] }
theorem witness_ResetLeavesStatedValues :
    LegalParams stopped.cfg ∧ stopped.events = [⟨0, [], .reset⟩] ∧ stopped.chip ≠ State.reset.chip ∧
    stopped.cons.cstate = .fatal := by decide
/-- A schedule of one line, with an environment step that is not due yet. -/
def scheduled (c : Byte) : State :=
  { start with sched := [⟨.host, c, [], []⟩], events := [⟨1, [], .tick⟩] }
/-- A line of another agent; a line that issues the held operation again; a line that waits behind a hold another agent's
line passes, behind one that is lifted, and behind one that stands with no other agent's line left. -/
theorem witness_StepRunsDecodedLine :
    LegalParams (scheduled 0x00#8).cfg ∧ (∀ e ∈ (scheduled 0x00#8).events.head?, e.wait ≠ 0) ∧
    (scheduled 0x00#8).sched = [⟨.host, 0x00#8, [], []⟩] ∧ decode [0x00#8] = .ok (.fifoInit, []) ∧
    decode [0x02#8, 0#8] = .ok (.fifoPop .forever, []) ∧
    continuesHeld (.pop .forever) (.fifoPop .forever) = true ∧ continuesHeld .step .consCycle = true ∧
    LegalParams (heldThen fifo000 [frameLine]).cfg ∧ (heldThen fifo000 [frameLine]).events = [] ∧
    (heldThen fifo000 [frameLine]).held = some (.pop .forever) ∧
    (heldThen fifo000 [frameLine]).sched = ⟨.cons, 0x20#8, [], [0]⟩ :: ([] ++ frameLine :: []) ∧
    decode [0x20#8] = .ok (.i2cInit, []) ∧ continuesHeld (.pop .forever) .i2cInit = false ∧
    emptySeen params fifo000 = true ∧ frameLine.agent ≠ .cons ∧
    decode (frameLine.code :: frameLine.operands) = .ok (.prodOnFrame (some 100) 0, []) ∧
    emptySeen params fifo100 = false :=
  ⟨by decide, by decide, rfl, rfl, rfl, by decide, by decide, by decide, rfl, rfl, rfl, rfl, by decide, by decide,
    by decide, rfl, by decide⟩
theorem witness_StepWithoutLine :
    LegalParams params ∧ (∀ e ∈ start.events.head?, e.wait ≠ 0) ∧ start.sched = [] ∧ start.held = none ∧
    (running fifo000 .s1Pop []).sched = [] ∧ (running fifo000 .s1Pop []).events.head? = none ∧
    (running fifo000 .s1Pop []).held = none ∧
    ({ running fifo000 .s1Pop [] with held := some .step } : State).held = some .step ∧
    (running fifo000 .s1Pop []).cons.cstate = .running ∧ start.cons.cstate ≠ .running := by decide
theorem witness_UnassignedCodeRefused :
    (0x04#8 : Byte) ∉ [0x00#8, 0x01#8, 0x02#8, 0x03#8, 0x10#8, 0x11#8, 0x12#8, 0x13#8, 0x20#8, 0x21#8, 0x22#8, 0x23#8,
      0x24#8, 0x30#8, 0x31#8, 0x32#8, 0x33#8, 0x40#8, 0x41#8, 0x42#8, 0x43#8] ∧
    LegalParams (scheduled 0x04#8).cfg ∧ (∀ e ∈ (scheduled 0x04#8).events.head?, e.wait ≠ 0) ∧
    (scheduled 0x04#8).sched = [⟨.host, 0x04#8, [], []⟩] ∧
    ({ start with sched := [⟨.cons, 0x04#8, [], []⟩] } : State).held = none := by decide
theorem witness_DecodeOfEncode :
    (Instr.fifoRelease 4294967295).wellFormed = true ∧ (Instr.timePack ⟨255, 255, 255⟩).wellFormed = true ∧
    (Instr.prodOnFrame (some 4294967295) 4294967295).wellFormed = true := by decide

theorem witness_FifoInitEffect :
    (inContext State.reset.fifo .host []).agent = some .host ∧ (inContext State.reset.fifo .host []).fifo.ready = false ∧
    (inContext fifo000 .host []).agent = some .host ∧ (inContext fifo000 .host []).fifo.ready = true := by decide
theorem witness_PushAccepted :
    (inContext fifo100 .prod []).agent = some .prod ∧ fifo100.ready = true ∧ frameF.length = params.recBytes ∧
    fifo100.pushed - releasedView params fifo100 ≠ params.capBytes / params.recBytes := by decide
theorem witness_PushRejectedOrRefused :
    (inContext fifo200 .prod []).agent = some .prod ∧ State.reset.fifo.ready = false ∧ fifo200.ready = true ∧
    (frameF.drop 1).length ≠ params.recBytes ∧ frameF.length = params.recBytes ∧
    fifo200.pushed - releasedView params fifo200 = params.capBytes / params.recBytes := by decide
theorem witness_CapacityLaw :
    LegalParams params ∧ params.visLag = .exact ∧ fifo000.ready = true ∧ FifoCounts params fifo000 ∧
    (inContext fifo000 .prod []).agent = some .prod ∧ fifo000.pushed = fifo000.released ∧
    [frameF, frameF].length = depth params ∧ ∀ b ∈ [frameF, frameF], b.length = params.recBytes :=
  ⟨by decide, by decide, by decide, counts000, by decide, by decide, by decide, by decide⟩
theorem witness_LagNeverOverrunsOrUnderruns :
    LegalParams params ∧ fifo200.ready = true ∧ FifoCounts params fifo200 ∧ FifoCounts params fifo000 ∧
    (inContext fifo200 .prod []).agent = some .prod ∧ frameF.length = params.recBytes ∧
    fifo200.pushed - fifo200.released = depth params ∧ (inContext fifo000 .cons []).agent = some .cons ∧
    (inContext fifo000 .cons []).cons.cstate ≠ .fatal ∧ fifo000.ready = true ∧ fifo000.popped = fifo000.pushed :=
  ⟨by decide, by decide, counts200, counts000, by decide, by decide, by decide, by decide, by decide, by decide,
    by decide⟩
theorem witness_PopResult :
    (inContext fifo100 .cons []).agent = some .cons ∧ (inContext fifo100 .cons []).cons.cstate ≠ .fatal ∧
    State.reset.fifo.ready = false ∧ fifo100.ready = true ∧
    pushedView params fifo100 - fifo100.popped > 0 ∧ fifo110.ready = true ∧
    pushedView params fifo110 - fifo110.popped = 0 ∧ (drawBelow 2 (inContext fifo110 .cons [0]).draws).1 = 0 ∧
    (drawBelow 2 (inContext fifo110 .cons [1]).draws).1 = 1 := by decide
theorem witness_ReleaseResult :
    (inContext fifo210 .cons []).agent = some .cons ∧ (inContext fifo210 .cons []).cons.cstate ≠ .fatal ∧
    State.reset.fifo.ready = false ∧ fifo100.ready = true ∧ fifo100.popped - fifo100.released = 0 ∧ fifo210.ready = true ∧ fifo210.popped - fifo210.released ≠ 0 ∧
    1 ≠ fifo210.fr % (params.capBytes / params.recBytes) ∧
    0 = fifo210.fr % (params.capBytes / params.recBytes) := by decide
theorem witness_PointersGiveCounts : 1 ≤ depth params ∧ FifoCounts params fifo200 ∧ params.visLag = .exact :=
  ⟨by decide, counts200, by decide⟩
theorem witness_FifoIsQueue :
    LegalParams params ∧ fifo210.ready = true ∧ FifoCounts params fifo210 ∧
    (∃ t, exec (.fifoTryPush frameF) (inContext fifo210 .prod []) = .next t ∧ t.result ≠ .accepted true) ∧
    (∃ t, exec (.fifoTryPush frameF) (inContext fifo110 .prod []) = .next t ∧ t.result = .accepted true) ∧
    (∃ t, exec (.fifoPop .forever) (inContext fifo210 .cons []) = .next t ∧ t.result = .handle 1) ∧
    (inContext fifo210 .cons []).cons.cstate ≠ .fatal ∧
    (∃ t, exec (.fifoRelease 0) (inContext fifo210 .cons []) = .next t) :=
  ⟨by decide, by decide, counts210, ⟨_, rfl, by decide⟩, ⟨_, rfl, by decide⟩, ⟨_, rfl, by decide⟩,
    by decide, ⟨_, rfl⟩⟩
theorem witness_WrongAgentRefused :
    start.agent ≠ some .host ∧ (inContext fifo000 .cons []).agent ≠ some .prod ∧
    (inContext fifo000 .prod []).agent ≠ some .cons := by decide

theorem witness_BcdEncodeResult : 99 ≤ 99 ∧ 99 < 100 := by decide
theorem witness_BcdRoundTrip : 99 ≤ 99 ∧ (0x99#8).toNat / 16 ≤ 9 ∧ (0x99#8).toNat % 16 ≤ 9 := by decide
theorem witness_TimePackResult :
    (inContext fifo000 .cons []).agent = some .cons ∧ (inContext fifo000 .cons []).cons.cstate ≠ .fatal ∧
    (⟨23, 59, 59⟩ : TimeFields).hours ≤ 23 ∧ (⟨23, 59, 59⟩ : TimeFields).minutes ≤ 59 ∧ (⟨23, 59, 59⟩ : TimeFields).seconds ≤ 59 ∧
    23 < (⟨24, 0, 0⟩ : TimeFields).hours ∧ 59 < (⟨0, 60, 0⟩ : TimeFields).minutes ∧
    59 < (⟨0, 0, 60⟩ : TimeFields).seconds := by decide
theorem witness_TimeUnpackResult :
    (inContext fifo000 .cons []).agent = some .cons ∧ (inContext fifo000 .cons []).cons.cstate ≠ .fatal := by decide

theorem witness_I2cInitResult :
    (busUp []).agent = some .cons ∧ (busUp []).cons.cstate ≠ .fatal ∧ (busUp []).i2c.busOpen = true ∧
    (inContext fifo000 .cons [0]).i2c.busOpen = false ∧ (drawBelow 2 (inContext fifo000 .cons [0]).draws).1 = 0 ∧
    (drawBelow 2 (inContext fifo000 .cons [1]).draws).1 ≠ 0 := by decide
theorem witness_EveryBusOutcomeIsDrawn :
    0 < 2 ∧ 1 < 2 ∧ (0 ≤ 8 ∧ (BusStatus.busErr = .ok → 0 = 8)) ∧ (8 ≤ 8 ∧ (BusStatus.ok = .ok → 8 = 8)) := by decide
theorem witness_BusWriteResult :
    (busUp []).agent = some .cons ∧ (busUp []).cons.cstate ≠ .fatal ∧ (busUp []).i2c.busOpen = true ∧
    (0xFA#8).toNat + (List.replicate 6 0#8).length ≤ 256 ∧ (0xFF#8).toNat + [0#8].length ≤ 256 ∧
    Untouched params 0 := ⟨by decide, by decide, by decide, by decide, by decide, .inl rfl⟩
theorem witness_BusRefusals :
    (busUp []).agent = some .cons ∧ (busUp []).cons.cstate ≠ .fatal ∧
    (inContext fifo000 .cons []).agent = some .cons ∧ (inContext fifo000 .cons []).cons.cstate ≠ .fatal ∧
    (inContext fifo000 .cons []).i2c.busOpen = false ∧ (busUp []).i2c.busOpen = true ∧
    256 < (0xFA#8).toNat + (List.replicate 7 0#8).length ∧ ([] : List Byte).length ≠ 1 ∧ [0#8, 0#8].length ≠ 1 ∧
    256 < (0xFF#8).toNat + 2 ∧ 23 < (⟨24, 0, 0⟩ : TimeFields).hours ∧ (⟨23, 59, 59⟩ : TimeFields).hours ≤ 23 ∧
    (⟨23, 59, 59⟩ : TimeFields).minutes ≤ 59 ∧ (⟨23, 59, 59⟩ : TimeFields).seconds ≤ 59 := by decide
theorem witness_BusReadResult :
    (busUp []).agent = some .cons ∧ (busUp []).cons.cstate ≠ .fatal ∧ (busUp []).i2c.busOpen = true ∧ 1 ≠ 0 ∧ (0xFF#8).toNat + 1 ≤ 256 := by decide
theorem witness_WriteTimeResult :
    LegalParams (busUp []).cfg ∧ (busUp []).agent = some .cons ∧ (busUp []).cons.cstate ≠ .fatal ∧
    (busUp []).i2c.busOpen = true ∧
    (⟨23, 59, 59⟩ : TimeFields).hours ≤ 23 ∧ (⟨23, 59, 59⟩ : TimeFields).minutes ≤ 59 ∧
    (⟨23, 59, 59⟩ : TimeFields).seconds ≤ 59 ∧ (drawStatus (busUp [0]).draws).1 = .ok := by decide
theorem witness_ReadRegsResult :
    (busUp []).agent = some .cons ∧ (busUp []).cons.cstate ≠ .fatal ∧ (busUp []).i2c.busOpen = true ∧ 3 ≠ 0 ∧ (0xFD#8).toNat + 3 ≤ 256 := by decide
theorem witness_ClockRoundTrip :
    ∃ s1 s3 r, LegalParams (busUp [0, 0]).cfg ∧ (busUp [0, 0]).cfg.rtcAtomicRead = true ∧
      exec (.rtcWriteTime ⟨23, 59, 59⟩) (busUp [0, 0]) = .next s1 ∧ s1.result = .success true ∧
      exec (.rtcReadRegs (busUp [0, 0]).cfg.timeBase 3) (runEvent (.chipFlags ⟨1#1, 1#1, 3#2⟩) s1) = .next s3 ∧
      s3.result = .bytes r := ⟨_, _, _, by decide, by decide, rfl, by decide, rfl, rfl⟩

/-- A machine with one due tick, over three time registers. -/
def ticking (b0 b1 b2 : Byte) : State :=
  { start with chip := { ptr := 0#8, regs := [(0, b0), (1, b1), (2, b2)] }, events := [⟨0, [], .tick⟩] }
/-- The four branches: a second, a minute, an hour, the day. -/
theorem witness_TickIsNextSecond :
    LegalParams params ∧ (ticking 0xD8#8 0#8 0#8).events = [⟨0, [], .tick⟩] ∧
    (ticking 0xD8#8 0#8 0#8).chip.regs.read? 0 = some 0xD8#8 ∧ unpackTime 0xD8#8 0#8 0#8 = ⟨0, 0, 58⟩ ∧
    unpackTime 0x59#8 0x58#8 0#8 = ⟨0, 58, 59⟩ ∧ unpackTime 0x59#8 0x59#8 0x22#8 = ⟨22, 59, 59⟩ ∧
    (ticking 0x59#8 0x59#8 0x63#8).chip.regs.read? 1 = some 0x59#8 ∧
    (ticking 0x59#8 0x59#8 0x63#8).chip.regs.read? 2 = some 0x63#8 ∧
    unpackTime 0x59#8 0x59#8 0x63#8 = ⟨23, 59, 59⟩ := by decide

theorem witness_FcLoadResult :
    (inContext fifo110 .cons []).agent = some .cons ∧ (inContext fifo110 .cons []).cons.cstate ≠ .fatal ∧
    onLoan params fifo110 1 = false ∧ LegalParams params ∧
    onLoan params fifo110 0 = true ∧ slotByte params fifo110 0 (params.metaBytes + params.fcOff) = some 0x80#8 ∧
    slotByte params fifo110 0 (params.metaBytes + params.fcOff + 1) = some 0x00#8 := by decide
/-- The consumer, the producer, and after a fatal cause the producer still. -/
theorem witness_FcDecodeResult :
    (busUp []).agent = some .cons ∧ ((busUp []).agent = some .cons → (busUp []).cons.cstate ≠ .fatal) ∧
    (inContext fifo000 .prod []).agent ≠ some .cons ∧
    (raise .busInit (inContext fifo000 .prod [])).cons.cstate = .fatal ∧
    (raise .busInit (inContext fifo000 .prod [])).agent ≠ some .cons := by decide
/-- The record's 14 bytes in the slot on loan: the hypotheses of AddrExtractResult, ParseResult and StepParseResult. -/
theorem witness_AddrExtractResult :
    (inContext fifo110 .cons []).agent = some .cons ∧ (inContext fifo110 .cons []).cons.cstate ≠ .fatal ∧
    onLoan params fifo110 1 = false ∧ LegalParams params ∧
    onLoan params fifo110 0 = true ∧ (List.replicate 6 0xff#8).length = 6 ∧
    (∀ k, k < 6 → slotByte params fifo110 0 (params.metaBytes + params.addrAOff + k) = (List.replicate 6 0xff#8)[k]?) ∧
    (∀ k, k < 6 → slotByte params fifo110 0 (params.metaBytes + params.addrBOff + k) =
      [0x02#8, 0x11#8, 0x22#8, 0x33#8, 0x44#8, 0x55#8][k]?) := by decide
theorem witness_ParseResult :
    (inContext fifo110 .cons []).agent = some .cons ∧ (inContext fifo110 .cons []).cons.cstate ≠ .fatal ∧
    onLoan params fifo110 1 = false ∧ LegalParams params ∧ onLoan params fifo110 0 = true ∧
    slotByte params fifo110 0 (params.metaBytes + params.fcOff) = some 0x80#8 ∧
    slotByte params fifo110 0 (params.metaBytes + params.fcOff + 1) = some 0x00#8 ∧
    (∀ k, k < 6 → slotByte params fifo110 0 (params.metaBytes + params.addrAOff + k) = (List.replicate 6 0xff#8)[k]?) ∧
    (∀ k, k < 6 → slotByte params fifo110 0 (params.metaBytes + params.addrBOff + k) =
      [0x02#8, 0x11#8, 0x22#8, 0x33#8, 0x44#8, 0x55#8][k]?) := by decide
/-- Two machines whose slots differ in byte 0 of the record, the first of its metadata, and nowhere among the 14. -/
theorem witness_ParserReadsFourteenBytes :
    let s := inContext fifo110 .cons []
    let s' := inContext { fifo110 with slots := fifo110.slots.write 0 0#8 } .cons []
    s'.cfg = s.cfg ∧ s.cons.cstate ≠ .fatal ∧ s'.cons.cstate ≠ .fatal ∧ slotByte params s.fifo 0 0 ≠ slotByte params s'.fifo 0 0 ∧
    (∀ k, k < 24 → (4 ≤ k ∧ k < 6) ∨ (8 ≤ k ∧ k < 14) ∨ (14 ≤ k ∧ k < 20) →
      slotByte params s.fifo 0 k = slotByte params s'.fifo 0 k) ∧
    (∃ t, exec (.macParse 0) s = .next t) ∧ ∃ t, exec (.macParse 0) s' = .next t :=
  ⟨rfl, by decide, by decide, by decide, by decide, ⟨_, rfl⟩, ⟨_, rfl⟩⟩
theorem witness_LoanedBlockParses :
    Inv (running fifo110 .s3Parse []) ∧ (running fifo110 .s3Parse []).fifo.ready = true ∧
    (running fifo110 .s3Parse []).agent = some .cons ∧ (running fifo110 .s3Parse []).cons.cstate ≠ .fatal ∧
    fifo110.released ≤ 0 ∧ 0 < fifo110.popped :=
  ⟨inv_running110, by decide, by decide, by decide, by decide, by decide⟩

theorem witness_OnFrameResult :
    (inContext fifo200 .prod []).agent = some .prod ∧ State.reset.fifo.ready = false ∧ fifo200.ready = true ∧
    fifo200.pushed - releasedView params fifo200 = depth params ∧ fifo100.ready = true ∧
    fifo100.pushed - releasedView params fifo100 ≠ depth params := by decide
theorem witness_ProducerIsBounded : (inContext fifo200 .prod []).agent = some .prod := by decide
/-- A frame event is due, before `FIFO.INIT`, over a full FIFO, over one with a free slot. -/
def offered (f : Fifo) : State := { inContext f .cons [] with events := [⟨0, [], .frame (some 100) 0 frameF⟩] }
theorem witness_FrameEventRunsCallback :
    LegalParams params ∧ (offered fifo100).events = [⟨0, [], .frame (some 100) 0 frameF⟩] ∧
    (offered State.reset.fifo).fifo.ready = false ∧ (offered fifo200).fifo.ready = true ∧ (some 100 : Option Nat) ≠ none ∧
    fifo200.pushed - releasedView params fifo200 = depth params ∧ (offered fifo100).fifo.ready = true ∧
    fifo100.pushed - releasedView params fifo100 ≠ depth params := by decide
theorem witness_RadioInitFailureIsFatal :
    LegalParams params ∧ start.cons.cstate = .init ∧
    ({ start with events := [⟨0, [], .radioInitFail⟩] } : State).events = [⟨0, [], .radioInitFail⟩] := by decide
theorem witness_ConsInitResult :
    (inContext fifo000 .cons [0, 0]).agent = some .cons ∧ LegalParams params ∧
    (inContext fifo000 .cons [0, 0]).cons.cstate = .init ∧ (inContext fifo000 .cons [0, 0]).i2c.busOpen = false ∧
    (drawBelow 2 (inContext fifo000 .cons [0, 0]).draws).1 = 0 ∧
    (drawStatus (drawBelow 2 (inContext fifo000 .cons [0, 0]).draws).2).1 = .ok ∧
    (drawBelow 2 (inContext fifo000 .cons [1]).draws).1 ≠ 0 ∧
    (drawBelow 2 (inContext fifo000 .cons [0, 2, 3]).draws).1 = 0 ∧
    (drawStatus (drawBelow 2 (inContext fifo000 .cons [0, 2, 3]).draws).2).1 ≠ .ok := by decide
/-- The FIFO at `(1; 2, 2, 1)`: slot 1 is on loan. -/
def secondLoan : Fifo := { fifo210 with rd := 2, popped := 2, fr := 1, released := 1 }
theorem witness_ConsumerRefusals :
    (raise .busInit (busUp [])).agent = some .cons ∧ (raise .busInit (busUp [])).cons.cstate = .fatal ∧
    (running fifo100 .s2Clock []).agent = some .cons ∧ (running fifo100 .s2Clock []).cons.cstate ≠ .init ∧
    (busUp []).cons.cstate = .init ∧ (busUp []).i2c.busOpen = true ∧
    (running State.reset.fifo .s1Pop []).cons.cstep = .s1Pop ∧ (running State.reset.fifo .s1Pop []).fifo.ready = false ∧
    ({ running fifo110 .s2Clock [] with i2c := State.reset.i2c } : State).i2c.busOpen = false ∧
    onLoan params fifo100 (running fifo100 .s3Parse []).cons.curHandle = false ∧
    ((running fifo100 .s4Sample []).cons.capCnt + 1) % params.sampleN = 0 ∧
    fifo100.ready = true ∧ fifo100.popped - fifo100.released = 0 ∧
    secondLoan.ready = true ∧ secondLoan.popped - secondLoan.released ≠ 0 ∧
    (running secondLoan .s5Release []).cons.curHandle ≠ secondLoan.fr % depth params ∧
    (inContext fifo000 .cons []).cons.cstate ≠ .running ∧ (running fifo100 .s2Clock []).cons.cstate = .running ∧
    (running fifo100 .s2Clock []).cons.cstep ≠ .s1Pop := by decide
theorem witness_StepPopResult :
    (running fifo100 .s1Pop []).agent = some .cons ∧ (running fifo100 .s1Pop []).cons.cstate = .running ∧
    (running fifo100 .s1Pop []).cons.cstep = .s1Pop ∧ fifo100.ready = true ∧
    pushedView params fifo100 - fifo100.popped > 0 ∧ fifo000.ready = true ∧
    pushedView params fifo000 - fifo000.popped = 0 := by decide
theorem witness_StepClockResult :
    (running fifo110 .s2Clock [0]).agent = some .cons ∧ LegalParams params ∧
    (running fifo110 .s2Clock [0]).i2c.busOpen = true ∧ (running fifo110 .s2Clock [0]).cons.cstate = .running ∧
    (running fifo110 .s2Clock [0]).cons.cstep = .s2Clock ∧ params.rtcAtomicRead = true ∧
    (drawStatus (running fifo110 .s2Clock [0]).draws).1 = .ok ∧
    (drawStatus (running fifo110 .s2Clock [1]).draws).1 = .timeout ∧
    (drawStatus (running fifo110 .s2Clock [2]).draws).1 = .busErr ∧
    chip252516.regs.read? params.timeBase.toNat = some 0x25#8 := by decide
theorem witness_StepParseResult :
    (running fifo110 .s3Parse []).agent = some .cons ∧ LegalParams params ∧
    (running fifo110 .s3Parse []).cons.cstate = .running ∧ (running fifo110 .s3Parse []).cons.cstep = .s3Parse ∧
    (running fifo110 .s3Parse []).cons.curHandle = 0 ∧ onLoan params fifo110 0 = true ∧
    slotByte params fifo110 0 (params.metaBytes + params.fcOff) = some 0x80#8 ∧
    slotByte params fifo110 0 (params.metaBytes + params.fcOff + 1) = some 0x00#8 ∧
    (∀ k, k < 6 → slotByte params fifo110 0 (params.metaBytes + params.addrAOff + k) = (List.replicate 6 0xff#8)[k]?) ∧
    (∀ k, k < 6 → slotByte params fifo110 0 (params.metaBytes + params.addrBOff + k) =
      [0x02#8, 0x11#8, 0x22#8, 0x33#8, 0x44#8, 0x55#8][k]?) := by decide
/-- A record that is not due (`SAMPLE_N` 2) and one that is. -/
theorem witness_StepSampleResult :
    (running fifo110 .s4Sample []).agent = some .cons ∧ LegalParams params ∧ LegalParams { params with sampleN := 2 } ∧
    (running fifo110 .s4Sample []).cons.cstate = .running ∧ (running fifo110 .s4Sample []).cons.cstep = .s4Sample ∧
    ((running fifo110 .s4Sample []).cons.capCnt + 1) % ({ params with sampleN := 2 } : Params).sampleN ≠ 0 ∧
    ((running fifo110 .s4Sample []).cons.capCnt + 1) % params.sampleN = 0 ∧
    onLoan params fifo110 (running fifo110 .s4Sample []).cons.curHandle = true ∧
    (frameF.take 4).length = params.metaBytes ∧
    (∀ k, k < 4 → slotByte params fifo110 0 k = (frameF.take 4)[k]?) := by decide
theorem witness_StepReleaseResult :
    (running fifo110 .s5Release []).agent = some .cons ∧ (running fifo110 .s5Release []).cons.cstate = .running ∧
    (running fifo110 .s5Release []).cons.cstep = .s5Release ∧ fifo110.ready = true ∧
    fifo110.popped - fifo110.released ≠ 0 ∧
    (running fifo110 .s5Release []).cons.curHandle = fifo110.fr % depth params := by decide
theorem witness_CycleNetEffect :
    Inv (running fifo100 .s1Pop []) ∧ ConsumerUp (running fifo100 .s1Pop []) ∧ OneLoan (running fifo100 .s1Pop []) ∧
    (running fifo100 .s1Pop []).agent = some .cons ∧ (running fifo100 .s1Pop []).cons.cstep = .s1Pop ∧
    pushedView params fifo100 - fifo100.popped > 0 ∧
    Inv (running fifo000 .s1Pop []) ∧ ConsumerUp (running fifo000 .s1Pop []) ∧ OneLoan (running fifo000 .s1Pop []) ∧
    pushedView params fifo000 - fifo000.popped = 0 :=
  ⟨inv_running100, ⟨by decide, by decide⟩, ⟨by decide, by decide⟩, by decide, by decide, by decide, inv_running000,
    ⟨by decide, by decide⟩, ⟨by decide, by decide⟩, by decide⟩

theorem witness_RunningConsumerNeverStops :
    Inv (running fifo110 .s3Parse []) ∧ ConsumerUp (running fifo110 .s3Parse []) ∧
    OneLoan (running fifo110 .s3Parse []) ∧ (running fifo110 .s3Parse []).agent = some .cons :=
  ⟨inv_running110, ⟨by decide, by decide⟩, ⟨by decide, by decide⟩, by decide⟩
theorem heldAtPop_running000 : HeldAtPop { running fifo000 .s1Pop [] with held := some .step } :=
  fun _ _ => ⟨rfl, .inr ⟨rfl, rfl⟩⟩
/-- A step of the consumer that pops, and one at which the hold stands. -/
theorem witness_EveryStepKeepsInvariant :
    Inv (running fifo100 .s1Pop []) ∧ (∃ t, step (running fifo100 .s1Pop []) = .next t) ∧
    HeldAtPop { running fifo000 .s1Pop [] with held := some .step } ∧
    ∃ t, step { running fifo000 .s1Pop [] with held := some .step } = .next t ∧ t.held = some .step :=
  ⟨inv_running100, ⟨_, rfl⟩, heldAtPop_running000, ⟨_, rfl, by decide⟩⟩
/-- A step out of S1_POP, one out of S3_PARSE, and a reset that is due. -/
theorem witness_ControlStateEdges :
    Inv (running fifo100 .s1Pop []) ∧
    (∃ t, step (running fifo100 .s1Pop []) = .next t ∧ t.cons.cstep = .s2Clock ∧ t.cons.cstate = .running) ∧
    Inv (running fifo110 .s3Parse []) ∧
    (∃ t, step (running fifo110 .s3Parse []) = .next t ∧ t.cons.cstep = .s4Sample) ∧
    ¬ ResetDue (running fifo110 .s3Parse []) ∧ Inv stopped ∧ ResetDue stopped ∧ ∃ t, step stopped = .next t :=
  ⟨inv_running100, ⟨_, rfl, by decide, by decide⟩, inv_running110, ⟨_, rfl, by decide⟩,
    (by rintro ⟨_, _, h⟩; cases h),
    ⟨by decide, fun _ => counts000, by constructor <;> decide, by constructor <;> decide⟩, ⟨_, _, rfl⟩, ⟨_, rfl⟩⟩
theorem witness_SampleCountIsKept :
    sampleCount (running fifo110 .s4Sample []).log = (running fifo110 .s4Sample []).cons.capCnt / params.sampleN ∧
    ∃ t, step (running fifo110 .s4Sample []) = .next t ∧ t.cons.capCnt = 1 := ⟨by decide, ⟨_, rfl, by decide⟩⟩
theorem witness_SingleWriterOfPointers :
    (∃ t, exec (.fifoPop .forever) (inContext fifo100 .cons []) = .next t) ∧
    (∃ t, exec (.fifoTryPush frameF) (inContext fifo100 .prod []) = .next t) ∧
    (inContext fifo100 .cons []).fifo.ready = true := ⟨⟨_, rfl⟩, ⟨_, rfl⟩, by decide⟩
/-- The holding consumer and the stopped one. -/
theorem witness_QuiescenceIsStable :
    Inv (running fifo000 .s1Pop []) ∧ HeldAtPop (running fifo000 .s1Pop []) ∧ Quiescent (running fifo000 .s1Pop []) ∧
    (running fifo000 .s1Pop []).sched = [] ∧ (running fifo000 .s1Pop []).events = [] ∧
    HeldAtPop { running fifo000 .s1Pop [] with held := some .step } ∧
    Inv (raise .radioInit (inContext fifo000 .cons [])) ∧ HeldAtPop (raise .radioInit (inContext fifo000 .cons [])) ∧
    Quiescent (raise .radioInit (inContext fifo000 .cons [])) :=
  ⟨inv_running000, (by intro h e; cases e),
    ⟨by simp [running, busUp, inContext, start, State.reset], by decide, by decide,
      .inl ⟨by decide, by decide, by decide, by decide, by intro d e; cases e⟩⟩, rfl, rfl, heldAtPop_running000,
    ⟨by decide, fun _ => counts000, by constructor <;> decide, by constructor <;> decide⟩,
    (by intro h e; cases e),
    ⟨by simp [raise, causeClass, inContext, start, State.reset], by decide, by decide, .inr (by decide)⟩⟩
/-- The start-up's draws are scripted; the read's outcome is the script's third. -/
theorem witness_EndToEnd :
    ∃ s1, Inv (inContext fifo000 .cons [0, 0, 0]) ∧ (inContext fifo000 .cons [0, 0, 0]).cfg.rtcAtomicRead = true ∧
      (inContext fifo000 .cons [0, 0, 0]).cfg.visLag = .exact ∧ fifo000.ready = true ∧
      fifo000.pushed = fifo000.released ∧ exec .consInit (inContext fifo000 .cons [0, 0, 0]) = .next s1 ∧
      s1.cons.cstate = .running ∧ params.recBytes ≤ (frameF ++ [0#8]).length ∧ s1.events = [] ∧
      (drawStatus (runEvent (.frame (some 100) 0 (frameF ++ [0#8])) s1).draws).1 = .ok :=
  ⟨_, ⟨by decide, fun _ => counts000, by constructor <;> decide, by constructor <;> decide⟩, by decide, by decide,
    by decide, by decide, rfl, by decide, by decide, by decide, by decide⟩
theorem witness_ParametersFixedAndStreamsGrow :
    (∃ t, step (running fifo110 .s4Sample []) = .next t ∧ t.log ≠ []) ∧ ¬ ResetDue (running fifo110 .s4Sample []) :=
  ⟨⟨_, rfl, by decide⟩, by rintro ⟨_, _, h⟩; cases h⟩
/-- A view behind by one, raised by one; and the exact view. -/
def lagging : State :=
  { start with
    cfg := { params with visLag := .conservative }
    fifo := { fifo110 with fr := 1, released := 1 }
    events := [⟨0, [], .sync 1 1⟩] }
theorem witness_SyncRaisesViews :
    LegalParams lagging.cfg ∧ lagging.events = [⟨0, [], .sync 1 1⟩] ∧ lagging.cfg.visLag = .conservative ∧
    lagging.fifo.frView ≤ lagging.fifo.released ∧ lagging.fifo.wrView ≤ lagging.fifo.pushed ∧
    lagging.fifo.frView < 1 ∧ 1 ≤ lagging.fifo.released ∧ 1 ≤ lagging.fifo.pushed ∧ LegalParams params ∧
    params.visLag = .exact := by decide
theorem witness_ByteFormatFields :
    (0x7F#8).toNat < 128 ∧ (0x3F#8).toNat < 64 ∧ 128 ≤ (0x80#8).toNat ∧ 64 ≤ (0x40#8).toNat ∧
    params.fcOff + 2 ≤ (List.replicate 16 0#8).length ∧ params.addrAOff + 6 ≤ (List.replicate 16 0#8).length ∧
    params.addrBOff + 6 ≤ (List.replicate 16 0#8).length ∧
    (List.replicate 15 0#8).length < params.addrBOff + 6 ∧ frameF.length = params.recBytes ∧
    params.metaBytes ≤ params.recBytes ∧ (frameF.drop 1).length ≠ params.recBytes := by decide

end Sys2Proof.Tests
end

section
/-! PROOFS. What one instruction can do (its guards included), and the whole-machine statements of 10_state.md that follow
from it: the invariant at reset and over every step, the held task context, the fixed parameters and the growing streams,
the counts the pointers give. -/
namespace Sys2Proof.Machine

/-! ### What one instruction can do -/

/-- The consumer issues the operation and is not stuck (R288, U30). -/
def ConsumerActs (s : State) : Prop := s.agent = some .cons ∧ s.cons.cstate ≠ .fatal

/-- Everything an instruction can do if it answers, with the guards it passed. -/
inductive Effect (s : State) : State → Prop
  | unchanged : Effect s s
  | result {t : State} (r : Result) : Effect s t → Effect s (withResult r t)
  | initFifo : s.agent = some .host → s.fifo.ready = false → Effect s { s with fifo := initFifo s.fifo }
  | push {b : List Byte} : s.agent = some .prod → s.fifo.ready = true → b.length = s.cfg.recBytes →
      fullSeen s.cfg s.fifo = false → Effect s { s with fifo := pushBlock s.cfg b s.fifo }
  | callback (p : Option Nat) : s.agent = some .prod → Effect s (onFrame p s)
  | draw (d : Draws) : ConsumerActs s → s.fifo.ready = true → emptySeen s.cfg s.fifo = true →
      Effect s { s with draws := d }
  | pop : ConsumerActs s → s.fifo.ready = true → emptySeen s.cfg s.fifo = false →
      Effect s { s with fifo := popBlock s.cfg s.fifo }
  | release {h : Nat} : ConsumerActs s → releaseRefusal s.cfg h s.fifo = none →
      Effect s { s with fifo := releaseBlock s.cfg s.fifo }
  | packTime {t : TimeFields} : ConsumerActs s → validTod t = true → Effect s (packTime t s)
  | unpackTime (r0 r1 r2 : Byte) : ConsumerActs s →
      Effect s { s with cons := { s.cons with todLast := unpackTime r0 r1 r2 } }
  | openBus : ConsumerActs s → s.i2c.busOpen = false → Effect s (openBus s)
  | transmit {l : List Byte} : ConsumerActs s → writeRefusal l s = none → Effect s (transmit l s)
  | writeTime {t : TimeFields} : ConsumerActs s → validTod t = true → writeRefusal (clockFrame s.cfg t) s = none →
      Effect s (writeTime t s)
  | transceive {w : Byte} {n : Nat} : ConsumerActs s → readRefusal w n s = none → Effect s (transceive w n s)
  | loadFc {h : Nat} {t : State} : ConsumerActs s → loadFc h s = .next t → Effect s t
  | decodeFc (fc : HalfWord) : ¬ (s.agent = some .cons ∧ s.cons.cstate = .fatal) → Effect s (decodeFc fc s)
  | extractAddrs {h : Nat} {t : State} : ConsumerActs s → extractAddrs h s = .next t → Effect s t
  | parseRecord {h : Nat} {t : State} : ConsumerActs s → parseRecord h s = .next t → Effect s t
  | start : s.agent = some .cons → s.cons.cstate = .init → s.i2c.busOpen = false → seedRefusal s.cfg = none →
      Effect s (startConsumer s)
  | step {t : State} : s.agent = some .cons → consumerStep s = .next t → Effect s t
  | cycle {t : State} : s.agent = some .cons → execConsCycle s = .next t → Effect s t

/-- An operation of the consumer's context leaves the stuck consumer as it is, and else does what it does. -/
theorem requireConsumer_effect {s t : State} {k : Out State} (h : requireConsumer s k = .next t)
    (hk : ConsumerActs s → k = .next t → Effect s t) : Effect s t := by
  obtain ⟨ha, ⟨_, rfl⟩ | ⟨hf, h⟩⟩ := requireConsumer_eq_next.1 h
  · exact .result _ .unchanged
  · exact hk ⟨ha, hf⟩ h

/-- A guard that refuses where it fails. -/
theorem ifElseRefused_eq_next {α : Type} {p : Prop} [Decidable p] {r : Refusal} {a b : α} :
    (if p then .next a else (.refused r : Out α)) = .next b ↔ p ∧ a = b := by
  split <;> simp [*]

/-- A guard that refuses where it holds. -/
theorem ifRefused_eq_next {α : Type} {p : Prop} [Decidable p] {r : Refusal} {x : Out α} {b : α} :
    (if p then .refused r else x) = .next b ↔ ¬ p ∧ x = .next b := by
  split <;> simp [*]

theorem execFifoInit_effect {s t : State} (h : execFifoInit s = .next t) : Effect s t := by
  obtain ⟨ha, h⟩ := requireAgent_eq_next.1 h
  obtain ⟨hr, h⟩ := ifRefused_eq_next.1 h
  cases h
  exact .result _ (.initFifo ha (by simpa using hr))

theorem execFifoTryPush_effect {b : List Byte} {s t : State} (h : execFifoTryPush b s = .next t) : Effect s t := by
  obtain ⟨ha, h⟩ := requireAgent_eq_next.1 h
  obtain ⟨hr, h⟩ := ifRefused_eq_next.1 h
  obtain ⟨hb, h⟩ := ifRefused_eq_next.1 h
  split at h
  · cases h
    exact .result _ .unchanged
  · rename_i hf
    cases h
    exact .result _ (.push ha (by simpa using hr) (by simpa using hb) (by simpa using hf))

theorem execFifoPop_effect {d : Deadline} {s t : State} (h : execFifoPop d s = .next t) : Effect s t :=
  requireConsumer_effect h fun hc h => by
    obtain ⟨hr, h⟩ := ifRefused_eq_next.1 h
    have hr : s.fifo.ready = true := by simpa using hr
    split at h
    · rename_i he
      split at h
      · cases h
        exact .result _ .unchanged
      · cases h
        exact .result _ (.draw _ hc hr he)
    · rename_i he
      cases h
      exact .result _ (.pop hc hr (by simpa using he))

theorem execI2cInit_effect {s t : State} (h : execI2cInit s = .next t) : Effect s t :=
  requireConsumer_effect h fun hc h => by
    obtain ⟨hb, h⟩ := ifRefused_eq_next.1 h
    cases h
    exact .result _ (.openBus hc (by simpa using hb))

theorem execI2cWriteRead_effect {w : List Byte} {n : Nat} {s t : State} (h : execI2cWriteRead w n s = .next t) :
    Effect s t :=
  requireConsumer_effect h fun hc h => by
    split at h
    · obtain ⟨hn, rfl⟩ := orRefuse_eq_next.1 h
      exact .result _ (.transceive hc hn)
    · split at h <;> cases h

theorem execRtcWriteTime_effect {x : TimeFields} {s t : State} (h : execRtcWriteTime x s = .next t) : Effect s t :=
  requireConsumer_effect h fun hc h => by
    split at h
    · rename_i hv
      obtain ⟨hn, rfl⟩ := orRefuse_eq_next.1 h
      exact .result _ (.writeTime hc hv hn)
    · cases h

theorem execMacFcDecode_effect {fc : HalfWord} {s t : State} (h : execMacFcDecode fc s = .next t) : Effect s t := by
  obtain ⟨_, _, rfl⟩ | ⟨hn, h⟩ := unlessStuck_eq_next.1 h
  · exact .result _ .unchanged
  · cases h
    exact .result _ (.decodeFc fc hn)

/-- What an instruction that answers has done. -/
theorem exec_effect {i : Instr} {s t : State} (h : exec i s = .next t) : Effect s t := by
  cases i with
  | fifoInit => exact execFifoInit_effect h
  | fifoTryPush b => exact execFifoTryPush_effect h
  | fifoPop d => exact execFifoPop_effect h
  | fifoRelease n =>
    exact requireConsumer_effect h fun hc h => by
      obtain ⟨hn, rfl⟩ := orRefuse_eq_next.1 h
      exact .result _ (.release hc hn)
  | bcdEnc v =>
    obtain ⟨_, h⟩ := ifRefused_eq_next.1 h
    cases h
    exact .result _ .unchanged
  | timePack x =>
    exact requireConsumer_effect h fun hc h => by
      obtain ⟨hv, rfl⟩ := ifElseRefused_eq_next.1 h
      exact .result _ (.packTime hc hv)
  | timeUnpack r0 r1 r2 =>
    exact requireConsumer_effect h fun hc h => by
      cases h
      exact .result _ (.unpackTime r0 r1 r2 hc)
  | i2cInit => exact execI2cInit_effect h
  | i2cWrite l =>
    exact requireConsumer_effect h fun hc h => by
      obtain ⟨hn, rfl⟩ := orRefuse_eq_next.1 h
      exact .result _ (.transmit hc hn)
  | i2cWriteRead w n => exact execI2cWriteRead_effect h
  | rtcWriteTime x => exact execRtcWriteTime_effect h
  | rtcReadRegs a n =>
    exact requireConsumer_effect h fun hc h => by
      obtain ⟨hn, rfl⟩ := orRefuse_eq_next.1 h
      exact .result _ (.transceive hc hn)
  | macFcLoad n =>
    exact requireConsumer_effect h fun hc h => by
      obtain ⟨u, hu, h⟩ := andThen_eq_next.1 h
      cases h
      exact .result _ (.loadFc hc hu)
  | macFcDecode fc => exact execMacFcDecode_effect h
  | macAddrExtract n =>
    exact requireConsumer_effect h fun hc h => by
      obtain ⟨u, hu, h⟩ := andThen_eq_next.1 h
      cases h
      exact .result _ (.extractAddrs hc hu)
  | macParse n =>
    exact requireConsumer_effect h fun hc h => by
      obtain ⟨u, hu, h⟩ := andThen_eq_next.1 h
      cases h
      exact .result _ (.parseRecord hc hu)
  | prodOnFrame p ft =>
    obtain ⟨ha, h⟩ := requireAgent_eq_next.1 h
    cases h
    exact .result _ (.callback p ha)
  | consInit =>
    obtain ⟨ha, hi, hb, hs, rfl⟩ := execConsInit_eq_next h
    exact .start ha hi hb hs
  | consStep =>
    obtain ⟨ha, h⟩ := requireAgent_eq_next.1 h
    exact .step ha h
  | consCycle => exact .cycle (requireAgent_eq_next.1 h).1 h
  | fmtClockRegisterFrame b0 b1 b2 b3 b4 b5 b6 b7 =>
    obtain ⟨_, rfl⟩ := ifElseRefused_eq_next.1 h
    exact .result _ .unchanged
  | fmtLinkHeader l =>
    obtain ⟨_, rfl⟩ := ifElseRefused_eq_next.1 h
    exact .result _ .unchanged
  | fmtCaptureRecord l =>
    obtain ⟨_, rfl⟩ := ifElseRefused_eq_next.1 h
    exact .result _ .unchanged
  | bcdDec _ | fmtFrameControl _ | fmtBcdByte _ | fmtSecondsReg _ | fmtMinutesReg _ | fmtHoursReg _
  | fmtI2cAddressByte _ =>
    cases h
    exact .result _ .unchanged

/-! ### The invariant, part by part -/

/-- The FIFO's part of the invariant: its counts once it is initialised, its slots in their space (R24, R70, R149). -/
structure FifoWf (c : Params) (f : Fifo) : Prop where
  counts  : f.ready = true → FifoCounts c f
  slots   : f.slots.wf
  slotsIn : ∀ x ∈ f.slots, x.1 < depth c * c.recBytes

section Parts
variable {s t : State} (h : Inv s)
include h

theorem Inv.fifoWf : FifoWf s.cfg s.fifo := ⟨h.fifo, h.memories.slots, h.memories.slotsIn⟩

theorem Inv.chipWf : ChipWf s.chip := ⟨h.memories.registers, h.memories.registerIn⟩

theorem Inv.depth_pos : 1 ≤ depth s.cfg := by
  obtain ⟨_, _, hd, _⟩ := h.params
  exact hd

theorem Inv.timeBase_le : s.cfg.timeBase.toNat + 6 ≤ 255 := by
  obtain ⟨_, _, _, _, _, ht⟩ := h.params
  exact ht

theorem Inv.seedTod_valid : validTod s.cfg.seedTod = true := by
  obtain ⟨_, _, _, _, hv, _⟩ := h.params
  exact hv

end Parts

theorem Inv.of_parts {s : State} (hp : LegalParams s.cfg) (hf : FifoWf s.cfg s.fifo) (hk : ChipWf s.chip)
    (hb : Memory.wf s.hwbuf) (hr : RegistersWf s) : Inv s :=
  ⟨hp, hf.counts, ⟨hf.slots, hf.slotsIn, hk.canonical, hk.inside, hb⟩, hr⟩

/-- The registers' part looks at the parameters, the consumer, `bus_open` and `txbuf` alone. -/
theorem RegistersWf.congr {s t : State} (h : RegistersWf s) (hc : t.cfg = s.cfg := by rfl)
    (hk : t.cons = s.cons := by rfl) (ho : t.i2c.busOpen = s.i2c.busOpen := by rfl)
    (hx : t.i2c.txbuf = s.i2c.txbuf := by rfl) : RegistersWf t where
  hours := hk ▸ h.hours
  minutes := hk ▸ h.minutes
  seconds := hk ▸ h.seconds
  addrA := hk ▸ h.addrA
  addrB := hk ▸ h.addrB
  txbuf := hx ▸ h.txbuf
  validStep := hk ▸ h.validStep
  handleIn := hk ▸ hc ▸ h.handleIn
  initAtS1 := hk ▸ h.initAtS1
  runningBus := hk ▸ ho ▸ h.runningBus

/-- A change of fields the invariant does not look at. -/
theorem Inv.congr {s t : State} (h : Inv s) (hc : t.cfg = s.cfg := by rfl) (hf : t.fifo = s.fifo := by rfl)
    (hp : t.chip = s.chip := by rfl) (hb : t.hwbuf = s.hwbuf := by rfl) (hk : t.cons = s.cons := by rfl)
    (ho : t.i2c.busOpen = s.i2c.busOpen := by rfl) (hx : t.i2c.txbuf = s.i2c.txbuf := by rfl) : Inv t :=
  .of_parts (hc ▸ h.params) (hc ▸ hf ▸ h.fifoWf) (hp ▸ h.chipWf) (hb ▸ h.memories.buffer)
    (h.registers.congr hc hk ho hx)

theorem Inv.withFifo {s : State} (h : Inv s) {f : Fifo} (hf : FifoWf s.cfg f) : Inv { s with fifo := f } :=
  .of_parts h.params hf h.chipWf h.memories.buffer h.registers.congr

theorem Inv.withChip {s : State} (h : Inv s) {k : Chip} (hk : ChipWf k) : Inv { s with chip := k } :=
  .of_parts h.params h.fifoWf hk h.memories.buffer h.registers.congr

theorem Inv.withHwbuf {s : State} (h : Inv s) {m : Memory} (hm : m.wf) : Inv { s with hwbuf := m } :=
  .of_parts h.params h.fifoWf h.chipWf hm h.registers.congr

theorem Inv.withCons {s : State} (h : Inv s) {k : Consumer} (hr : RegistersWf { s with cons := k }) :
    Inv { s with cons := k } := .of_parts h.params h.fifoWf h.chipWf h.memories.buffer hr

/-! ### The FIFO's updates keep its part -/

theorem FifoWf.init {c : Params} {f : Fifo} (h : FifoWf c f) : FifoWf c (initFifo f) :=
  ⟨fun _ => initFifo_counts c f, h.slots, h.slotsIn⟩

theorem FifoWf.push {c : Params} {b : List Byte} {f : Fifo} (h : FifoWf c f) (hd : 1 ≤ depth c) (hr : f.ready = true)
    (hf : fullSeen c f = false) (hb : b.length = c.recBytes) : FifoWf c (pushBlock c b f) :=
  ⟨fun _ => (h.counts hr).push hf hb, pushBlock_wf h.slots, pushBlock_slotsIn hd hb h.slotsIn⟩

theorem FifoWf.pop {c : Params} {f : Fifo} (h : FifoWf c f) (hr : f.ready = true) (he : emptySeen c f = false) :
    FifoWf c (popBlock c f) := ⟨fun _ => (h.counts hr).pop he, h.slots, h.slotsIn⟩

theorem FifoWf.release {c : Params} {f : Fifo} (h : FifoWf c f) (hr : f.ready = true) (hl : loanedBlocks f ≠ 0) :
    FifoWf c (releaseBlock c f) := ⟨fun _ => (h.counts hr).release hl, h.slots, h.slotsIn⟩

theorem FifoWf.sync {c : Params} {f : Fifo} (h : FifoWf c f) (x y : Nat) : FifoWf c (syncViews x y f) :=
  ⟨fun hr => (h.counts hr).sync x y, h.slots, h.slotsIn⟩

/-! ### The bus and the codec keep the invariant -/

/-- The ranges of `tod_last` hold of whatever the masks let through (R32, R174). -/
theorem unpackTime_le (r0 r1 r2 : Byte) :
    (unpackTime r0 r1 r2).hours ≤ 45 ∧ (unpackTime r0 r1 r2).minutes ≤ 85 ∧ (unpackTime r0 r1 r2).seconds ≤ 85 := by
  rw [unpackTime_eq]
  refine ⟨?_, ?_, ?_⟩ <;> dsimp only <;> omega

theorem Inv.unpackTime {s : State} (h : Inv s) (r0 r1 r2 : Byte) :
    Inv { s with cons := { s.cons with todLast := unpackTime r0 r1 r2 } } := by
  obtain ⟨hh, hm, hs⟩ := unpackTime_le r0 r1 r2
  exact h.withCons { h.registers with hours := hh, minutes := hm, seconds := hs }

theorem Inv.packTime {s : State} (h : Inv s) (x : TimeFields) : Inv (packTime x s) :=
  .of_parts h.params h.fifoWf h.chipWf h.memories.buffer { h.registers with txbuf := rfl }

/-- A write that is not refused is a pointer and data that end at register 0xFF at the latest (R191). -/
theorem writeRefusal_none {l : List Byte} {s : State} (h : writeRefusal l s = none) :
    ∃ p data, l = p :: data ∧ p.toNat + data.length ≤ 256 := by
  unfold writeRefusal at h
  split at h
  · cases h
  · split at h
    · cases h
    · split at h
      · cases h
      · exact ⟨_, _, rfl, by omega⟩

theorem Inv.transmit {s : State} (h : Inv s) {p : Byte} {data : List Byte} (hl : p.toNat + data.length ≤ 256) :
    Inv (transmit (p :: data) s) :=
  .of_parts h.params h.fifoWf (transmit_chipWf h.chipWf h.timeBase_le hl) h.memories.buffer h.registers.congr

/-- The seven data bytes of a ClockRegisterFrame stay inside the register space (R312). -/
theorem Inv.writeTime {s : State} (h : Inv s) (x : TimeFields) : Inv (writeTime x s) :=
  (h.packTime x).transmit (show s.cfg.timeBase.toNat + 7 ≤ 256 from Nat.succ_le_succ h.timeBase_le)

theorem Inv.transceive {s : State} (h : Inv s) (w : Byte) (n : Nat) : Inv (transceive w n s) :=
  .of_parts (by simpa using h.params) (by simpa using h.fifoWf) (transceive_chipWf h.chipWf h.timeBase_le w n)
    (by simpa using h.memories.buffer)
    (h.registers.congr (transceive_cfg w n s) (transceive_cons w n s) (transceive_busOpen w n s)
      (transceive_txbuf w n s))

/-- FATAL keeps the registers' ranges: no clause is about it. -/
theorem Inv.fatal {s : State} (h : Inv s) : Inv { s with cons := { s.cons with cstate := .fatal } } :=
  h.withCons { h.registers with initAtS1 := nofun, runningBus := nofun }

theorem Inv.openBus {s : State} (h : Inv s) : Inv (openBus s) := by
  rcases openBus_cases s with ⟨_, e⟩ | ⟨_, e⟩ <;> rw [e]
  · exact .of_parts h.params h.fifoWf h.chipWf h.memories.buffer { h.registers with runningBus := fun _ => rfl }
  · exact h.fatal.congr

/-! ### The parser and the producer keep the invariant -/

theorem Inv.loadFc {n : Nat} {s t : State} (h : Inv s) (ht : loadFc n s = .next t) : Inv t := by
  obtain ⟨l, _, rfl⟩ := loadFc_eq_next ht
  exact h.withCons { h.registers with }

theorem Inv.decodeFc {s : State} (h : Inv s) (fc : HalfWord) : Inv (decodeFc fc s) :=
  h.withCons { h.registers with }

theorem Inv.extractAddrs {n : Nat} {s t : State} (h : Inv s) (ht : extractAddrs n s = .next t) : Inv t := by
  obtain ⟨a, b, ha, hb, rfl⟩ := extractAddrs_eq_next ht
  exact h.withCons { h.registers with addrA := readSlot_length ha, addrB := readSlot_length hb }

theorem Inv.parseRecord {n : Nat} {s t : State} (h : Inv s) (ht : parseRecord n s = .next t) : Inv t := by
  obtain ⟨u, hu, ht⟩ := andThen_eq_next.1 ht
  exact ((h.loadFc hu).decodeFc u.cons.fcReg).extractAddrs ht

theorem Inv.onFrame {s : State} (h : Inv s) (p : Option Nat) : Inv (onFrame p s) := by
  rcases onFrame_cases p s with ⟨_, e⟩ | ⟨hr, a, b, d, _, hb, _, ⟨_, e⟩ | ⟨hf, e⟩⟩ <;> rw [e]
  · exact h
  · exact h.congr
  · exact (h.withFifo (h.fifoWf.push h.depth_pos hr hf hb)).congr

/-! ### The consumer keeps the invariant -/

/-- The consumer moves on from one step with a block on loan to the next (R243 to R245). -/
theorem Inv.moveOn {s : State} (h : Inv s) (hrun : s.cons.cstate = .running) (hs : s.cons.cstep ≠ .s1Pop) {x : CStep}
    (hx : x ≠ .s1Pop) : Inv { s with cons := { s.cons with cstep := x } } :=
  h.withCons { h.registers with
    validStep := iff_of_true (h.registers.validStep.2 hs) hx
    initAtS1 := fun hi => by cases hrun.symm.trans hi }

theorem Inv.stepPop {s t : State} (h : Inv s) (hrun : s.cons.cstate = .running) (ht : stepPop s = .next t) :
    Inv t := by
  obtain ⟨hr, ⟨_, rfl⟩ | ⟨he, rfl⟩⟩ := stepPop_eq_next ht
  · exact h.congr
  · exact .of_parts h.params (h.fifoWf.pop hr he) h.chipWf h.memories.buffer
      { h.registers with
        validStep := by simp
        handleIn := Nat.mod_lt _ h.depth_pos
        initAtS1 := fun hi => by cases hrun.symm.trans hi }

theorem Inv.finishClock {s : State} (h : Inv s) (hrun : s.cons.cstate = .running) (hs : s.cons.cstep ≠ .s1Pop) :
    Inv (finishClock s) := by
  have hmove := h.moveOn hrun hs (x := .s3Parse) (by simp)
  rcases finishClock_cases s with ⟨_, e⟩ | ⟨_, c, _, e⟩ <;> rw [e]
  · obtain ⟨hh, hm, hs⟩ := unpackTime_le (s.i2c.rxbuf.getD 0 0#8) (s.i2c.rxbuf.getD 1 0#8) (s.i2c.rxbuf.getD 2 0#8)
    exact .of_parts h.params h.fifoWf h.chipWf h.memories.buffer
      { hmove.registers with hours := hh, minutes := hm, seconds := hs }
  · exact .of_parts h.params h.fifoWf h.chipWf h.memories.buffer { hmove.registers with }

theorem Inv.stepClock {s t : State} (h : Inv s) (hrun : s.cons.cstate = .running) (hs : s.cons.cstep ≠ .s1Pop)
    (ht : stepClock s = .next t) : Inv t := by
  obtain ⟨_, rfl⟩ := stepClock_eq_next ht
  exact (h.transceive _ _).finishClock (by simpa using hrun) (by simpa using hs)

/-- The parser touches no control register. -/
theorem parseRecord_control {n : Nat} {s t : State} (ht : parseRecord n s = .next t) :
    t.cons.cstate = s.cons.cstate ∧ t.cons.cstep = s.cons.cstep := by
  obtain ⟨_, _, _, _, _, _, rfl⟩ := parseRecord_eq_next ht
  exact ⟨rfl, rfl⟩

theorem Inv.stepParse {s t : State} (h : Inv s) (hrun : s.cons.cstate = .running) (hs : s.cons.cstep ≠ .s1Pop)
    (ht : stepParse s = .next t) : Inv t := by
  obtain ⟨u, hu, rfl⟩ := stepParse_eq_next ht
  obtain ⟨hstate, hstep⟩ := parseRecord_control hu
  exact ((h.parseRecord hu).moveOn (x := .s4Sample) (hstate ▸ hrun) (hstep ▸ hs) (by simp)).congr

theorem Inv.stepSample {s t : State} (h : Inv s) (hrun : s.cons.cstate = .running) (hs : s.cons.cstep ≠ .s1Pop)
    (ht : stepSample s = .next t) : Inv t := by
  have hmove := h.moveOn hrun hs (x := .s5Release) (by simp)
  rcases stepSample_eq_next ht with ⟨_, rfl⟩ | ⟨_, m, _, rfl⟩ <;>
    exact .of_parts h.params h.fifoWf h.chipWf h.memories.buffer { hmove.registers with }

theorem Inv.stepRelease {s t : State} (h : Inv s) (ht : stepRelease s = .next t) : Inv t := by
  obtain ⟨hr, hl, _, rfl⟩ := stepRelease_eq_next ht
  exact .of_parts h.params (h.fifoWf.release hr hl) h.chipWf h.memories.buffer
    { h.registers with validStep := by simp, initAtS1 := fun _ => rfl }

theorem Inv.consumerStep {s t : State} (h : Inv s) (ht : consumerStep s = .next t) : Inv t := by
  obtain ⟨hrun, hs⟩ := consumerStep_eq_next ht
  rcases hs with ⟨_, ht⟩ | ⟨hs, ht⟩ | ⟨hs, ht⟩ | ⟨hs, ht⟩ | ⟨_, ht⟩
  · exact h.stepPop hrun ht
  · exact h.stepClock hrun (by simp [hs]) ht
  · exact h.stepParse hrun (by simp [hs]) ht
  · exact h.stepSample hrun (by simp [hs]) ht
  · exact h.stepRelease ht

/-- Opening the bus leaves `cstep` as it is. -/
theorem openBus_cstep (s : State) : (Machine.openBus s).cons.cstep = s.cons.cstep := by
  rcases openBus_cases s with ⟨_, e⟩ | ⟨_, e⟩ <;> rw [e]

theorem Inv.finishInit {s : State} (h : Inv s) (hs : s.cons.cstep = .s1Pop) (hb : s.i2c.busOpen = true) :
    Inv (finishInit s) := by
  rcases finishInit_cases s with ⟨_, e⟩ | ⟨_, e⟩ <;> rw [e]
  · obtain ⟨hh, hm, hsec⟩ := (validTod_iff _).1 h.seedTod_valid
    exact .of_parts h.params h.fifoWf h.chipWf h.memories.buffer
      { h.registers with
        hours := Nat.le_trans hh (by decide)
        minutes := Nat.le_trans hm (by decide)
        seconds := Nat.le_trans hsec (by decide)
        validStep := hs ▸ h.registers.validStep
        initAtS1 := nofun
        runningBus := fun _ => hb }
  · exact h.fatal.congr

theorem Inv.startConsumer {s : State} (h : Inv s) (hi : s.cons.cstate = .init) : Inv (startConsumer s) := by
  unfold Machine.startConsumer
  split
  · rename_i hb
    exact (h.openBus.writeTime _).finishInit ((openBus_cstep s).trans (h.registers.initAtS1 hi)) hb
  · exact h.openBus.congr

/-! ### The environment keeps the invariant -/

theorem offeredBuffer_wf (p : Option Nat) (frame : List Byte) : (offeredBuffer p frame).wf := by
  cases p with
  | none => exact .nil
  | some a => exact Memory.writeList_wf a frame .nil

theorem Inv.radioFrame {s : State} (h : Inv s) (p : Option Nat) (frame : List Byte) : Inv (radioFrame p frame s) :=
  ((((h.withHwbuf (offeredBuffer_wf p frame)).congr (t := { s with
    hwbuf := offeredBuffer p frame, agent := some .prod })).onFrame p).withHwbuf .nil).congr

theorem Inv.radioInitFailed {s : State} (h : Inv s) : Inv (radioInitFailed s) := by
  unfold Machine.radioInitFailed
  split
  · exact h.fatal.congr
  · exact h.congr

theorem resetFifo_wf (c : Params) : FifoWf c State.reset.fifo := ⟨nofun, .nil, nofun⟩

/-- The registers of a block just reset are in their ranges, under any parameters with a slot (R310). -/
theorem resetRegisters_wf {s : State} (hd : 1 ≤ depth s.cfg) (hk : s.cons = State.reset.cons)
    (hm : s.i2c = State.reset.i2c) : RegistersWf s := by
  constructor <;> simp only [hk, hm]
  case handleIn => exact hd
  all_goals decide

theorem Inv.resetBlock {s : State} (h : Inv s) : Inv (resetBlock s) :=
  .of_parts h.params (resetFifo_wf _) h.chipWf h.memories.buffer (resetRegisters_wf h.depth_pos rfl rfl)

/-- `SYNC` updates the views or, with exact visibility, nothing (R83). -/
theorem runEvent_sync_cases (x y : Nat) (s : State) :
    runEvent (.sync x y) s = s ∨ runEvent (.sync x y) s = { s with fifo := syncViews x y s.fifo } := by
  cases hv : s.cfg.visLag with
  | exact => exact .inl (by simp [runEvent, hv])
  | conservative => exact .inr (by simp [runEvent, hv])

theorem Inv.runEvent {s : State} (h : Inv s) (k : EventKind) : Inv (runEvent k s) := by
  cases k with
  | frame p ft frame => exact h.radioFrame p frame
  | tick => exact (h.withChip (h.chipWf.tick h.timeBase_le s.draws)).congr
  | chipFlags f => exact h.withChip (h.chipWf.setFlags h.timeBase_le f)
  | sync x y =>
    rcases runEvent_sync_cases x y s with e | e <;> rw [e]
    · exact h
    · exact h.withFifo (h.fifoWf.sync x y)
  | radioInitFail => exact h.radioInitFailed
  | reset => exact h.resetBlock

theorem Inv.execConsCycle {s t : State} (h : Inv s) (ht : execConsCycle s = .next t) : Inv t :=
  consCycle_induct (fun _ _ h ht => h.consumerStep ht)
    (fun _ h => betweenSteps_induct (fun k _ _ h => h.runEvent k) (fun _ _ h => h.congr) (fun _ _ h => h.congr) h) h ht

/-! ### Every instruction and every step keeps the invariant -/

theorem Inv.effect {s t : State} (h : Inv s) (ht : Effect s t) : Inv t := by
  induction ht with
  | unchanged => exact h
  | result r _ ih => exact ih.congr
  | initFifo => exact h.withFifo h.fifoWf.init
  | push _ hr hb hf => exact h.withFifo (h.fifoWf.push h.depth_pos hr hf hb)
  | callback p => exact h.onFrame p
  | draw d => exact h.congr
  | pop _ hr he => exact h.withFifo (h.fifoWf.pop hr he)
  | release _ hn =>
    obtain ⟨hr, hl, _⟩ := releaseRefusal_none.1 hn
    exact h.withFifo (h.fifoWf.release hr hl)
  | packTime => exact h.packTime _
  | unpackTime r0 r1 r2 => exact h.unpackTime r0 r1 r2
  | openBus => exact h.openBus
  | transmit _ hn =>
    obtain ⟨p, data, rfl, hl⟩ := writeRefusal_none hn
    exact h.transmit hl
  | writeTime => exact h.writeTime _
  | transceive => exact h.transceive _ _
  | loadFc _ ht => exact h.loadFc ht
  | decodeFc fc => exact h.decodeFc fc
  | extractAddrs _ ht => exact h.extractAddrs ht
  | parseRecord _ ht => exact h.parseRecord ht
  | start _ hi => exact h.startConsumer hi
  | step _ ht => exact h.consumerStep ht
  | cycle _ ht => exact h.execConsCycle ht

theorem Inv.runStep {s t : State} (h : Inv s) (ht : runStep s = .next t) : Inv t :=
  runStep_induct (fun k _ h => h.runEvent k) (fun _ _ _ h ht => h.effect (exec_effect ht)) (fun _ _ h => h.congr)
    (fun _ _ h => h.congr) (fun _ _ h => h.congr) (fun _ _ h => h.congr) (fun _ _ h => h.congr) h ht

/-- A step is one under legal parameters (R312). -/
theorem step_eq_next {s t : State} : step s = .next t ↔ LegalParams s.cfg ∧ runStep s = .next t := by
  unfold step
  split
  · rename_i hp
    exact ⟨fun h => ⟨hp, h⟩, And.right⟩
  · rename_i hp
    exact ⟨nofun, fun h => absurd h.1 hp⟩

/-! ### The held task context -/

/-- The task context may be held at `x`: a pop of an initialised channel, the consumer's own at S1_POP (R142, R288). -/
def AtPop (s : State) (x : Hold) : Prop :=
  s.fifo.ready = true ∧ ((∃ d, x = .pop d) ∨ (s.cons.cstate = .running ∧ s.cons.cstep = .s1Pop))

/-- What keeps a hold where it is: the channel stays initialised, and the running consumer runs on at the same step. -/
structure KeepsPop (s t : State) : Prop where
  ready   : s.fifo.ready = true → t.fifo.ready = true
  running : s.cons.cstate = .running → t.cons.cstate = .running ∧ t.cons.cstep = s.cons.cstep

theorem KeepsPop.of_cons {s t : State} (hr : t.fifo.ready = s.fifo.ready) (hk : t.cons = s.cons) : KeepsPop s t :=
  ⟨fun h => hr.trans h, fun h => by rw [hk]; exact ⟨h, rfl⟩⟩

theorem AtPop.keep {s t : State} {x : Hold} (h : AtPop s x) (hk : KeepsPop s t) : AtPop t x := by
  obtain ⟨hr, hx⟩ := h
  refine ⟨hk.ready hr, hx.imp_right fun ⟨hrun, hs⟩ => ?_⟩
  obtain ⟨hrun', hs'⟩ := hk.running hrun
  exact ⟨hrun', hs'.trans hs⟩

/-- The held context of a state that kept both its hold and what the hold is about. -/
theorem HeldAtPop.keep {s t : State} (h : HeldAtPop s) (hh : t.held = s.held) (hk : KeepsPop s t) : HeldAtPop t :=
  fun x hx => (show AtPop s x from h x (hh ▸ hx)).keep hk

@[simp] theorem onFrame_ready (p : Option Nat) (s : State) : (onFrame p s).fifo.ready = s.fifo.ready := by
  rcases onFrame_cases p s with ⟨_, e⟩ | ⟨_, _, _, _, _, _, _, ⟨_, e⟩ | ⟨_, e⟩⟩ <;> rw [e]
  rfl

/-- Only a reset makes the environment lift a hold. -/
theorem runEvent_keepsPop {k : EventKind} (hk : k ≠ .reset) (s : State) : KeepsPop s (runEvent k s) := by
  cases k with
  | frame p ft frame => exact .of_cons (onFrame_ready p _) (radioFrame_cons p frame s)
  | tick => exact .of_cons rfl rfl
  | chipFlags f => exact .of_cons rfl rfl
  | sync x y => rcases runEvent_sync_cases x y s with e | e <;> rw [e] <;> exact .of_cons rfl rfl
  | radioInitFail =>
    refine ⟨fun h => by simpa [runEvent] using h, fun h => ?_⟩
    have hc : (runEvent .radioInitFail s).cons = s.cons := by simp [runEvent, radioInitFailed, h]
    rw [hc]
    exact ⟨h, rfl⟩
  | reset => exact absurd rfl hk

/-- No other agent's instruction lifts a hold of the task context. -/
theorem Effect.keepsPop {s t : State} (h : Effect s t) (ha : s.agent ≠ some .cons) : KeepsPop s t := by
  induction h with
  | unchanged => exact .of_cons rfl rfl
  | result r _ ih => exact ⟨ih.ready, ih.running⟩
  | initFifo => exact ⟨fun _ => rfl, fun hrun => ⟨hrun, rfl⟩⟩
  | push => exact .of_cons rfl rfl
  | callback p => exact .of_cons (onFrame_ready p s) (onFrame_cons p s)
  | decodeFc fc => exact ⟨id, fun hrun => ⟨hrun, rfl⟩⟩
  | draw _ hc | pop hc | release hc | packTime hc | unpackTime _ _ _ hc | openBus hc | transmit hc | writeTime hc
  | transceive hc | loadFc hc | extractAddrs hc | parseRecord hc => exact absurd hc.1 ha
  | start hc | step hc | cycle hc => exact absurd hc ha

/-- The consumer's step holds at S1_POP only (R242, R288). -/
theorem consumerStep_hold {s t : State} (h : consumerStep s = .next t) (hr : t.result = .hold) :
    t.fifo.ready = true ∧ t.cons.cstate = .running ∧ t.cons.cstep = .s1Pop := by
  obtain ⟨hrun, h⟩ := consumerStep_eq_next h
  rcases h with ⟨hs, h⟩ | ⟨_, h⟩ | ⟨_, h⟩ | ⟨_, h⟩ | ⟨_, h⟩
  · obtain ⟨hready, ⟨_, rfl⟩ | ⟨_, rfl⟩⟩ := stepPop_eq_next h
    · exact ⟨hready, hrun, hs⟩
    · cases hr
  · obtain ⟨_, rfl⟩ := stepClock_eq_next h
    rcases finishClock_cases (transceive s.cfg.timeBase Config.readLen s) with ⟨_, e⟩ | ⟨_, _, _, e⟩ <;>
      · rw [e] at hr
        cases hr
  · obtain ⟨_, _, rfl⟩ := stepParse_eq_next h
    cases hr
  · rcases stepSample_eq_next h with ⟨_, rfl⟩ | ⟨_, _, _, rfl⟩ <;> cases hr
  · obtain ⟨_, _, _, rfl⟩ := stepRelease_eq_next h
    cases hr

/-- A pass ends in a step of the consumer, the first or the fifth (R247). -/
theorem execConsCycle_last {s t : State} (h : execConsCycle s = .next t) : ∃ u, consumerStep u = .next t := by
  obtain ⟨_, h⟩ := requireAgent_eq_next.1 h
  obtain ⟨_, h⟩ := ifRefused_eq_next.1 h
  obtain ⟨_, h⟩ := ifRefused_eq_next.1 h
  obtain ⟨s1, h1, h⟩ := andThen_eq_next.1 h
  split at h
  · cases h
    exact ⟨s, h1⟩
  · obtain ⟨_, _, h⟩ := andThen_eq_next.1 h
    obtain ⟨_, _, h⟩ := andThen_eq_next.1 h
    obtain ⟨s4, _, h⟩ := andThen_eq_next.1 h
    exact ⟨betweenSteps s4, h⟩

/-- A pop that holds is one of an initialised channel (R142). -/
theorem execFifoPop_hold {d : Deadline} {s t : State} (h : execFifoPop d s = .next t) (hr : t.result = .hold) :
    t.fifo.ready = true := by
  obtain ⟨_, ⟨_, rfl⟩ | ⟨_, h⟩⟩ := requireConsumer_eq_next.1 h
  · cases hr
  · obtain ⟨hready, h⟩ := ifRefused_eq_next.1 h
    have hready : s.fifo.ready = true := by simpa using hready
    split at h
    · split at h <;> cases h <;> exact hready
    · cases h
      cases hr

/-- An operation that holds does so at a pop (R142, R146, R288). -/
theorem exec_hold {i : Instr} {s t : State} {x : Hold} (h : exec i s = .next t)
    (hx : heldAfter i t.result = some x) : AtPop t x := by
  unfold heldAfter at hx
  split at hx
  · rename_i hr
    cases i with
    | fifoPop d =>
      cases hx
      exact ⟨execFifoPop_hold h hr, .inl ⟨d, rfl⟩⟩
    | consStep =>
      obtain ⟨hready, hs⟩ := consumerStep_hold (requireAgent_eq_next.1 h).2 hr
      exact ⟨hready, .inr hs⟩
    | consCycle =>
      obtain ⟨u, hu⟩ := execConsCycle_last h
      obtain ⟨hready, hs⟩ := consumerStep_hold hu hr
      exact ⟨hready, .inr hs⟩
    | _ => cases hx
  · cases hx

theorem HeldAtPop.runAs {a : Agent} {ds : List Nat} {i : Instr} {s t : State} (h : HeldAtPop s)
    (ht : runAs a ds i s = .next t) : HeldAtPop t := by
  obtain ⟨u, hu, rfl⟩ := runAs_eq_next.1 ht
  by_cases ha : a = .cons
  · intro x hx
    exact (exec_hold hu (by simpa [leaveAs, ha] using hx)).keep (.of_cons rfl rfl)
  · have hk : KeepsPop (enterAs a ds s) u := (exec_effect hu).keepsPop (by simpa using ha)
    exact h.keep (by simp [leaveAs, ha]) ⟨hk.ready, hk.running⟩

theorem HeldAtPop.deliver {s : State} (h : HeldAtPop s) (e : Event) : HeldAtPop (deliver e s) := by
  by_cases hk : e.kind = .reset
  · intro x hx
    simp [Machine.deliver, hk, runEvent, State.reset] at hx
  · have hp := runEvent_keepsPop hk { s with draws := { s.draws with script := e.draws } }
    exact h.keep (deliver_held hk s) ⟨hp.ready, hp.running⟩

theorem HeldAtPop.runStep {s t : State} (h : HeldAtPop s) (ht : runStep s = .next t) : HeldAtPop t := by
  rcases runStep_cases ht with ⟨e, es, _, _, rfl⟩ | ⟨_, a, ds, i, ls, hr, _⟩ | ⟨_, rfl⟩
  · exact (h.keep (t := { s with events := es }) rfl (.of_cons rfl rfl)).deliver e
  · exact (h.keep (t := { s with events := countDown s.events, sched := ls }) rfl (.of_cons rfl rfl)).runAs hr
  · exact h.keep rfl (.of_cons rfl rfl)

/-- Settles O51: the invariant over environment steps and over every effect of an instruction; the hold over the
instructions of other agents, the environment, and the operations that end in a hold. -/
theorem everyStepKeepsInvariant : Obligations.EveryStepKeepsInvariant := by
  intro s t h
  obtain ⟨_, h⟩ := step_eq_next.1 h
  exact ⟨fun hs => hs.runStep h, fun hs => hs.runStep h⟩

/-- Settles O2: nothing is listed in the memories, the channel is not initialised, and the registers are the reset's. -/
theorem invariantHoldsAtReset : Obligations.InvariantHoldsAtReset :=
  ⟨.of_parts (by decide) (resetFifo_wf _) ⟨.nil, nofun⟩ .nil (resetRegisters_wf (by decide) rfl rfl), nofun⟩

/-! ### Streams and counters -/

/-- The parameters stand, the two streams have only grown and no counter has fallen (R29, R31, R34, R41, R42, R48). -/
structure Extends (s t : State) : Prop where
  cfg       : t.cfg = s.cfg
  log       : s.log <+: t.log
  bus       : s.bus <+: t.bus
  dropCnt   : s.dropCnt ≤ t.dropCnt
  capCnt    : s.cons.capCnt ≤ t.cons.capCnt
  busErrCnt : s.cons.busErrCnt ≤ t.cons.busErrCnt

theorem Extends.trans {s t u : State} (h : Extends s t) (h' : Extends t u) : Extends s u where
  cfg       := h'.cfg.trans h.cfg
  log       := h.log.trans h'.log
  bus       := h.bus.trans h'.bus
  dropCnt   := Nat.le_trans h.dropCnt h'.dropCnt
  capCnt    := Nat.le_trans h.capCnt h'.capCnt
  busErrCnt := Nat.le_trans h.busErrCnt h'.busErrCnt

/-- A change that touches neither stream and no counter. -/
theorem Extends.of_eq {s t : State} (hc : t.cfg = s.cfg := by rfl) (hl : t.log = s.log := by rfl)
    (hb : t.bus = s.bus := by rfl) (hd : t.dropCnt = s.dropCnt := by rfl)
    (hn : t.cons.capCnt = s.cons.capCnt := by rfl) (he : t.cons.busErrCnt = s.cons.busErrCnt := by rfl) :
    Extends s t :=
  ⟨hc, hl ▸ List.prefix_rfl, hb ▸ List.prefix_rfl, Nat.le_of_eq hd.symm, Nat.le_of_eq hn.symm, Nat.le_of_eq he.symm⟩

theorem transmit_extends (l : List Byte) (s : State) : Extends s (transmit l s) :=
  { (Extends.of_eq : Extends s s) with bus := List.prefix_append _ _ }

theorem transceive_extends (w : Byte) (n : Nat) (s : State) : Extends s (transceive w n s) where
  cfg       := transceive_cfg w n s
  log       := by simp
  bus       := by simp [transceive_bus]
  dropCnt   := by simp
  capCnt    := by simp
  busErrCnt := by simp

theorem writeTime_extends (x : TimeFields) (s : State) : Extends s (writeTime x s) :=
  (Extends.of_eq (t := packTime x s)).trans (transmit_extends _ _)

theorem openBus_extends (s : State) : Extends s (openBus s) := by
  rcases openBus_cases s with ⟨_, e⟩ | ⟨_, e⟩ <;> rw [e] <;> exact .of_eq

theorem finishInit_extends (s : State) : Extends s (finishInit s) := by
  rcases finishInit_cases s with ⟨_, e⟩ | ⟨_, e⟩ <;> rw [e]
  · exact { (Extends.of_eq : Extends s s) with log := List.prefix_append _ _ }
  · exact .of_eq

theorem startConsumer_extends (s : State) : Extends s (startConsumer s) := by
  unfold startConsumer
  split
  · exact (openBus_extends s).trans ((writeTime_extends _ _).trans (finishInit_extends _))
  · exact (openBus_extends s).trans .of_eq

theorem loadFc_extends {n : Nat} {s t : State} (h : loadFc n s = .next t) : Extends s t := by
  obtain ⟨_, _, rfl⟩ := loadFc_eq_next h
  exact .of_eq

theorem extractAddrs_extends {n : Nat} {s t : State} (h : extractAddrs n s = .next t) : Extends s t := by
  obtain ⟨_, _, _, _, rfl⟩ := extractAddrs_eq_next h
  exact .of_eq

theorem parseRecord_extends {n : Nat} {s t : State} (h : parseRecord n s = .next t) : Extends s t := by
  obtain ⟨_, _, _, _, _, _, rfl⟩ := parseRecord_eq_next h
  exact .of_eq

theorem onFrame_extends (p : Option Nat) (s : State) : Extends s (onFrame p s) := by
  rcases onFrame_cases p s with ⟨_, e⟩ | ⟨_, _, _, _, _, _, _, ⟨_, e⟩ | ⟨_, e⟩⟩ <;> rw [e]
  · exact .of_eq
  · exact { (Extends.of_eq : Extends s s) with dropCnt := Nat.le_succ _ }
  · exact .of_eq

theorem finishClock_extends (s : State) : Extends s (finishClock s) := by
  rcases finishClock_cases s with ⟨_, e⟩ | ⟨_, _, _, e⟩ <;> rw [e]
  · exact .of_eq
  · exact { (Extends.of_eq : Extends s s) with busErrCnt := Nat.le_succ _ }

theorem stepSample_extends {s t : State} (h : stepSample s = .next t) : Extends s t := by
  rcases stepSample_eq_next h with ⟨_, rfl⟩ | ⟨_, _, _, rfl⟩
  · exact { (Extends.of_eq : Extends s s) with capCnt := Nat.le_succ _ }
  · exact { (Extends.of_eq : Extends s s) with capCnt := Nat.le_succ _, log := List.prefix_append _ _ }

theorem consumerStep_extends {s t : State} (h : consumerStep s = .next t) : Extends s t := by
  obtain ⟨_, h⟩ := consumerStep_eq_next h
  rcases h with ⟨_, h⟩ | ⟨_, h⟩ | ⟨_, h⟩ | ⟨_, h⟩ | ⟨_, h⟩
  · obtain ⟨_, ⟨_, rfl⟩ | ⟨_, rfl⟩⟩ := stepPop_eq_next h <;> exact .of_eq
  · obtain ⟨_, rfl⟩ := stepClock_eq_next h
    exact (transceive_extends _ _ s).trans (finishClock_extends _)
  · obtain ⟨u, hu, rfl⟩ := stepParse_eq_next h
    exact (parseRecord_extends hu).trans .of_eq
  · exact stepSample_extends h
  · obtain ⟨_, _, _, rfl⟩ := stepRelease_eq_next h
    exact .of_eq

theorem runEvent_extends {k : EventKind} (hk : k ≠ .reset) (s : State) : Extends s (runEvent k s) := by
  cases k with
  | frame p ft frame =>
    exact (Extends.of_eq (t := { s with hwbuf := offeredBuffer p frame, agent := some .prod })).trans
      ((onFrame_extends p _).trans .of_eq)
  | tick => exact .of_eq
  | chipFlags f => exact .of_eq
  | sync x y => rcases runEvent_sync_cases x y s with e | e <;> rw [e] <;> exact .of_eq
  | radioInitFail =>
    show Extends s (radioInitFailed s)
    unfold radioInitFailed
    split <;> exact .of_eq
  | reset => exact absurd rfl hk

theorem execConsCycle_extends {s t : State} (h : execConsCycle s = .next t) : Extends s t :=
  consCycle_induct (P := Extends s) (fun _ _ hs ht => hs.trans (consumerStep_extends ht))
    (fun _ hs => betweenSteps_induct (fun k u hk hu => hu.trans (runEvent_extends hk u))
      (fun _ _ hu => hu.trans .of_eq) (fun _ _ hu => hu.trans .of_eq) hs) .of_eq h

theorem Effect.extends {s t : State} (h : Effect s t) : Extends s t := by
  induction h with
  | result r _ ih => exact ih.trans .of_eq
  | unchanged | initFifo | push | draw | pop | release | packTime | unpackTime | decodeFc => exact .of_eq
  | callback p => exact onFrame_extends p s
  | openBus => exact openBus_extends s
  | transmit => exact transmit_extends _ s
  | writeTime => exact writeTime_extends _ s
  | transceive => exact transceive_extends _ _ s
  | loadFc _ h => exact loadFc_extends h
  | extractAddrs _ h => exact extractAddrs_extends h
  | parseRecord _ h => exact parseRecord_extends h
  | start => exact startConsumer_extends s
  | step _ h => exact consumerStep_extends h
  | cycle _ h => exact execConsCycle_extends h

theorem deliver_extends {e : Event} (he : e.kind ≠ .reset) (s : State) : Extends s (deliver e s) :=
  ((Extends.of_eq (t := { s with draws := { s.draws with script := e.draws } })).trans (runEvent_extends he _)).trans
    .of_eq

theorem runAs_extends {a : Agent} {ds : List Nat} {i : Instr} {s t : State} (h : runAs a ds i s = .next t) :
    Extends s t := by
  obtain ⟨u, hu, rfl⟩ := runAs_eq_next.1 h
  exact ((Extends.of_eq (t := enterAs a ds s)).trans (exec_effect hu).extends).trans .of_eq

/-- A step changes no parameter, and but for a reset it only adds to the streams and the counters. -/
theorem runStep_extends {s t : State} (h : runStep s = .next t) :
    t.cfg = s.cfg ∧ (¬ ResetDue s → Extends s t) := by
  rcases runStep_cases h with ⟨e, es, hs, hw, rfl⟩ | ⟨_, a, ds, i, ls, hr, _⟩ | ⟨_, rfl⟩
  · refine ⟨by simp, fun hn => ?_⟩
    have he : e.kind ≠ .reset := fun hk => hn ⟨e.draws, es, by rw [hs, ← hw, ← hk]⟩
    exact (Extends.of_eq (t := { s with events := es })).trans (deliver_extends he _)
  · have hx : Extends s t :=
      (Extends.of_eq (t := { s with events := countDown s.events, sched := ls })).trans (runAs_extends hr)
    exact ⟨hx.cfg, fun _ => hx⟩
  · exact ⟨rfl, fun _ => .of_eq⟩

/-- Settles O57: every effect of an instruction and every environment step but a reset extends the streams. -/
theorem parametersFixedAndStreamsGrow : Obligations.ParametersFixedAndStreamsGrow := by
  intro s t h
  obtain ⟨hc, hx⟩ := runStep_extends (step_eq_next.1 h).2
  refine ⟨hc, fun hn => ?_⟩
  obtain ⟨_, ⟨l, hl⟩, ⟨b, hb⟩, hd, hn, he⟩ := hx hn
  exact ⟨⟨l, hl.symm⟩, ⟨b, hb.symm⟩, hd, hn, he⟩

/-! ### The pointers and the counts -/

/-- The remainders of two counts less than `M` apart give their difference (R24). -/
theorem mod_difference {M a b : Nat} (hab : a ≤ b) (hb : b < a + M) : (b % M + M - a % M) % M = b - a := by
  obtain ⟨d, rfl⟩ := Nat.exists_eq_add_of_le hab
  have hM : 0 < M := by omega
  have hr : a % M < M := Nat.mod_lt a hM
  have hsum : (a + d) % M = if a % M + d < M then a % M + d else a % M + d - M := by
    rw [← Nat.mod_add_mod]
    split
    · exact Nat.mod_eq_of_lt ‹_›
    · rw [Nat.mod_eq_sub_mod (by omega), Nat.mod_eq_of_lt (by omega)]
  rw [slot_distance hr (Nat.mod_lt (a + d) hM), hsum]
  split <;> split <;> omega

/-- Settles O15: each difference of pointers is a difference of counts less than `2 * DEPTH` apart. -/
theorem pointersGiveCounts : Obligations.PointersGiveCounts := by
  intro c f hd h
  have h1 := h.frLeRd
  have h2 := h.rdLeWr
  have h3 := h.wrLeDepth
  have hused : (f.wr + 2 * depth c - f.fr) % (2 * depth c) = f.pushed - f.released := by
    rw [h.wrCount, h.frCount, mod_difference (by omega) (by omega)]
  have havail : (f.wr + 2 * depth c - f.rd) % (2 * depth c) = f.pushed - f.popped := by
    rw [h.wrCount, h.rdCount, mod_difference (by omega) (by omega)]
  have hloaned : (f.rd + 2 * depth c - f.fr) % (2 * depth c) = f.popped - f.released := by
    rw [h.rdCount, h.frCount, mod_difference (by omega) (by omega)]
  refine ⟨hused, havail, hloaned, fun hv => ⟨?_, ?_⟩⟩
  · rw [fullSeen_iff, hused, releasedView, hv]
  · have hview : pushedView c f = f.pushed := by rw [pushedView, hv]
    rw [emptySeen_iff, hview]
    constructor
    · intro he
      rw [h.wrCount, h.rdCount, show f.pushed = f.popped from by omega]
    · intro he
      rw [← havail, he, Nat.add_sub_cancel_left, Nat.mod_self]

end Sys2Proof.Machine
end

section
/-! PROOFS. The FIFO's memory rules of 20_memory.md: what the visibility lag can and cannot do (R83), that a block on loan
has every byte (R89), and who writes the pointers and the slots (R82). -/
namespace Sys2Proof.Machine

/-! ### The visibility lag -/

/-- A FIFO whose slots are all in use is seen full: the producer's view lags, and it has never overrun that view. -/
theorem FifoCounts.fullSeen_of_full {c : Params} {f : Fifo} (h : FifoCounts c f)
    (hf : f.pushed - f.released = depth c) : fullSeen c f = true := by
  have hview := h.releasedView_le
  have hroom := h.wrLeView
  rw [fullSeen_iff]
  omega

/-- A FIFO with nothing queued is seen empty: the consumer's view lags. -/
theorem FifoCounts.emptySeen_of_empty {c : Params} {f : Fifo} (h : FifoCounts c f) (he : f.popped = f.pushed) :
    emptySeen c f = true := by
  have hview := h.pushedView_le
  rw [emptySeen_iff]
  omega

/-- A push on a FIFO seen full is rejected (R141). -/
theorem execFifoTryPush_full {b : List Byte} {s : State} (ha : s.agent = some .prod) (hr : s.fifo.ready = true)
    (hb : b.length = s.cfg.recBytes) (hf : fullSeen s.cfg s.fifo = true) :
    execFifoTryPush b s = .next { s with result := .accepted false } := by
  rw [execFifoTryPush, requireAgent_of ha, if_neg (by simp [hr]), if_neg (by simp [hb]), if_pos hf]
  rfl

/-- A pop without a deadline holds on a FIFO seen empty (R142). -/
theorem execFifoPop_empty {s : State} (ha : s.agent = some .cons) (hc : s.cons.cstate ≠ .fatal)
    (hr : s.fifo.ready = true) (he : emptySeen s.cfg s.fifo = true) :
    execFifoPop .forever s = .next { s with result := .hold } := by
  rw [execFifoPop, requireConsumer_of ha hc, if_neg (by simp [hr]), if_pos he]
  rfl

/-- Settles O12: a lagging view counts no slot free and no block queued that the true counts do not. -/
theorem lagNeverOverrunsOrUnderruns : Obligations.LagNeverOverrunsOrUnderruns := by
  intro s _ hr h
  exact ⟨fun b ha hb hf => execFifoTryPush_full ha hr hb (h.fullSeen_of_full hf),
    fun ha hc he => execFifoPop_empty ha hc hr (h.emptySeen_of_empty he)⟩

/-- A due environment step is the machine's next step (R283). -/
theorem step_due {s : State} {e : Event} {es : List Event} (hp : LegalParams s.cfg) (he : s.events = e :: es)
    (hw : e.wait = 0) : step s = .next (deliver e { s with events := es }) := by
  rw [step, if_pos hp, runStep, he, dueEvent, if_pos hw]

/-- `SYNC` takes no draw: the outcomes its event names change nothing. -/
theorem deliver_sync_exact {s : State} (hv : s.cfg.visLag = .exact) (n : Nat) (d : List Nat) (x y : Nat) :
    deliver ⟨n, d, .sync x y⟩ s = s := by
  simp [deliver, runEvent, hv]

theorem deliver_sync_conservative {s : State} (hv : s.cfg.visLag = .conservative) (n : Nat) (d : List Nat) (x y : Nat) :
    deliver ⟨n, d, .sync x y⟩ s = { s with fifo := syncViews x y s.fifo } := by
  simp [deliver, runEvent, hv]

/-- The value a view rises to, at most the true count (R83). -/
theorem raisedView_spec {view count : Nat} (h : view ≤ count) (x : Nat) :
    view ≤ max view (min x count) ∧ max view (min x count) ≤ count ∧
      (view ≤ x → x ≤ count → max view (min x count) = x) := by
  omega

/-- Settles O58: the due event is the next step, and it touches the two views alone. -/
theorem syncRaisesViews : Obligations.SyncRaisesViews := by
  intro s d es x y hp he
  have hstep := step_due hp he rfl
  refine ⟨fun hv => ?_, fun hv hf hw => ?_⟩
  · rwa [deliver_sync_exact (s := { s with events := es }) hv] at hstep
  · rw [deliver_sync_conservative (s := { s with events := es }) hv] at hstep
    obtain ⟨hfKeeps, hfLe, hfReaches⟩ := raisedView_spec hf x
    obtain ⟨hwKeeps, hwLe, hwReaches⟩ := raisedView_spec hw y
    exact ⟨_, hstep, rfl, hfKeeps, hfLe, hfReaches, hwKeeps, hwLe, hwReaches⟩

/-! ### Blocks on loan -/

/-- The three fields the parser reads lie in the record (R312). -/
theorem LegalParams.fields_inside {c : Params} (h : LegalParams c) :
    c.metaBytes + c.fcOff + 2 ≤ c.recBytes ∧ c.metaBytes + c.addrAOff + 6 ≤ c.recBytes ∧
      c.metaBytes + c.addrBOff + 6 ≤ c.recBytes := by
  obtain ⟨haddr, hfc, _⟩ := h
  omega

/-- A slot on loan can be parsed: each field lies in it, and each of its bytes was pushed. -/
theorem Inv.parseRecord_of_loan {s : State} (h : Inv s) (hr : s.fifo.ready = true) {i : Nat}
    (hl : onLoan s.cfg s.fifo i = true) : ∃ t, Machine.parseRecord i s = .next t := by
  obtain ⟨hfc, haddrA, haddrB⟩ := LegalParams.fields_inside h.params
  have hread {off n : Nat} (ho : off + n ≤ s.cfg.recBytes) : ∃ l, readSlot i off n s = .next l :=
    (h.fifo hr).readSlot_of_loan hr h.depth_pos hl ho
  obtain ⟨_, hfcBytes⟩ := hread hfc
  obtain ⟨_, ha⟩ := hread haddrA
  obtain ⟨_, hb⟩ := hread haddrB
  exact ⟨_, parseRecord_of_reads hfcBytes ha hb⟩

/-- Settles O37: the slot of a block popped and not released is on loan, so it can be parsed. -/
theorem loanedBlockParses : Obligations.LoanedBlockParses := by
  intro s n h hr ha hc hn1 hn2
  obtain ⟨t, ht⟩ := h.parseRecord_of_loan hr (((h.fifo hr).onLoan_iff hr h.depth_pos _).2 ⟨n, hn1, hn2, rfl⟩)
  refine ⟨withResult .done t, ?_, rfl⟩
  show execMacParse _ s = _
  rw [execMacParse, requireConsumer_of ha hc, ht, andThen_next]

/-! ### The writers of the FIFO unit's registers -/

/-- What an instruction that answers has done to the FIFO and to `drop_cnt`: each change is tied to the instructions that
make it (R82). A pass of the consumer is left whole. -/
inductive FifoUse (s t : State) : Instr → Prop
  | none {i : Instr} : t.fifo = s.fifo → t.dropCnt = s.dropCnt → FifoUse s t i
  | init : t.fifo = initFifo s.fifo → FifoUse s t .fifoInit
  | push {b : List Byte} : t.fifo = pushBlock s.cfg b s.fifo → FifoUse s t (.fifoTryPush b)
  | callback {p : Option Nat} {ft : Nat} : t.fifo = (onFrame p s).fifo → FifoUse s t (.prodOnFrame p ft)
  | pop {i : Instr} : (i = .consStep ∨ ∃ d, i = .fifoPop d) → t.fifo = popBlock s.cfg s.fifo →
      t.dropCnt = s.dropCnt → FifoUse s t i
  | release {i : Instr} : (i = .consStep ∨ ∃ h, i = .fifoRelease h) → t.fifo = releaseBlock s.cfg s.fifo →
      t.dropCnt = s.dropCnt → FifoUse s t i
  | cycle : execConsCycle s = .next t → FifoUse s t .consCycle

/-- The stuck consumer leaves the FIFO alone. -/
theorem requireConsumer_fifoUse {s t : State} {k : Out State} {i : Instr} (h : requireConsumer s k = .next t)
    (hk : k = .next t → FifoUse s t i) : FifoUse s t i := by
  obtain ⟨_, ⟨_, rfl⟩ | ⟨_, h⟩⟩ := requireConsumer_eq_next.1 h
  · exact .none rfl rfl
  · exact hk h

theorem execFifoTryPush_fifoUse {b : List Byte} {s t : State} (h : execFifoTryPush b s = .next t) :
    FifoUse s t (.fifoTryPush b) := by
  obtain ⟨_, h⟩ := requireAgent_eq_next.1 h
  obtain ⟨_, h⟩ := ifRefused_eq_next.1 h
  obtain ⟨_, h⟩ := ifRefused_eq_next.1 h
  split at h <;> cases h
  · exact .none rfl rfl
  · exact .push rfl

theorem execFifoPop_fifoUse {d : Deadline} {s t : State} (h : execFifoPop d s = .next t) :
    FifoUse s t (.fifoPop d) :=
  requireConsumer_fifoUse h fun h => by
    obtain ⟨_, h⟩ := ifRefused_eq_next.1 h
    split at h
    · split at h <;> cases h <;> exact .none rfl rfl
    · cases h
      exact .pop (.inr ⟨d, rfl⟩) rfl rfl

/-- The parser leaves the FIFO and `drop_cnt` alone. -/
theorem parseRecord_fifo {n : Nat} {s t : State} (h : parseRecord n s = .next t) :
    t.fifo = s.fifo ∧ t.dropCnt = s.dropCnt := by
  obtain ⟨_, _, _, _, _, _, rfl⟩ := parseRecord_eq_next h
  exact ⟨rfl, rfl⟩

/-- Start-up leaves the FIFO and `drop_cnt` alone. -/
theorem startConsumer_fifo (s : State) : (startConsumer s).fifo = s.fifo ∧ (startConsumer s).dropCnt = s.dropCnt := by
  unfold startConsumer
  split <;> simp

/-- The consumer touches the FIFO at its first and its last step only (R242, R246). -/
theorem consumerStep_fifoUse {s t : State} (h : consumerStep s = .next t) : FifoUse s t .consStep := by
  obtain ⟨_, h⟩ := consumerStep_eq_next h
  rcases h with ⟨_, h⟩ | ⟨_, h⟩ | ⟨_, h⟩ | ⟨_, h⟩ | ⟨_, h⟩
  · obtain ⟨_, ⟨_, rfl⟩ | ⟨_, rfl⟩⟩ := stepPop_eq_next h
    · exact .none rfl rfl
    · exact .pop (.inl rfl) rfl rfl
  · obtain ⟨_, rfl⟩ := stepClock_eq_next h
    exact .none (by simp) (by simp)
  · obtain ⟨_, hu, rfl⟩ := stepParse_eq_next h
    obtain ⟨hf, hd⟩ := parseRecord_fifo hu
    exact .none hf hd
  · rcases stepSample_eq_next h with ⟨_, rfl⟩ | ⟨_, _, _, rfl⟩ <;> exact .none rfl rfl
  · obtain ⟨_, _, _, rfl⟩ := stepRelease_eq_next h
    exact .release (.inl rfl) rfl rfl

/-- What an instruction that answers has done to the FIFO unit. -/
theorem exec_fifoUse {i : Instr} {s t : State} (h : exec i s = .next t) : FifoUse s t i := by
  cases i with
  | fifoInit =>
    obtain ⟨_, h⟩ := requireAgent_eq_next.1 h
    obtain ⟨_, h⟩ := ifRefused_eq_next.1 h
    cases h
    exact .init rfl
  | fifoTryPush b => exact execFifoTryPush_fifoUse h
  | fifoPop d => exact execFifoPop_fifoUse h
  | fifoRelease n =>
    exact requireConsumer_fifoUse h fun h => by
      obtain ⟨_, rfl⟩ := orRefuse_eq_next.1 h
      exact .release (.inr ⟨n, rfl⟩) rfl rfl
  | prodOnFrame p ft =>
    obtain ⟨_, h⟩ := requireAgent_eq_next.1 h
    cases h
    exact .callback rfl
  | consStep => exact consumerStep_fifoUse (requireAgent_eq_next.1 h).2
  | consCycle => exact .cycle h
  | consInit =>
    obtain ⟨_, _, _, _, rfl⟩ := execConsInit_eq_next h
    obtain ⟨hf, hd⟩ := startConsumer_fifo s
    exact .none hf hd
  | timePack x =>
    exact requireConsumer_fifoUse h fun h => by
      obtain ⟨_, rfl⟩ := ifElseRefused_eq_next.1 h
      exact .none rfl rfl
  | timeUnpack r0 r1 r2 =>
    exact requireConsumer_fifoUse h fun h => by
      cases h
      exact .none rfl rfl
  | i2cInit =>
    exact requireConsumer_fifoUse h fun h => by
      obtain ⟨_, h⟩ := ifRefused_eq_next.1 h
      cases h
      exact .none (openBus_fifo s) (openBus_dropCnt s)
  | i2cWrite l =>
    exact requireConsumer_fifoUse h fun h => by
      obtain ⟨_, rfl⟩ := orRefuse_eq_next.1 h
      exact .none rfl rfl
  | i2cWriteRead w n =>
    exact requireConsumer_fifoUse h fun h => by
      split at h
      · obtain ⟨_, rfl⟩ := orRefuse_eq_next.1 h
        exact .none (transceive_fifo _ n s) (transceive_dropCnt _ n s)
      · split at h <;> cases h
  | rtcWriteTime x =>
    exact requireConsumer_fifoUse h fun h => by
      split at h
      · obtain ⟨_, rfl⟩ := orRefuse_eq_next.1 h
        exact .none rfl rfl
      · cases h
  | rtcReadRegs a n =>
    exact requireConsumer_fifoUse h fun h => by
      obtain ⟨_, rfl⟩ := orRefuse_eq_next.1 h
      exact .none (transceive_fifo a n s) (transceive_dropCnt a n s)
  | macFcLoad n =>
    exact requireConsumer_fifoUse h fun h => by
      obtain ⟨_, hu, h⟩ := andThen_eq_next.1 h
      obtain ⟨_, _, rfl⟩ := loadFc_eq_next hu
      cases h
      exact .none rfl rfl
  | macFcDecode fc =>
    obtain ⟨_, _, rfl⟩ | ⟨_, h⟩ := unlessStuck_eq_next.1 h
    · exact .none rfl rfl
    · cases h
      exact .none rfl rfl
  | macAddrExtract n =>
    exact requireConsumer_fifoUse h fun h => by
      obtain ⟨_, hu, h⟩ := andThen_eq_next.1 h
      obtain ⟨_, _, _, _, rfl⟩ := extractAddrs_eq_next hu
      cases h
      exact .none rfl rfl
  | macParse n =>
    exact requireConsumer_fifoUse h fun h => by
      obtain ⟨_, hu, h⟩ := andThen_eq_next.1 h
      obtain ⟨hf, hd⟩ := parseRecord_fifo hu
      cases h
      exact .none hf hd
  | bcdEnc v =>
    obtain ⟨_, h⟩ := ifRefused_eq_next.1 h
    cases h
    exact .none rfl rfl
  | fmtClockRegisterFrame b0 b1 b2 b3 b4 b5 b6 b7 =>
    obtain ⟨_, rfl⟩ := ifElseRefused_eq_next.1 h
    exact .none rfl rfl
  | fmtLinkHeader l =>
    obtain ⟨_, rfl⟩ := ifElseRefused_eq_next.1 h
    exact .none rfl rfl
  | fmtCaptureRecord l =>
    obtain ⟨_, rfl⟩ := ifElseRefused_eq_next.1 h
    exact .none rfl rfl
  | bcdDec _ | fmtFrameControl _ | fmtBcdByte _ | fmtSecondsReg _ | fmtMinutesReg _ | fmtHoursReg _
  | fmtI2cAddressByte _ =>
    cases h
    exact .none rfl rfl

/-! ### Initialisation has one writer -/

/-- Only a reset makes the environment change `chan_ready`. -/
theorem runEvent_ready {k : EventKind} (hk : k ≠ .reset) (s : State) : (runEvent k s).fifo.ready = s.fifo.ready := by
  cases k with
  | frame p ft frame => exact onFrame_ready p _
  | tick | chipFlags => rfl
  | sync x y => rcases runEvent_sync_cases x y s with e | e <;> exact congrArg (fun u => u.fifo.ready) e
  | radioInitFail => exact congrArg Fifo.ready (radioInitFailed_fifo s)
  | reset => exact absurd rfl hk

theorem consumerStep_ready {s t : State} (h : consumerStep s = .next t) : t.fifo.ready = s.fifo.ready := by
  cases consumerStep_fifoUse h with
  | none hf | pop _ hf | release _ hf => exact (congrArg Fifo.ready hf :)

/-- A pass of the consumer leaves `chan_ready` as it is, whatever lands in it. -/
theorem execConsCycle_ready {s t : State} (h : execConsCycle s = .next t) : t.fifo.ready = s.fifo.ready :=
  consCycle_induct (P := fun u => u.fifo.ready = s.fifo.ready) (fun _ _ hu ht => (consumerStep_ready ht).trans hu)
    (fun _ hu => betweenSteps_induct (fun _ u hk hu => (runEvent_ready hk u).trans hu) (fun _ _ hu => hu)
      (fun _ _ hu => hu) hu) rfl h

/-- The callback is the producer's: it leaves the consumer's pointers and counts (R82). -/
theorem onFrame_consumerSide (p : Option Nat) (s : State) :
    (onFrame p s).fifo.rd = s.fifo.rd ∧ (onFrame p s).fifo.fr = s.fifo.fr ∧
      (onFrame p s).fifo.popped = s.fifo.popped ∧ (onFrame p s).fifo.released = s.fifo.released := by
  rcases onFrame_cases p s with ⟨_, e⟩ | ⟨_, _, _, _, _, _, _, ⟨_, e⟩ | ⟨_, e⟩⟩ <;> rw [e] <;> exact ⟨rfl, rfl, rfl, rfl⟩

/-- The producer's registers: `wr` with its count, the slots, `drop_cnt` (R29, R82). -/
theorem FifoUse.producerSide {i : Instr} {s t : State} (h : FifoUse s t i) (hinit : i ≠ .fifoInit)
    (hpush : ∀ b, i ≠ .fifoTryPush b) (hframe : ∀ p ft, i ≠ .prodOnFrame p ft) (hcycle : i ≠ .consCycle) :
    t.fifo.wr = s.fifo.wr ∧ t.fifo.pushed = s.fifo.pushed ∧ t.fifo.slots = s.fifo.slots ∧ t.dropCnt = s.dropCnt := by
  cases h with
  | none hf hd | pop _ hf hd | release _ hf hd => rw [hf]; exact ⟨rfl, rfl, rfl, hd⟩
  | init => exact absurd rfl hinit
  | push => exact absurd rfl (hpush _)
  | callback => exact absurd rfl (hframe _ _)
  | cycle => exact absurd rfl hcycle

/-- The consumer's registers: `rd` and `fr` with their counts (R82). -/
theorem FifoUse.consumerSide {i : Instr} {s t : State} (h : FifoUse s t i) (hinit : i ≠ .fifoInit)
    (hpop : ∀ d, i ≠ .fifoPop d) (hrelease : ∀ n, i ≠ .fifoRelease n) (hstep : i ≠ .consStep) (hcycle : i ≠ .consCycle) :
    t.fifo.rd = s.fifo.rd ∧ t.fifo.fr = s.fifo.fr ∧ t.fifo.popped = s.fifo.popped ∧
      t.fifo.released = s.fifo.released := by
  cases h with
  | none hf | push hf => rw [hf]; exact ⟨rfl, rfl, rfl, rfl⟩
  | callback hf => rw [hf]; exact onFrame_consumerSide _ s
  | init => exact absurd rfl hinit
  | pop hi =>
    obtain rfl | ⟨d, rfl⟩ := hi
    · exact absurd rfl hstep
    · exact absurd rfl (hpop d)
  | release hi =>
    obtain rfl | ⟨n, rfl⟩ := hi
    · exact absurd rfl hstep
    · exact absurd rfl (hrelease n)
  | cycle => exact absurd rfl hcycle

/-- `chan_ready` is written by `FIFO.INIT` alone, which sets it (R21, R140). -/
theorem FifoUse.ready {i : Instr} {s t : State} (h : FifoUse s t i) :
    (i = .fifoInit ∧ t.fifo.ready = true) ∨ t.fifo.ready = s.fifo.ready := by
  cases h with
  | init hf => exact .inl ⟨rfl, congrArg Fifo.ready hf⟩
  | none hf | push hf | pop _ hf | release _ hf => exact .inr (congrArg Fifo.ready hf :)
  | callback hf => exact .inr ((congrArg Fifo.ready hf).trans (onFrame_ready _ s))
  | cycle h => exact .inr (execConsCycle_ready h)

/-- Settles O54: each side of the FIFO unit, and `chan_ready`, from what an instruction can do to it. -/
theorem singleWriterOfPointers : Obligations.SingleWriterOfPointers := by
  intro i s t h
  have huse := exec_fifoUse h
  refine ⟨huse.producerSide, huse.consumerSide, fun hi => ?_, fun hr => ?_⟩
  · exact huse.ready.resolve_left fun hinit => hi hinit.1
  · exact huse.ready.elim And.right fun e => e.trans hr

end Sys2Proof.Machine
end

section
/-! PROOFS. The encoding's statements of 30_encoding.md: the decoder reads back what the encoder writes and rejects the
unassigned codes, a step runs the line it decodes, each operation keeps to its agent, and the layouts of the data formats. -/
namespace Sys2Proof.Machine

/-! ### The decoder -/

/-- Settles O7: one lemma of the family `Laws.Encoding` an instruction. -/
theorem decodeOfEncode : Obligations.DecodeOfEncode := by
  intro i rest h
  cases i with
  | fifoInit => exact Laws.Encoding.fifoInit h rest
  | fifoTryPush b => exact Laws.Encoding.fifoTryPush b h rest
  | fifoPop d => exact Laws.Encoding.fifoPop d h rest
  | fifoRelease n => exact Laws.Encoding.fifoRelease n h rest
  | bcdEnc v => exact Laws.Encoding.bcdEnc v h rest
  | bcdDec b => exact Laws.Encoding.bcdDec b h rest
  | timePack t => exact Laws.Encoding.timePack t h rest
  | timeUnpack r0 r1 r2 => exact Laws.Encoding.timeUnpack r0 r1 r2 h rest
  | i2cInit => exact Laws.Encoding.i2cInit h rest
  | i2cWrite l => exact Laws.Encoding.i2cWrite l h rest
  | i2cWriteRead w n => exact Laws.Encoding.i2cWriteRead w n h rest
  | rtcWriteTime t => exact Laws.Encoding.rtcWriteTime t h rest
  | rtcReadRegs a n => exact Laws.Encoding.rtcReadRegs a n h rest
  | macFcLoad n => exact Laws.Encoding.macFcLoad n h rest
  | macFcDecode fc => exact Laws.Encoding.macFcDecode fc h rest
  | macAddrExtract n => exact Laws.Encoding.macAddrExtract n h rest
  | macParse n => exact Laws.Encoding.macParse n h rest
  | prodOnFrame p t => exact Laws.Encoding.prodOnFrame p t h rest
  | consInit => exact Laws.Encoding.consInit h rest
  | consStep => exact Laws.Encoding.consStep h rest
  | consCycle => exact Laws.Encoding.consCycle h rest
  | fmtFrameControl fc => exact Laws.Encoding.fmtFrameControl fc h rest
  | fmtBcdByte b => exact Laws.Encoding.fmtBcdByte b h rest
  | fmtSecondsReg b => exact Laws.Encoding.fmtSecondsReg b h rest
  | fmtMinutesReg b => exact Laws.Encoding.fmtMinutesReg b h rest
  | fmtHoursReg b => exact Laws.Encoding.fmtHoursReg b h rest
  | fmtClockRegisterFrame b0 b1 b2 b3 b4 b5 b6 b7 =>
    exact Laws.Encoding.fmtClockRegisterFrame b0 b1 b2 b3 b4 b5 b6 b7 h rest
  | fmtI2cAddressByte b => exact Laws.Encoding.fmtI2cAddressByte b h rest
  | fmtLinkHeader l => exact Laws.Encoding.fmtLinkHeader l h rest
  | fmtCaptureRecord l => exact Laws.Encoding.fmtCaptureRecord l h rest

/-- Settles O6: the decoder run on each word. -/
theorem listedWordsDecode : Obligations.ListedWordsDecode :=
  ⟨rfl, rfl, rfl, rfl, rfl, rfl⟩

/-- A code that is no operation's stands for none (R115). -/
theorem ofCode_eq_none {c : Byte} (h : c ∉ Opcode.all.map Opcode.code) : Opcode.ofCode c = none :=
  List.find?_eq_none.2 fun o ho hc => h (List.mem_map.2 ⟨o, ho, by simpa using hc⟩)

theorem decode_unassigned {c : Byte} (h : Opcode.ofCode c = none) (ops : List Byte) :
    decode (c :: ops) = .error (.unassignedCode c) := by
  rw [decode, h]

/-! ### The step -/

/-- With no environment step due the block takes its own step, and the events to come are one step nearer (R283). -/
theorem step_block {s : State} (hp : LegalParams s.cfg) (he : ∀ e ∈ s.events.head?, e.wait ≠ 0) :
    step s = runBlock { s with events := countDown s.events } := by
  rw [step, if_pos hp, runStep, dueEvent_none he]

theorem lineContinues_of_decode {l : Line} {i : Instr} {r : List Byte} (hd : decode (lineBytes l) = .ok (i, r))
    (h : Hold) : lineContinues h l = continuesHeld h i := by
  rw [lineContinues, hd]

/-- A line that decodes to no instruction that continues the hold does not continue it. -/
theorem lineContinues_eq_false {h : Hold} {l : Line}
    (hd : ∀ i r, decode (lineBytes l) = .ok (i, r) → continuesHeld h i = false) : lineContinues h l = false := by
  unfold lineContinues
  split
  · exact hd _ _ ‹_›
  · rfl

theorem runLine_of_decode {l : Line} {i : Instr} {r : List Byte} (hd : decode (lineBytes l) = .ok (i, r)) (s : State) :
    runLine l s = runAs l.agent l.draws i s := by
  rw [runLine, hd]

/-- The next line runs where it is another agent's, or the task context is free or held at what the line issues. -/
theorem runBlock_line {s : State} {l : Line} {ls : List Line} (hs : s.sched = l :: ls)
    (hc : l.agent = .cons → ∀ h, s.held = some h → lineContinues h l = true) :
    runBlock s = runLine l { s with sched := ls } := by
  unfold runBlock
  split
  · rw [runFree, hs]
  · rename_i h hh
    have hgo : l.agent ≠ .cons ∨ lineContinues h l = true :=
      (Decidable.em (l.agent = .cons)).symm.imp_right fun ha => hc ha h hh
    rw [hs]
    exact if_pos hgo

/-- A line of the held task context that does not issue the held operation again waits. -/
theorem runBlock_waiting {s : State} {l : Line} {ls : List Line} {h : Hold} (hs : s.sched = l :: ls)
    (hh : s.held = some h) (ha : l.agent = .cons) (hc : lineContinues h l = false) : runBlock s = runHeld h s := by
  rw [runBlock, hh, hs]
  exact if_neg (by simp [ha, hc])

/-- Where the hold is lifted, or no other agent has a line, the held operation goes on (R142). -/
theorem runHeld_resume {s : State} {h : Hold} (hr : emptySeen s.cfg s.fifo = false ∨ nextOfOthers s.sched = none) :
    runHeld h s = resume h s := by
  unfold runHeld
  split
  · rename_i he
    rw [hr.resolve_left (by simp [he])]
  · rfl

/-- While the hold stands the first line of another agent passes the waiting ones (R283, R288). -/
theorem runHeld_pass {s : State} {h : Hold} {l : Line} {ls : List Line} (he : emptySeen s.cfg s.fifo = true)
    (hn : nextOfOthers s.sched = some (l, ls)) : runHeld h s = runLine l { s with sched := ls } := by
  rw [runHeld, if_pos he, hn]

/-- The held operation, tried again, is held at the same place or frees its context. -/
theorem resume_eq (h : Hold) (s : State) :
    resume h s = andThen (exec h.instr (enterAs .cons [] s)) fun t =>
      .next { t with agent := some .cons, held := if t.result = .hold then some h else none } := by
  cases h <;> rfl

/-- A step of another agent than the consumer leaves the context in force and its hold as they were (R288). -/
theorem runAs_other {a : Agent} (ha : a ≠ .cons) (ds : List Nat) (i : Instr) (s : State) :
    runAs a ds i s = andThen (exec i (enterAs a ds s)) fun t => .next { t with agent := s.agent, held := s.held } := by
  simp only [runAs, leaveAs, if_neg ha]

/-- Settles O3: the line runs, or waits behind the held operation or behind another agent's line. -/
theorem stepRunsDecodedLine : Obligations.StepRunsDecodedLine := by
  intro s l ls hp he hs
  have hblock := step_block hp he
  refine ⟨fun i r hd hc => ?_, fun h hh ha hd => ?_⟩
  · have hline := hblock.trans <| runBlock_line hs fun ha h hh => (lineContinues_of_decode hd h).trans (hc ha h hh)
    exact hline.trans (runLine_of_decode hd _)
  · have hwait := hblock.trans <| runBlock_waiting hs hh ha (lineContinues_eq_false hd)
    refine ⟨fun hr => ?_, fun pre post x i r hempty hls hpre hx hdx => ?_⟩
    · have hresume : emptySeen s.cfg s.fifo = false ∨ nextOfOthers s.sched = none :=
        hr.imp_right fun hcons => nextOfOthers_none (by simpa [hs, ha] using hcons)
      exact (hwait.trans (runHeld_resume hresume)).trans (resume_eq h _)
    · have hnext : nextOfOthers s.sched = some (x, l :: pre ++ post) := by
        rw [hs, hls]
        exact nextOfOthers_append (pre := l :: pre) (by simpa [ha] using hpre) hx
      have hpass := (hwait.trans (runHeld_pass hempty hnext)).trans (runLine_of_decode hdx _)
      exact hpass.trans (runAs_other hx _ _ _)

/-- Settles O5: the listed codes are those of the table, and a line with another code is refused as it is decoded. -/
theorem unassignedCodeRefused : Obligations.UnassignedCodeRefused := by
  intro c ops hc
  have hnone : Opcode.ofCode c = none := ofCode_eq_none hc
  refine ⟨decode_unassigned hnone ops, fun s l ls hp he hs hlc hfree => ?_⟩
  have hline := (step_block hp he).trans <| runBlock_line hs fun ha h hh => by simp [hfree ha] at hh
  rw [hline, runLine, lineBytes, hlc, decode_unassigned hnone]

/-! ### The agents -/

/-- Settles O17: each operation with an agent column asks for its agent first. -/
theorem wrongAgentRefused : Obligations.WrongAgentRefused := by
  intro s i
  refine ⟨?host, ?prod, ?cons⟩
  case host =>
    rintro rfl ha
    exact requireAgent_refused ha _
  case prod =>
    rintro (⟨b, rfl⟩ | ⟨p, t, rfl⟩) ha <;> exact requireAgent_refused ha _
  case cons =>
    rintro (⟨d, rfl⟩ | ⟨h, rfl⟩ | ⟨t, rfl⟩ | ⟨x, y, z, rfl⟩ | rfl | ⟨l, rfl⟩ | ⟨w, n, rfl⟩ | ⟨t, rfl⟩ | ⟨a, n, rfl⟩ |
      ⟨h, rfl⟩ | ⟨h, rfl⟩ | ⟨h, rfl⟩ | rfl | rfl | rfl) ha <;> exact requireAgent_refused ha _

/-! ### The bit layouts of the data formats -/

/-- A bit field as a number. -/
theorem bitField_toNat {w : Nat} (x : BitVec w) (lo len : Nat) :
    (x.extractLsb' lo len).toNat = x.toNat / 2 ^ lo % 2 ^ len := by
  rw [BitVec.extractLsb'_toNat, Nat.shiftRight_eq_div_pow]

/-- A field that reaches the top bit takes all that is above its lowest. -/
theorem topField_toNat {w : Nat} (x : BitVec w) {lo len : Nat} (h : w = lo + len) :
    (x.extractLsb' lo len).toNat = x.toNat / 2 ^ lo := by
  have hx : x.toNat < 2 ^ lo * 2 ^ len := by rw [← Nat.pow_add, ← h]; exact x.isLt
  rw [bitField_toNat, Nat.mod_eq_of_lt (Nat.div_lt_of_lt_mul hx)]

/-- A field from bit 0 is a remainder. -/
theorem lowField_toNat {w : Nat} (x : BitVec w) (len : Nat) : (x.extractLsb' 0 len).toNat = x.toNat % 2 ^ len := by
  rw [bitField_toNat, Nat.pow_zero, Nat.div_one]

theorem execFmtFrameControl_eq (fc : HalfWord) (s : State) :
    execFmtFrameControl fc s = .next
      { s with result := .fields [fc.toNat / 256, fc.toNat / 16 % 16, fc.toNat / 4 % 4, fc.toNat % 4] } := by
  rw [execFmtFrameControl, topField_toNat fc rfl, frameSubtype_eq, bitField_toNat, frameType_eq, bitField_toNat,
    lowField_toNat]
  rfl

theorem execFmtBcdByte_eq (b : Byte) (s : State) :
    execFmtBcdByte b s = .next { s with result := .fields [b.toNat / 16, b.toNat % 16] } := by
  rw [execFmtBcdByte, topField_toNat b rfl, lowField_toNat]
  rfl

theorem execFmtSecondsReg_eq (b : Byte) (s : State) :
    execFmtSecondsReg b s = .next { s with result := .fields [b.toNat / 128, b.toNat / 16 % 8, b.toNat % 16] } := by
  rw [execFmtSecondsReg, topField_toNat b rfl, bitField_toNat, lowField_toNat]
  rfl

theorem execFmtHoursReg_eq (b : Byte) (s : State) :
    execFmtHoursReg b s = .next { s with result := .fields [b.toNat / 64, b.toNat / 16 % 4, b.toNat % 16] } := by
  rw [execFmtHoursReg, topField_toNat b rfl, bitField_toNat, lowField_toNat]
  rfl

theorem execFmtI2cAddressByte_eq (b : Byte) (s : State) :
    execFmtI2cAddressByte b s = .next { s with result := .fields [b.toNat / 2, b.toNat % 2] } := by
  rw [execFmtI2cAddressByte, topField_toNat b rfl, lowField_toNat]
  rfl

/-- Settles O59: one lemma a format; the minutes register has the layout of the seconds register. -/
theorem bitFormatFields : Obligations.BitFormatFields := fun s =>
  ⟨(execFmtFrameControl_eq · s), (execFmtBcdByte_eq · s), (execFmtSecondsReg_eq · s), (execFmtSecondsReg_eq · s),
    (execFmtHoursReg_eq · s), (execFmtI2cAddressByte_eq · s)⟩

/-! ### The byte layouts of the data formats -/

/-- The reserved bits of the three time bytes are clear (R106 to R109). -/
theorem clockFrameImage_iff (b1 b2 b3 : Byte) :
    clockFrameImage b1 b2 b3 = true ↔ b1.toNat < 128 ∧ b2.toNat < 128 ∧ b3.toNat < 64 := by
  have hsec : ∀ b : Byte, b &&& ~~~secondsMask = 0#8 ↔ b.toNat < 128 := by decide
  have hhour : ∀ b : Byte, b &&& ~~~hoursMask = 0#8 ↔ b.toNat < 64 := by decide
  have hmin : b2 &&& ~~~minutesMask = 0#8 ↔ b2.toNat < 128 := hsec b2
  simp only [clockFrameImage, Bool.and_eq_true, decide_eq_true_eq, hsec, hmin, hhour, and_assoc]

/-- A slice that lies in the list has the length asked. -/
theorem sliceBytes_length {l : List Byte} {a n : Nat} (h : a + n ≤ l.length) : (sliceBytes l a n).length = n := by
  rw [sliceBytes, List.length_take, List.length_drop]
  omega

theorem sliceBytes_getElem? (l : List Byte) (a : Nat) {n k : Nat} (h : k < n) : (sliceBytes l a n)[k]? = l[a + k]? := by
  rw [sliceBytes, List.getElem?_take_of_lt h, List.getElem?_drop]

/-- The link header is long enough for its three parts (R102). -/
theorem linkHeader_fits_iff (c : Params) (l : List Byte) :
    max (c.fcOff + 2) (max c.addrAOff c.addrBOff + 6) ≤ l.length ↔
      c.fcOff + 2 ≤ l.length ∧ c.addrAOff + 6 ≤ l.length ∧ c.addrBOff + 6 ≤ l.length := by
  omega

/-- Settles O60: each format's guard as its own condition, and the parts as slices of the bytes. -/
theorem byteFormatFields : Obligations.ByteFormatFields := by
  intro s
  refine ⟨?clockFrame, ?noClockFrame, ?header, ?shortHeader, ?record, ?otherLength⟩
  case clockFrame =>
    intro b0 b1 b2 b3 b4 b5 b6 b7 h1 h2 h3
    exact if_pos ((clockFrameImage_iff b1 b2 b3).2 ⟨h1, h2, h3⟩)
  case noClockFrame =>
    intro b0 b1 b2 b3 b4 b5 b6 b7 h
    refine if_neg fun hi => ?_
    have := (clockFrameImage_iff b1 b2 b3).1 hi
    omega
  case header =>
    intro l hf ha hb
    exact ⟨_, _, _, if_pos ((linkHeader_fits_iff s.cfg l).2 ⟨hf, ha, hb⟩), sliceBytes_length hf, sliceBytes_length ha,
      sliceBytes_length hb, fun k hk => sliceBytes_getElem? l _ hk,
      fun k hk => ⟨sliceBytes_getElem? l _ hk, sliceBytes_getElem? l _ hk⟩⟩
  case shortHeader =>
    intro l h
    refine if_neg fun hi => ?_
    have := (linkHeader_fits_iff s.cfg l).1 hi
    omega
  case record =>
    intro l hl hm
    exact ⟨_, _, if_pos hl, by rw [List.length_take, hl, Nat.min_eq_left hm], List.take_append_drop _ l⟩
  case otherLength =>
    intro l hl
    exact if_neg hl

end Sys2Proof.Machine
end

section
/-! PROOFS. The FIFO unit's statements of 40_fifo.md: what each of its operations answers (R140 to R143), the queue of
blocks it keeps (R144), its capacity (R145), and the step with no line left, in which a held pop goes on (R142). -/
namespace Sys2Proof.Machine

/-! ### What each operation answers -/

/-- A push on a FIFO not seen full is accepted (R141). -/
theorem exec_fifoTryPush_accepted {b : List Byte} {s : State} (ha : s.agent = some .prod) (hr : s.fifo.ready = true)
    (hb : b.length = s.cfg.recBytes) (hf : fullSeen s.cfg s.fifo = false) :
    exec (.fifoTryPush b) s = .next { s with fifo := pushBlock s.cfg b s.fifo, result := .accepted true } :=
  (requireAgent_of ha _).trans ((if_neg (by simp [hr])).trans ((if_neg (by simp [hb])).trans (if_neg (by simp [hf]))))

/-- A push that answers was either rejected, with nothing but its result changed, or accepted. -/
theorem exec_fifoTryPush_eq_next {b : List Byte} {s t : State} (h : exec (.fifoTryPush b) s = .next t) :
    t = { s with result := .accepted false } ∨
    (b.length = s.cfg.recBytes ∧ fullSeen s.cfg s.fifo = false ∧
      t = { s with fifo := pushBlock s.cfg b s.fifo, result := .accepted true }) := by
  obtain ⟨_, h⟩ := requireAgent_eq_next.1 h
  obtain ⟨_, h⟩ := ifRefused_eq_next.1 h
  obtain ⟨hb, h⟩ := ifRefused_eq_next.1 h
  split at h
  · cases h
    exact .inl rfl
  · rename_i hf
    cases h
    exact .inr ⟨Decidable.of_not_not hb, eq_false_of_ne_true hf, rfl⟩

/-- A pop of a block the consumer sees hands out its slot (R142). -/
theorem exec_fifoPop_handle {s : State} (d : Deadline) (ha : s.agent = some .cons) (hc : s.cons.cstate ≠ .fatal)
    (hr : s.fifo.ready = true) (he : emptySeen s.cfg s.fifo = false) :
    exec (.fifoPop d) s =
      .next { s with fifo := popBlock s.cfg s.fifo, result := .handle (nextHandle s.cfg s.fifo) } :=
  (requireConsumer_of ha hc _).trans ((if_neg (by simp [hr])).trans (if_neg (by simp [he])))

/-- A pop with a finite deadline on a FIFO seen empty holds or gives up, as drawn (R142, U10). -/
theorem exec_fifoPop_finite_empty {s : State} (ha : s.agent = some .cons) (hc : s.cons.cstate ≠ .fatal)
    (hr : s.fifo.ready = true) (he : emptySeen s.cfg s.fifo = true) :
    exec (.fifoPop .finite) s = .next { s with
      result := if (drawBelow 2 s.draws).1 = 0 then .hold else .timeout
      draws := (drawBelow 2 s.draws).2 } :=
  (requireConsumer_of ha hc _).trans ((if_neg (by simp [hr])).trans (if_pos he))

/-- A pop that answers has left the FIFO alone and handed out nothing, or has handed out the slot of `rd`. -/
theorem exec_fifoPop_eq_next {d : Deadline} {s t : State} (h : exec (.fifoPop d) s = .next t) :
    (t.cfg = s.cfg ∧ t.fifo = s.fifo ∧ ∀ i, t.result ≠ .handle i) ∨
    (emptySeen s.cfg s.fifo = false ∧
      t = { s with fifo := popBlock s.cfg s.fifo, result := .handle (nextHandle s.cfg s.fifo) }) := by
  obtain ⟨_, ⟨_, rfl⟩ | ⟨_, h⟩⟩ := requireConsumer_eq_next.1 h
  · exact .inl ⟨rfl, rfl, fun i => by simp⟩
  · obtain ⟨_, h⟩ := ifRefused_eq_next.1 h
    split at h
    · split at h <;> cases h
      · exact .inl ⟨rfl, rfl, fun i => by simp⟩
      · refine .inl ⟨rfl, rfl, fun i => ?_⟩
        rw [withResult_result]
        split <;> simp
    · rename_i he
      cases h
      exact .inr ⟨eq_false_of_ne_true he, rfl⟩

/-- A release is refused for its reason, or done (R143). -/
theorem exec_fifoRelease {s : State} (n : Nat) (ha : s.agent = some .cons) (hc : s.cons.cstate ≠ .fatal) :
    exec (.fifoRelease n) s = orRefuse (releaseRefusal s.cfg n s.fifo)
      { s with fifo := releaseBlock s.cfg s.fifo, result := .done } :=
  requireConsumer_of ha hc _

/-- A release that answers, of a consumer that is not stuck, has freed the oldest loan. -/
theorem exec_fifoRelease_eq_next {n : Nat} {s t : State} (hc : s.cons.cstate ≠ .fatal)
    (h : exec (.fifoRelease n) s = .next t) :
    loanedBlocks s.fifo ≠ 0 ∧ t = { s with fifo := releaseBlock s.cfg s.fifo, result := .done } := by
  obtain ⟨ha, -⟩ := requireConsumer_eq_next.1 h
  rw [exec_fifoRelease n ha hc] at h
  obtain ⟨hn, rfl⟩ := orRefuse_eq_next.1 h
  obtain ⟨-, hl, -⟩ := releaseRefusal_none.1 hn
  exact ⟨hl, rfl⟩

/-! ### The results and the refusals (R140 to R143) -/

/-- Settles O8: the guard of R140 is `chan_ready`. -/
theorem fifoInitEffect : Obligations.FifoInitEffect := by
  intro s ha
  exact ⟨fun hr => (requireAgent_of ha _).trans (if_neg (by simp [hr])),
    fun hr => (requireAgent_of ha _).trans (if_pos hr)⟩

/-- Settles O9: the slots after the push are the old ones with the block written at the slot of `wr`. -/
theorem pushAccepted : Obligations.PushAccepted := by
  intro s b ha hr hb hroom
  have hf : fullSeen s.cfg s.fifo = false := decide_eq_false hroom
  refine ⟨_, exec_fifoTryPush_accepted ha hr hb hf, rfl, fun k hk => ?written, fun a hout => ?frame⟩
  case written =>
    exact (slotByte_pushBlock hb hk).trans (if_pos rfl)
  case frame =>
    exact Memory.read?_writeList_outside (by rwa [hb]) s.fifo.slots

/-- Settles O10: each guard of R141 in its order. -/
theorem pushRejectedOrRefused : Obligations.PushRejectedOrRefused := by
  intro s b ha
  refine ⟨fun hr => ?notReady, fun hr hb => ?wrongLength, fun hr hb hfull => ?full⟩
  case notReady =>
    exact (requireAgent_of ha _).trans (if_pos hr)
  case wrongLength =>
    exact (requireAgent_of ha _).trans ((if_neg (by simp [hr])).trans (if_pos hb))
  case full =>
    exact execFifoTryPush_full ha hr hb ((fullSeen_iff _ _).2 hfull)

/-- Settles O13: a block is handed out unless the consumer sees none; then the deadline and the draw decide. -/
theorem popResult : Obligations.PopResult := by
  intro s d ha hc
  refine ⟨fun hr => ?notReady, fun hr hsome => ?block, fun hr hnone => ?empty⟩
  case notReady =>
    exact (requireConsumer_of ha hc _).trans (if_pos hr)
  case block =>
    exact exec_fifoPop_handle d ha hc hr (decide_eq_false (Nat.pos_iff_ne_zero.1 hsome))
  case empty =>
    have he : emptySeen s.cfg s.fifo = true := (emptySeen_iff _ _).2 hnone
    have hfinite := exec_fifoPop_finite_empty ha hc hr he
    have hdraw : (drawBelow 2 s.draws).1 < 2 := drawBelow_lt Nat.two_pos s.draws
    refine ⟨execFifoPop_empty ha hc hr he, fun h0 => ?_, fun h1 => ?_, by omega⟩
    · rw [hfinite, if_pos h0]
    · rw [hfinite, if_neg (by simp [h1])]

/-- Settles O14: the refusals of R143 in its order, and the release where none of them applies. -/
theorem releaseResult : Obligations.ReleaseResult := by
  intro s n ha hc
  rw [exec_fifoRelease n ha hc]
  refine ⟨fun hr => ?notReady, fun hr (hl : loanedBlocks s.fifo = 0) => ?nothing,
    fun hr (hl : loanedBlocks s.fifo ≠ 0) (hn : n ≠ s.fifo.fr % depth s.cfg) => ?notOldest, fun hr hl hn => ?done⟩
  case notReady =>
    rw [releaseRefusal, if_pos hr, orRefuse_some]
  case nothing =>
    rw [releaseRefusal, if_neg (by simp [hr]), if_pos hl, orRefuse_some]
  case notOldest =>
    rw [releaseRefusal, if_neg (by simp [hr]), if_neg hl, if_pos hn, orRefuse_some]
  case done =>
    rw [releaseRefusal_none.2 ⟨hr, hl, hn⟩]
    rfl

/-! ### The queue (R144) -/

@[simp] theorem blocksHeld_length (c : Params) (f : Fifo) : (blocksHeld c f).length = f.pushed - f.released := by
  simp [blocksHeld]

theorem blocksHeld_getElem? (c : Params) {f : Fifo} {i : Nat} (h : i < f.pushed - f.released) :
    (blocksHeld c f)[i]? = some (blockAt c f (f.released + i)) := by
  rw [blocksHeld, List.getElem?_map, List.getElem?_range h, Option.map_some]

/-- An accepted push appends its block (R144). -/
theorem FifoCounts.blocksHeld_push {c : Params} {b : List Byte} {f : Fifo} (h : FifoCounts c f)
    (hf : fullSeen c f = false) (hb : b.length = c.recBytes) :
    blocksHeld c (pushBlock c b f) = blocksHeld c f ++ [some b] := by
  have hle : f.released ≤ f.pushed := Nat.le_trans h.frLeRd h.rdLeWr
  have hcount : f.pushed + 1 - f.released = f.pushed - f.released + 1 := Nat.sub_add_comm hle
  have hold : ∀ i ∈ List.range (f.pushed - f.released),
      blockAt c (pushBlock c b f) (f.released + i) = blockAt c f (f.released + i) := fun i hi =>
    h.blockAt_push_old hf hb (Nat.le_add_right _ _) (Nat.add_lt_of_lt_sub' (List.mem_range.1 hi))
  have hnew : blockAt c (pushBlock c b f) (f.released + (f.pushed - f.released)) = some b := by
    rw [Nat.add_sub_cancel' hle, h.blockAt_push_new hb]
  simp only [blocksHeld, pushBlock_pushed, pushBlock_released, hcount, List.range_succ, List.map_append, List.map_cons,
    List.map_nil, hnew, List.map_congr_left hold]

/-- The oldest block stands before those that a release leaves (R144). -/
theorem blocksHeld_eq_cons (c : Params) {f : Fifo} (h : f.released < f.pushed) :
    blocksHeld c f = blockAt c f f.released :: blocksHeld c (releaseBlock c f) := by
  have hcount : f.pushed - f.released = f.pushed - (f.released + 1) + 1 := by omega
  have hshift : ∀ i, f.released + (i + 1) = f.released + 1 + i := by omega
  simp only [blocksHeld, hcount, List.range_succ_eq_map, List.map_cons, List.map_map, Nat.add_zero]
  exact congrArg _ (List.map_congr_left fun i _ => congrArg (blockAt c f) (hshift i))

/-- The slot the next pop hands out holds the oldest block queued: the first after those on loan (R142, R144). -/
theorem FifoCounts.next_block {c : Params} {f : Fifo} (h : FifoCounts c f) (hlt : f.popped < f.pushed) :
    (blocksHeld c f)[loanedBlocks f]? = some (f.slots.readList? (nextHandle c f * c.recBytes) c.recBytes) := by
  have hle := h.frLeRd
  have hslot : nextHandle c f = f.popped % depth c := by rw [nextHandle, h.rdCount, mod_double_mod]
  rw [blocksHeld_getElem? c (by rw [loanedBlocks]; omega), loanedBlocks, Nat.add_sub_cancel' hle, hslot, blockAt]

/-- Settles O16: what each operation does to the list of blocks held, in each of the ways it can answer. -/
theorem fifoIsQueue : Obligations.FifoIsQueue := by
  intro s _ _ h
  have hle := h.frLeRd
  have hle' := h.rdLeWr
  refine ⟨fun b t ht => ?push, fun d t ht => ?pop, fun n t hc ht => ?release⟩
  case push =>
    obtain rfl | ⟨hb, hf, rfl⟩ := exec_fifoTryPush_eq_next ht
    · exact ⟨fun hacc => by simp at hacc, fun _ => rfl⟩
    · exact ⟨fun _ => h.blocksHeld_push hf hb, fun hrej => absurd rfl hrej⟩
  case pop =>
    obtain ⟨hcfg, hfifo, hnone⟩ | ⟨he, rfl⟩ := exec_fifoPop_eq_next ht
    · exact ⟨by rw [hcfg, hfifo], fun i hi => absurd hi (hnone i)⟩
    · refine ⟨rfl, fun i hi => ?_⟩
      cases hi
      exact ⟨h.next_block (Nat.lt_of_lt_of_le (popped_lt_of_not_empty he) h.pushedView_le), Nat.sub_add_comm hle⟩
  case release =>
    obtain ⟨hl, rfl⟩ := exec_fifoRelease_eq_next hc ht
    have hl' : s.fifo.released < s.fifo.popped := Nat.lt_of_sub_ne_zero hl
    refine ⟨?_, ?_⟩
    · rw [blocksHeld_eq_cons s.cfg (Nat.lt_of_lt_of_le hl' hle'), List.tail_cons]
    · show s.fifo.popped - (s.fifo.released + 1) + 1 = s.fifo.popped - s.fifo.released
      omega

/-! ### The capacity (R145) -/

/-- The producer's context over an initialised FIFO it sees without lag. -/
structure ExactProducer (s : State) : Prop where
  agent  : s.agent = some .prod
  ready  : s.fifo.ready = true
  noLag  : s.cfg.visLag = .exact
  counts : FifoCounts s.cfg s.fifo

/-- Without lag the FIFO is not seen full exactly while fewer than `DEPTH` blocks are held. -/
theorem ExactProducer.fullSeen_eq_false_iff {s : State} (h : ExactProducer s) :
    fullSeen s.cfg s.fifo = false ↔ s.fifo.pushed - s.fifo.released < depth s.cfg := by
  have hle := h.counts.wrLeDepth
  have hview : releasedView s.cfg s.fifo = s.fifo.released := by rw [releasedView, h.noLag]
  rw [← Bool.not_eq_true, fullSeen_iff, hview]
  omega

theorem ExactProducer.fullSeen_iff {s : State} (h : ExactProducer s) :
    fullSeen s.cfg s.fifo = true ↔ ¬ s.fifo.pushed - s.fifo.released < depth s.cfg := by
  rw [← h.fullSeen_eq_false_iff, Bool.not_eq_false]

/-- Pushes that fit into the free slots are all accepted, and their blocks are appended in order. -/
theorem ExactProducer.runAll_pushes {bs : List (List Byte)} {s : State} (h : ExactProducer s)
    (hlen : ∀ b ∈ bs, b.length = s.cfg.recBytes) (hfit : s.fifo.pushed - s.fifo.released + bs.length ≤ depth s.cfg) :
    ∃ t, runAll (bs.map .fifoTryPush) s = .next t ∧ ExactProducer t ∧ t.cfg = s.cfg ∧
      blocksHeld t.cfg t.fifo = blocksHeld s.cfg s.fifo ++ bs.map some := by
  induction bs generalizing s with
  | nil => exact ⟨s, rfl, h, rfl, (List.append_nil _).symm⟩
  | cons b bs ih =>
    obtain ⟨hb, hbs⟩ := List.forall_mem_cons.1 hlen
    rw [List.length_cons] at hfit
    have hf : fullSeen s.cfg s.fifo = false := h.fullSeen_eq_false_iff.2 (by omega)
    obtain ⟨t, hrun, ht, hcfg, hheld⟩ := ih
      (s := { s with fifo := pushBlock s.cfg b s.fifo, result := .accepted true })
      ⟨h.agent, h.ready, h.noLag, h.counts.push hf hb⟩ hbs
      (by simp only [pushBlock_pushed, pushBlock_released]; omega)
    refine ⟨t, ?_, ht, hcfg, ?_⟩
    · rw [List.map_cons, runAll, exec_fifoTryPush_accepted h.agent h.ready hb hf, andThen_next, hrun]
    · rw [hheld, h.counts.blocksHeld_push hf hb, List.append_assoc]
      rfl

/-- Settles O11: a push looks at the number of blocks held, and `DEPTH` pushes on an empty FIFO make it `DEPTH`. -/
theorem capacityLaw : Obligations.CapacityLaw := by
  intro s _ hv hr hcounts ha
  have h : ExactProducer s := ⟨ha, hr, hv, hcounts⟩
  refine ⟨fun b hb => ?accepted, fun bs hempty hbs hlen => ?capacity⟩
  case accepted =>
    by_cases hroom : s.fifo.pushed - s.fifo.released < depth s.cfg
    · exact ⟨_, exec_fifoTryPush_accepted ha hr hb (h.fullSeen_eq_false_iff.2 hroom), fun _ => hroom, fun _ => rfl⟩
    · exact ⟨_, execFifoTryPush_full ha hr hb (h.fullSeen_iff.2 hroom), fun hacc => by simp at hacc,
        fun hlt => absurd hlt hroom⟩
  case capacity =>
    obtain ⟨t, hrun, ht, hcfg, hheld⟩ := h.runAll_pushes hlen (by omega)
    have hnil : blocksHeld s.cfg s.fifo = [] := List.length_eq_zero_iff.1 (by rw [blocksHeld_length]; omega)
    rw [hnil, List.nil_append] at hheld
    have hused : t.fifo.pushed - t.fifo.released = depth t.cfg := by
      rw [← blocksHeld_length t.cfg, hheld, List.length_map, hbs, hcfg]
    exact ⟨t, hrun, hheld, fun b hb =>
      execFifoTryPush_full ht.agent ht.ready (by rw [hb, hcfg]) (ht.counts.fullSeen_of_full hused)⟩

/-! ### The step with no line left -/

theorem runBlock_resume {s : State} {h : Hold} (hs : s.sched = []) (hh : s.held = some h) :
    runBlock s = resume h s := by
  rw [runBlock, hh, hs]

/-- A task context that is free goes on as the running consumer, in its own step (R249), and idles before it runs. -/
theorem runBlock_free {s : State} (hs : s.sched = []) (hh : s.held = none) :
    runBlock s = if s.cons.cstate = .running then resume .step s else .next s := by
  rw [runBlock, hh]
  show runFree s = _
  rw [runFree, hs]
  rfl

/-- Settles O4: the held operation, the running consumer's own step, or the passing of a step. -/
theorem stepWithoutLine : Obligations.StepWithoutLine := by
  intro s hp he hs
  have hblock := step_block hp he
  refine ⟨fun h hh => ?held, fun hh hrun => ?running, fun hh hidle => ?idle⟩
  case held =>
    exact (hblock.trans (runBlock_resume hs hh)).trans (resume_eq h _)
  case running =>
    exact ((hblock.trans (runBlock_free hs hh)).trans (if_pos hrun)).trans (resume_eq .step _)
  case idle =>
    exact (hblock.trans (runBlock_free hs hh)).trans (if_neg hidle)

end Sys2Proof.Machine
end

section
/-! PROOFS. The clock-time register codec's statements of 41_clock_codec.md: what each of its operations answers (R170 to
R174), the packed-decimal round trip (R175, R176), and the round trip of a time through the clock chip (R177). -/
namespace Sys2Proof.Machine

/-! ### The encoded time bytes, under the masks and beside the flag bits -/

/-- The mask cuts nothing off an encoded second (R106). -/
theorem encodedSeconds_toNat {v : Nat} (h : v ≤ 59) : (bcdEncode v &&& secondsMask).toNat = v / 10 * 16 + v % 10 := by
  rw [secondsMask_toNat, bcdEncode_toNat (by omega)]
  omega

theorem encodedMinutes_toNat {v : Nat} (h : v ≤ 59) : (bcdEncode v &&& minutesMask).toNat = v / 10 * 16 + v % 10 :=
  encodedSeconds_toNat h

/-- The mask cuts nothing off an encoded hour (R108). -/
theorem encodedHours_toNat {v : Nat} (h : v ≤ 23) : (bcdEncode v &&& hoursMask).toNat = v / 10 * 16 + v % 10 := by
  rw [hoursMask_toNat, bcdEncode_toNat (by omega)]
  omega

/-- The time bytes a ClockRegisterFrame carries decode to the time it was built from (R109, R174). -/
theorem unpackTime_encoded {t : TimeFields} (h : validTod t = true) :
    unpackTime (bcdEncode t.seconds &&& secondsMask) (bcdEncode t.minutes &&& minutesMask)
      (bcdEncode t.hours &&& hoursMask) = t := by
  obtain ⟨hh, hm, hs⟩ := (validTod_iff t).1 h
  rw [unpackTime_eq, encodedSeconds_toNat hs, encodedMinutes_toNat hm, encodedHours_toNat hh]
  exact TimeFields.mk.injEq .. |>.mpr ⟨by omega, by omega, by omega⟩

/-- Bits outside a mask do not pass it. -/
theorem and_mask_of_disjoint {f m : Byte} (h : f &&& m = 0#8) (b : Byte) : ((b &&& m) ||| f) &&& m = b &&& m := by
  rw [BitVec.and_comm, BitVec.and_or_distrib_left, BitVec.and_comm m f, h, BitVec.or_zero, BitVec.and_comm m,
    BitVec.and_assoc, BitVec.and_self]

theorem secondsFlag_and_mask : ∀ x : BitVec 1, (x.setWidth 8 <<< 7) &&& secondsMask = 0#8 := by decide

theorem minutesFlag_and_mask : ∀ x : BitVec 1, (x.setWidth 8 <<< 7) &&& minutesMask = 0#8 := secondsFlag_and_mask

theorem hoursFlags_and_mask : ∀ x : BitVec 2, (x.setWidth 8 <<< 6) &&& hoursMask = 0#8 := by decide

/-- The time decoded from three register bytes is the same whatever flag bits the chip sets in them (R174, R198). -/
theorem unpackTime_setFlags (f : ChipFlags) (b0 b1 b2 : Byte) :
    unpackTime ((b0 &&& secondsMask) ||| (f.seconds.setWidth 8 <<< 7))
      ((b1 &&& minutesMask) ||| (f.minutes.setWidth 8 <<< 7)) ((b2 &&& hoursMask) ||| (f.hours.setWidth 8 <<< 6)) =
    unpackTime b0 b1 b2 := by
  simp only [unpackTime, and_mask_of_disjoint (secondsFlag_and_mask f.seconds),
    and_mask_of_disjoint (minutesFlag_and_mask f.minutes), and_mask_of_disjoint (hoursFlags_and_mask f.hours)]

/-! ### The time through the clock chip -/

/-- After a write of the time that ended OK the seven registers hold the frame's data bytes (R193). -/
theorem writeTime_read? {s : State} {k : Nat}
    (h : s.cfg.rtcAtomicRead = true ∨ OutsideTime s.cfg (s.cfg.timeBase.toNat + k)) (ho : (drawStatus s.draws).1 = .ok)
    (hk : k < 7) (t : TimeFields) :
    (writeTime t s).chip.regs.read? (s.cfg.timeBase.toNat + k) = (clockFrame s.cfg t)[k + 1]? := by
  have hall : (bytesDelivered 8 (drawStatus s.draws).1 (drawStatus s.draws).2).1 = 8 := by rw [bytesDelivered, if_pos ho]
  have hlen : (clockFrame s.cfg t).tail.length = 7 := rfl
  refine (chipAccept_read? h s.cfg.timeBase (clockFrame s.cfg t).tail
    (bytesDelivered 8 (drawStatus s.draws).1 (drawStatus s.draws).2).1 s.chip _).trans ?_
  rw [if_pos (by omega), Nat.add_sub_cancel_left, List.getElem?_tail]

/-- The three time registers have values, and they decode to `t` (R43, R174). -/
def HoldsTime (c : Params) (k : Chip) (t : TimeFields) : Prop :=
  ∃ b0 b1 b2, k.regs.read? c.timeBase.toNat = some b0 ∧ k.regs.read? (c.timeBase.toNat + 1) = some b1 ∧
    k.regs.read? (c.timeBase.toNat + 2) = some b2 ∧ unpackTime b0 b1 b2 = t

/-- A write of a time that ended OK, with no tick inside, leaves the chip holding that time (R193). -/
theorem writeTime_holdsTime {s : State} {t : TimeFields} (h : s.cfg.rtcAtomicRead = true)
    (ho : (drawStatus s.draws).1 = .ok) (ht : validTod t = true) : HoldsTime s.cfg (writeTime t s).chip t := by
  have hreg := fun k hk => writeTime_read? (k := k) (.inl h) ho hk t
  exact ⟨_, _, _, hreg 0 (by omega), hreg 1 (by omega), hreg 2 (by omega), unpackTime_encoded ht⟩

/-- A change of the flag bits leaves the time the chip holds as it is (R198, U24). -/
theorem HoldsTime.setFlags {c : Params} {k : Chip} {t : TimeFields} (h : HoldsTime c k t) (f : ChipFlags) :
    HoldsTime c (chipSetFlags c f k) t := by
  obtain ⟨b0, b1, b2, h0, h1, h2, ht⟩ := h
  refine ⟨_, _, _, ?_, ?_, ?_, (unpackTime_setFlags f b0 b1 b2).trans ht⟩ <;> rw [chipSetFlags_read?]
  · simp [h0]
  · simp [h1]
  · simp [h2]

/-- A read of the three time registers that ended OK, with no tick inside, returns the time the chip holds (R192). -/
theorem HoldsTime.transceive {s : State} {t : TimeFields} (h : HoldsTime s.cfg s.chip t)
    (hatomic : s.cfg.rtcAtomicRead = true) (ho : (drawStatus s.draws).1 = .ok) :
    ∃ b0 b1 b2, (transceive s.cfg.timeBase 3 s).i2c.rxbuf = [b0, b1, b2] ∧ unpackTime b0 b1 b2 = t := by
  obtain ⟨b0, b1, b2, h0, h1, h2, ht⟩ := h
  have hbyte : ∀ {j b}, j < 3 → s.chip.regs.read? (s.cfg.timeBase.toNat + j) = some b →
      (Machine.transceive s.cfg.timeBase 3 s).i2c.rxbuf[j]? = some b := fun hj hb =>
    transceive_value (.inl hatomic) ho hj (by omega) (by omega) hb
  refine ⟨b0, b1, b2, List.ext_getElem? fun j => ?_, ht⟩
  match j with
  | 0 => exact hbyte (by omega) h0
  | 1 => exact hbyte (by omega) h1
  | 2 => exact hbyte (by omega) h2
  | j + 3 => rw [List.getElem?_eq_none (by simp), List.getElem?_eq_none (by simp)]

/-! ### What each operation answers -/

theorem exec_bcdEnc {v : Nat} (h : v ≤ 99) (s : State) :
    exec (.bcdEnc v) s = .next { s with result := .byte (bcdEncode v) } := if_neg (Nat.not_lt.2 h)

theorem exec_bcdDec (b : Byte) (s : State) :
    exec (.bcdDec b) s = .next { s with result := .value (b.toNat / 16 * 10 + b.toNat % 16) } := by
  rw [← bcdDecode_eq]
  rfl

theorem exec_timeUnpack {s : State} (h : ConsumerActs s) (r0 r1 r2 : Byte) :
    exec (.timeUnpack r0 r1 r2) s =
      .next { s with cons := { s.cons with todLast := unpackTime r0 r1 r2 }, result := .done } :=
  requireConsumer_of h.1 h.2 _

/-- A write of the time that succeeded was the frame's transaction, by a consumer that is not stuck, and ended OK. -/
theorem exec_rtcWriteTime_success {x : TimeFields} {s t : State} (h : exec (.rtcWriteTime x) s = .next t)
    (hr : t.result = .success true) :
    ConsumerActs s ∧ validTod x = true ∧ (drawStatus s.draws).1 = .ok ∧
      t = withResult (.success true) (writeTime x s) := by
  obtain ⟨ha, ⟨-, rfl⟩ | ⟨hf, h⟩⟩ := requireConsumer_eq_next.1 h
  · cases hr
  · split at h
    · rename_i hv
      obtain ⟨-, rfl⟩ := orRefuse_eq_next.1 h
      have ho : (drawStatus s.draws).1 = .ok := of_decide_eq_true (Result.success.inj hr)
      exact ⟨⟨ha, hf⟩, hv, ho, by simp [ho]⟩
    · cases h

/-- A register read that gave bytes was a transaction by a consumer that is not stuck; it ended OK and gave
what it left in `rxbuf`. -/
theorem exec_rtcReadRegs_bytes {a : Byte} {n : Nat} {s t : State} {r : List Byte}
    (h : exec (.rtcReadRegs a n) s = .next t) (hr : t.result = .bytes r) :
    ConsumerActs s ∧ (drawStatus s.draws).1 = .ok ∧ r = (transceive a n s).i2c.rxbuf ∧
      t = withResult (.bytes r) (transceive a n s) := by
  obtain ⟨ha, ⟨-, rfl⟩ | ⟨hf, h⟩⟩ := requireConsumer_eq_next.1 h
  · cases hr
  · obtain ⟨-, rfl⟩ := orRefuse_eq_next.1 h
    rw [withResult_result, transceive_busStatus] at hr
    split at hr
    · rename_i ho
      cases hr
      exact ⟨⟨ha, hf⟩, ho, rfl, by simp [ho]⟩
    · cases hr

/-! ### The results, the refusals and the round trips (R170 to R177) -/

/-- Settles O18: the guard of R170 is the bound 99. -/
theorem bcdEncodeResult : Obligations.BcdEncodeResult := by
  intro v s
  exact ⟨fun h => ⟨bcdEncode v, bcdEncode_toNat h, exec_bcdEnc h s⟩, fun h => if_pos h⟩

/-- Settles O19: the formula's shift and mask are a quotient and a remainder by 16. -/
theorem bcdDecodeResult : Obligations.BcdDecodeResult := exec_bcdDec

/-- Settles O20: an encoded value has its two digits as nibbles. -/
theorem bcdRoundTrip : Obligations.BcdRoundTrip := by
  refine ⟨fun v s hv => ?decodeEncode, fun b s htens hunits => ?encodeDecode⟩
  case decodeEncode =>
    have hb := bcdEncode_toNat hv
    refine ⟨bcdEncode v, _, exec_bcdEnc hv s, rfl, by omega, by omega, ?_⟩
    rw [exec_bcdDec, ← bcdDecode_eq, bcdDecode_encode hv]
  case encodeDecode =>
    have hv : b.toNat / 16 * 10 + b.toNat % 16 ≤ 99 := by omega
    have hb : bcdEncode (b.toNat / 16 * 10 + b.toNat % 16) = b := by
      refine BitVec.eq_of_toNat_eq ?_
      rw [bcdEncode_toNat hv]
      omega
    refine ⟨_, _, exec_bcdDec b s, rfl, ?_⟩
    rw [exec_bcdEnc hv, hb]

/-- Settles O21: the three masked bytes of the frame are the encoded fields, with no bit cut off. -/
theorem timePackResult : Obligations.TimePackResult := by
  intro t s ha hc
  refine ⟨fun hh hm hs => ?packed, fun hout => ?refused⟩
  case packed =>
    have hbs := encodedSeconds_toNat hs
    have hbm := encodedMinutes_toNat hm
    have hbh := encodedHours_toNat hh
    exact ⟨_, _, _, hbs, hbm, hbh, by omega, by omega, by omega,
      (requireConsumer_of ha hc _).trans (if_pos ((validTod_iff t).2 ⟨hh, hm, hs⟩))⟩
  case refused =>
    have hv : ¬ validTod t = true := fun hv => by
      obtain ⟨hh, hm, hs⟩ := (validTod_iff t).1 hv
      omega
    exact (requireConsumer_of ha hc _).trans (if_neg hv)

/-- Settles O22: the masks are remainders, and the ranges of R32 hold of whatever they let through. -/
theorem timeUnpackResult : Obligations.TimeUnpackResult := by
  intro r0 r1 r2 s ha hc
  obtain ⟨hh, hm, hs⟩ := unpackTime_le r0 r1 r2
  have heq := unpackTime_eq r0 r1 r2
  exact ⟨unpackTime r0 r1 r2, congrArg TimeFields.seconds heq, congrArg TimeFields.minutes heq,
    congrArg TimeFields.hours heq, hs, hm, hh, exec_timeUnpack ⟨ha, hc⟩ r0 r1 r2⟩

/-- Settles O30: the write leaves the chip holding the time, a change of its flags keeps it, and the read returns it. -/
theorem clockRoundTrip : Obligations.ClockRoundTrip := by
  intro s s1 s3 tod f r _ hatomic hwrite hwritten hread hbytes
  obtain ⟨-, hvalid, ho, rfl⟩ := exec_rtcWriteTime_success hwrite hwritten
  obtain ⟨hacts, ho3, hr, hs3⟩ := exec_rtcReadRegs_bytes hread hbytes
  have htime : HoldsTime s.cfg (chipSetFlags s.cfg f (writeTime tod s).chip) tod :=
    (writeTime_holdsTime hatomic ho hvalid).setFlags f
  obtain ⟨r0, r1, r2, hrx, hunpack⟩ :=
    htime.transceive (s := runEvent (.chipFlags f) (withResult (.success true) (writeTime tod s))) hatomic ho3
  have hacts3 : ConsumerActs s3 := by simpa [ConsumerActs, hs3] using hacts
  exact ⟨r0, r1, r2, _, hr.trans hrx, exec_timeUnpack hacts3 r0 r1 r2, hunpack⟩

end Sys2Proof.Machine
end

section
/-! PROOFS. The I2C master's statements of 42_i2c_master.md: the outcomes the environment can draw (R190, R195, R196),
what each operation answers and refuses (R190 to R194), what a transaction leaves in the chip, and the chip's tick (R200). -/
namespace Sys2Proof.Machine

/-! ### The draws (R195, R196) -/

/-- The number a line names for an outcome of a transaction (R195). -/
def statusCode : BusStatus → Nat
  | .ok => 0
  | .timeout => 1
  | .busErr => 2

/-- A transaction ends as the running line names. -/
theorem drawStatus_named (o : BusStatus) (xs : List Nat) (n : Nat) :
    drawStatus ⟨statusCode o :: xs, n⟩ = (o, ⟨xs, n⟩) := by
  cases o <;> rfl

theorem bytesDelivered_le (n : Nat) (o : BusStatus) (d : Draws) : (bytesDelivered n o d).1 ≤ n := by
  unfold bytesDelivered
  split
  · exact Nat.le_refl n
  · exact Nat.le_of_lt_succ (drawBelow_lt n.succ_pos d)

theorem bytesDelivered_ok (n : Nat) (d : Draws) : (bytesDelivered n .ok d).1 = n := rfl

/-- As many bytes reach the chip as the running line names, of those R196 allows. -/
theorem bytesDelivered_named {o : BusStatus} {n j : Nat} (hj : j ≤ n) (ho : o = .ok → j = n) (k : Nat) :
    (bytesDelivered n o ⟨[j], k⟩).1 = j := by
  by_cases hok : o = .ok
  · rw [hok, bytesDelivered_ok, ho hok]
  · rw [bytesDelivered, if_neg hok, drawBelow_script]
    exact Nat.mod_eq_of_lt (Nat.lt_succ_of_le hj)

/-- Settles O24: a line that names the outcome, and after it the number of bytes, draws them. -/
theorem everyBusOutcomeIsDrawn : Obligations.EveryBusOutcomeIsDrawn := by
  intro d
  refine ⟨fun x hx => ⟨⟨[x], d.taken⟩, rfl, Nat.mod_eq_of_lt hx⟩, fun o n j hj ho => ?transaction⟩
  case transaction =>
    refine ⟨⟨[statusCode o, j], d.taken⟩, rfl, ?_⟩
    rw [drawStatus_named]
    exact ⟨rfl, bytesDelivered_named hj ho d.taken⟩

/-! ### What each operation answers -/

/-- The first `I2C.INIT` of a consumer that acts (R190). -/
theorem exec_i2cInit {s : State} (h : ConsumerActs s) (hb : s.i2c.busOpen = false) :
    exec .i2cInit s = .next (withResult (if (openBus s).i2c.busOpen then .done else .raised .busInit) (openBus s)) :=
  (requireConsumer_of h.1 h.2 _).trans (if_neg (by simp [hb]))

theorem exec_i2cWrite {s : State} (h : ConsumerActs s) (l : List Byte) :
    exec (.i2cWrite l) s =
      orRefuse (writeRefusal l s) (withResult (.status (drawStatus s.draws).1) (transmit l s)) :=
  requireConsumer_of h.1 h.2 _

theorem exec_i2cWriteRead {s : State} (h : ConsumerActs s) (a : Byte) (n : Nat) :
    exec (.i2cWriteRead [a] n) s =
      orRefuse (readRefusal a n s) (withResult (.status (drawStatus s.draws).1) (transceive a n s)) := by
  rw [← transceive_busStatus a n s]
  exact requireConsumer_of h.1 h.2 _

/-- A write phase that is not one byte is always refused (R192). -/
theorem exec_i2cWriteRead_refused {s : State} (h : ConsumerActs s) {w : List Byte} (hw : w.length ≠ 1) (n : Nat) :
    exec (.i2cWriteRead w n) s =
      if s.i2c.busOpen = false then .refused .busNotOpen else .refused .writePhaseNotOneByte := by
  refine (requireConsumer_of h.1 h.2 _).trans ?_
  match w, hw with
  | [], _ => rfl
  | [_], hw => exact absurd rfl hw
  | _ :: _ :: _, _ => rfl

theorem exec_rtcWriteTime {s : State} (h : ConsumerActs s) {t : TimeFields} (ht : validTod t = true) :
    exec (.rtcWriteTime t) s =
      orRefuse (writeRefusal (clockFrame s.cfg t) s)
        (withResult (.success (decide ((drawStatus s.draws).1 = .ok))) (writeTime t s)) :=
  (requireConsumer_of h.1 h.2 _).trans (if_pos ht)

theorem exec_rtcReadRegs {s : State} (h : ConsumerActs s) (a : Byte) (n : Nat) :
    exec (.rtcReadRegs a n) s =
      orRefuse (readRefusal a n s)
        (withResult
          (if (drawStatus s.draws).1 = .ok then .bytes (transceive a n s).i2c.rxbuf else .fail (drawStatus s.draws).1)
          (transceive a n s)) := by
  rw [← transceive_busStatus a n s]
  exact requireConsumer_of h.1 h.2 _

/-! ### The refusals (R191, R192) -/

theorem writeRefusal_closed {s : State} (h : s.i2c.busOpen = false) (l : List Byte) :
    writeRefusal l s = some .busNotOpen := if_pos h

theorem writeRefusal_nil {s : State} (h : s.i2c.busOpen = true) : writeRefusal [] s = some .emptyTransfer :=
  if_neg (by simp [h])

theorem writeRefusal_cons {s : State} (h : s.i2c.busOpen = true) (p : Byte) (data : List Byte) :
    writeRefusal (p :: data) s = if p.toNat + data.length > 256 then some .pastLastRegister else none :=
  if_neg (by simp [h])

theorem readRefusal_closed {s : State} (h : s.i2c.busOpen = false) (a : Byte) (n : Nat) :
    readRefusal a n s = some .busNotOpen := if_pos h

theorem readRefusal_zero {s : State} (h : s.i2c.busOpen = true) (a : Byte) :
    readRefusal a 0 s = some .emptyTransfer := (if_neg (by simp [h])).trans (if_pos rfl)

theorem readRefusal_open {s : State} (h : s.i2c.busOpen = true) {n : Nat} (hn : n ≠ 0) (a : Byte) :
    readRefusal a n s = if a.toNat + n > 256 then some .pastLastRegister else none :=
  (if_neg (by simp [h])).trans (if_neg hn)

/-- Settles O23: the one draw decides whether the bus opens, and a bus that is open is refused before it. -/
theorem i2cInitResult : Obligations.I2cInitResult := by
  intro s ha hc
  refine ⟨fun hb => ?again, fun hb hd => ?opened, fun hb hd => ?failed⟩
  case again => exact (requireConsumer_of ha hc _).trans (if_pos hb)
  case opened =>
    obtain ⟨-, e⟩ | ⟨hne, -⟩ := openBus_cases s
    · rw [exec_i2cInit ⟨ha, hc⟩ hb, e]
      rfl
    · exact absurd hd hne
  case failed =>
    obtain ⟨heq, -⟩ | ⟨-, e⟩ := openBus_cases s
    · exact absurd heq hd
    · rw [exec_i2cInit ⟨ha, hc⟩ hb, e]
      simp [hb, withResult]

/-- Settles O26: each operation answers as `writeRefusal` or `readRefusal` says, once its own guard is passed. -/
theorem busRefusals : Obligations.BusRefusals := by
  intro s ha hc
  have h : ConsumerActs s := ⟨ha, hc⟩
  refine ⟨fun l hb => ?writeClosed, fun hb => ?writeEmpty, fun p data hb hl => ?writeTooLong,
    fun w n hb => ?writeReadClosed, fun w n hb hw => ?writePhase, fun a hb => ?writeReadEmpty,
    fun a n hb hn hl => ?writeReadTooLong, fun tod hout => ?noTime, fun tod hh hm hs hb => ?writeTimeClosed,
    fun a n hb => ?readRegsClosed, fun a hb => ?readRegsEmpty, fun a n hb hn hl => ?readRegsTooLong⟩
  case writeClosed => rw [exec_i2cWrite h, writeRefusal_closed hb, orRefuse_some]
  case writeEmpty => rw [exec_i2cWrite h, writeRefusal_nil hb, orRefuse_some]
  case writeTooLong => rw [exec_i2cWrite h, writeRefusal_cons hb, if_pos hl, orRefuse_some]
  case writeReadClosed =>
    by_cases hw : w.length = 1
    · obtain ⟨a, rfl⟩ := List.length_eq_one_iff.1 hw
      rw [exec_i2cWriteRead h, readRefusal_closed hb, orRefuse_some]
    · rw [exec_i2cWriteRead_refused h hw, if_pos hb]
  case writePhase => rw [exec_i2cWriteRead_refused h hw, if_neg (by simp [hb])]
  case writeReadEmpty => rw [exec_i2cWriteRead h, readRefusal_zero hb, orRefuse_some]
  case writeReadTooLong => rw [exec_i2cWriteRead h, readRefusal_open hb hn, if_pos hl, orRefuse_some]
  case noTime => exact (requireConsumer_of ha hc _).trans (if_neg (mt (validTod_iff tod).1 (by omega)))
  case writeTimeClosed =>
    rw [exec_rtcWriteTime h ((validTod_iff tod).2 ⟨hh, hm, hs⟩), writeRefusal_closed hb, orRefuse_some]
  case readRegsClosed => rw [exec_rtcReadRegs h, readRefusal_closed hb, orRefuse_some]
  case readRegsEmpty => rw [exec_rtcReadRegs h, readRefusal_zero hb, orRefuse_some]
  case readRegsTooLong => rw [exec_rtcReadRegs h, readRefusal_open hb hn, if_pos hl, orRefuse_some]

/-! ### What a write leaves in the chip (R191, R193, R196) -/

/-- How many bytes of a write of `l` from `s` reach the chip, as `transmit` draws it (R196). -/
def deliveredBytes (l : List Byte) (s : State) : Nat :=
  (bytesDelivered l.length (drawStatus s.draws).1 (drawStatus s.draws).2).1

theorem deliveredBytes_le (l : List Byte) (s : State) : deliveredBytes l s ≤ l.length := bytesDelivered_le _ _ _

theorem deliveredBytes_ok {s : State} (h : (drawStatus s.draws).1 = .ok) (l : List Byte) :
    deliveredBytes l s = l.length := by
  rw [deliveredBytes, h, bytesDelivered_ok]

/-- No more data bytes arrive than the write has. -/
theorem min_deliveredBytes (p : Byte) (data : List Byte) (s : State) :
    min (deliveredBytes (p :: data) s - 1) data.length = deliveredBytes (p :: data) s - 1 :=
  Nat.min_eq_left (Nat.sub_le_of_le_add (deliveredBytes_le (p :: data) s))

/-- The chip takes the delivered bytes of a write and nothing else. -/
theorem transmit_chip (l : List Byte) (s : State) : (transmit l s).chip =
    (chipAccept s.cfg (l.take (deliveredBytes l s)) s.chip
      (bytesDelivered l.length (drawStatus s.draws).1 (drawStatus s.draws).2).2).1 := rfl

/-- A write of which nothing arrived leaves the chip as it was. -/
theorem transmit_chip_of_none {l : List Byte} {s : State} (h : deliveredBytes l s = 0) :
    (transmit l s).chip = s.chip := by
  rw [transmit_chip, h]
  rfl

/-- `rtc.ptr` after a write has advanced past the data bytes that arrived (R44). -/
theorem transmit_ptr {p : Byte} {data : List Byte} {s : State} (h : 0 < deliveredBytes (p :: data) s)
    (hl : p.toNat + (deliveredBytes (p :: data) s - 1) < 256) :
    (transmit (p :: data) s).chip.ptr.toNat = p.toNat + (deliveredBytes (p :: data) s - 1) := by
  have hmin := min_deliveredBytes p data s
  rw [transmit_chip, chipAccept_ptr p data h (by rwa [hmin]), hmin]

/-- The registers after a write: the data bytes that arrived, and else what they held. -/
theorem transmit_read? {p : Byte} {data : List Byte} {s : State} {a : Nat} (h : Untouched s.cfg a) :
    (transmit (p :: data) s).chip.regs.read? a =
      if p.toNat ≤ a ∧ a < p.toNat + (deliveredBytes (p :: data) s - 1) then data[a - p.toNat]?
      else s.chip.regs.read? a := by
  have hmin := min_deliveredBytes p data s
  rw [transmit_chip, chipAccept_read? h, hmin]

/-- Settles O25: the chip takes as many bytes as drawn, which is all of the write if it ended OK. -/
theorem busWriteResult : Obligations.BusWriteResult := by
  intro s p data ha hc hb hl
  refine ⟨withResult (.status (drawStatus s.draws).1) (transmit (p :: data) s), deliveredBytes (p :: data) s, ?_, rfl,
    rfl, deliveredBytes_le _ s, fun ho => deliveredBytes_ok ho _, transmit_chip_of_none, transmit_ptr,
    fun a hu => transmit_read? hu⟩
  rw [exec_i2cWrite ⟨ha, hc⟩, writeRefusal_cons hb, if_neg (Nat.not_lt.2 hl), orRefuse_none]

/-- A write of the time changes no register outside the seven (R43, R193). -/
theorem writeTime_read?_outside {s : State} {r : Nat} (h : r < s.cfg.timeBase.toNat ∨ s.cfg.timeBase.toNat + 7 ≤ r)
    (t : TimeFields) : (writeTime t s).chip.regs.read? r = s.chip.regs.read? r := by
  have hlen : deliveredBytes (clockFrame s.cfg t) (packTime t s) ≤ 8 := deliveredBytes_le _ _
  refine (transmit_read? (s := packTime t s) (p := s.cfg.timeBase) (data := (clockFrame s.cfg t).tail)
    (show Untouched s.cfg r from .inr (by omega))).trans (if_neg fun hin => ?_)
  have hlt : r < s.cfg.timeBase.toNat + (deliveredBytes (clockFrame s.cfg t) (packTime t s) - 1) := hin.2
  omega

/-- Settles O28: the frame is one write, of which at most seven bytes are data. -/
theorem writeTimeResult : Obligations.WriteTimeResult := by
  intro s tod hp ha hc hb hh hm hs
  obtain ⟨-, -, -, -, -, hbase⟩ := hp
  have hpass : writeRefusal (clockFrame s.cfg tod) s = none :=
    (writeRefusal_cons hb _ _).trans
      (if_neg (Nat.not_lt.2 (show s.cfg.timeBase.toNat + 7 ≤ 256 from Nat.succ_le_succ hbase)))
  refine ⟨withResult (.success (decide ((drawStatus s.draws).1 = .ok))) (writeTime tod s), _, _, _, ?_,
    encodedSeconds_toNat hs, encodedMinutes_toNat hm, encodedHours_toNat hh, rfl, rfl,
    fun ho k hk hu => writeTime_read? hu ho hk tod, fun r hr => writeTime_read?_outside hr tod⟩
  rw [exec_rtcWriteTime ⟨ha, hc⟩ ((validTod_iff tod).2 ⟨hh, hm, hs⟩), hpass, orRefuse_none]

/-! ### What a read leaves (R192, R194) -/

/-- A read changes the chip, the draws, `bus_status`, `rxbuf` and `BUS` alone. -/
theorem transceive_frame (w : Byte) (n : Nat) (s : State) : transceive w n s = { s with
    chip := (transceive w n s).chip
    draws := (transceive w n s).draws
    i2c := { s.i2c with busStatus := (drawStatus s.draws).1, rxbuf := (transceive w n s).i2c.rxbuf }
    bus := s.bus ++ [.writeRead [w] n (drawStatus s.draws).1
      (if (drawStatus s.draws).1 = .ok then some (transceive w n s).i2c.rxbuf else none)] } := by
  by_cases h : (drawStatus s.draws).1 = .ok
  · simp only [transceive, transceiveOk, h, if_true]
  · simp only [transceive, transceiveFailed, h, if_false]

/-- A transaction that reads has the effect of R192, whatever result is given for it. -/
theorem transceive_readEffect {s : State} {a : Byte} {n : Nat} (hl : a.toNat + n ≤ 256) (r : Result) :
    ReadEffect a n s (withResult r (transceive a n s)) r := by
  refine ⟨congrArg (withResult r) (transceive_frame a n s), transceive_rxbuf_length a n s,
    fun h => transceive_regs h a n, fun x hx => transceive_read? hx a n,
    fun ho => ⟨fun k b hk h1 h2 hu hb => transceive_value hu ho hk h1 h2 hb, transceive_ptr_ok ho⟩, fun ho => ?failed⟩
  case failed =>
    obtain hsame | hpast | hmoved := transceive_ptr_failed (w := a) (n := n) ho
    · exact .inl hsame
    · exact .inr (.inl (Nat.le_antisymm hl hpast))
    · exact .inr (.inr hmoved)

theorem readRefusal_eq_none {s : State} (h : s.i2c.busOpen = true) {a : Byte} {n : Nat} (hn : n ≠ 0)
    (hl : a.toNat + n ≤ 256) : readRefusal a n s = none :=
  (readRefusal_open h hn a).trans (if_neg (Nat.not_lt.2 hl))

/-- Settles O27: a read that is not refused is one transaction, with its status as result. -/
theorem busReadResult : Obligations.BusReadResult := by
  intro s a n ha hc hb hn hl
  have hexec := exec_i2cWriteRead ⟨ha, hc⟩ a n
  rw [readRefusal_eq_none hb hn hl, orRefuse_none] at hexec
  exact ⟨_, hexec, transceive_readEffect hl _⟩

/-- Settles O29: the same transaction, with its bytes or its failure as result. -/
theorem readRegsResult : Obligations.ReadRegsResult := by
  intro s a n ha hc hb hn hl
  have hexec := exec_rtcReadRegs ⟨ha, hc⟩ a n
  rw [readRefusal_eq_none hb hn hl, orRefuse_none] at hexec
  exact ⟨_, hexec, transceive_readEffect hl _⟩

/-! ### The tick (R200) -/

/-- The next second of a valid time carries into the minute, the hour and the day. -/
theorem nextSecond_eq {h m x : Nat} (hh : h ≤ 23) (hm : m ≤ 59) (hx : x ≤ 59) :
    nextSecond ⟨h, m, x⟩ =
      if x < 59 then ⟨h, m, x + 1⟩ else if m < 59 then ⟨h, m + 1, 0⟩ else if h < 23 then ⟨h + 1, 0, 0⟩
      else ⟨0, 0, 0⟩ := by
  by_cases h1 : x < 59
  · have hs : (x + 1) % 60 = x + 1 := Nat.mod_eq_of_lt (by omega)
    simp [nextSecond, h1, hs]
  · obtain rfl : x = 59 := by omega
    by_cases h2 : m < 59
    · have hs : (m + 1) % 60 = m + 1 := Nat.mod_eq_of_lt (by omega)
      simp [nextSecond, h2, hs]
    · obtain rfl : m = 59 := by omega
      by_cases h3 : h < 23
      · have hs : (h + 1) % 24 = h + 1 := Nat.mod_eq_of_lt (by omega)
        simp [nextSecond, h3, hs]
      · obtain rfl : h = 23 := by omega
        rfl

theorem nextSecond_valid {t : TimeFields} (h : validTod t = true) : validTod (nextSecond t) = true := by
  obtain ⟨hh, hm, -⟩ := (validTod_iff t).1 h
  have hmod : ∀ {k : Nat} (v : Nat), v % (k + 1) ≤ k := fun v => Nat.le_of_lt_succ (Nat.mod_lt v (Nat.succ_pos _))
  exact (validTod_iff _).2 ⟨iteInduction (motive := (· ≤ 23)) (fun _ => hmod _) fun _ => hh,
    iteInduction (motive := (· ≤ 59)) (fun _ => hmod _) fun _ => hm, hmod _⟩

/-- The time registers that took a valid time and kept their flag bits decode to that time (R174, R200). -/
theorem unpackTime_keepFlags {t : TimeFields} (h : validTod t = true) (b0 b1 b2 : Byte) :
    unpackTime (keepFlags secondsMask b0 t.seconds) (keepFlags minutesMask b1 t.minutes)
      (keepFlags hoursMask b2 t.hours) = t := by
  obtain ⟨hh, hm, hs⟩ := (validTod_iff t).1 h
  rw [unpackTime_eq, keepSeconds_toNat hs, keepMinutes_toNat hm, keepHours_toNat hh]
  exact TimeFields.mk.injEq .. |>.mpr ⟨by omega, by omega, by omega⟩

/-- A due tick of a valid time takes no draw: it changes the chip alone. -/
theorem deliver_tick_of_valid {s : State} {b0 b1 b2 : Byte} (h0 : s.chip.regs.read? s.cfg.timeBase.toNat = some b0)
    (h1 : s.chip.regs.read? (s.cfg.timeBase.toNat + 1) = some b1)
    (h2 : s.chip.regs.read? (s.cfg.timeBase.toNat + 2) = some b2) (hv : validTod (unpackTime b0 b1 b2) = true) (n : Nat)
    (d : List Nat) :
    deliver ⟨n, d, .tick⟩ s = { s with chip := (chipTick s.cfg s.chip s.draws).1 } := by
  simp only [deliver, runEvent, chipTick_valid h0 h1 h2 hv]

/-- Settles O31: the due tick is the next step; it stores the next second beside the flag bits. -/
theorem tickIsNextSecond : Obligations.TickIsNextSecond := by
  intro s d es b0 b1 b2 h m x hp he h0 h1 h2 hu hh hm hx
  have hv : validTod (⟨h, m, x⟩ : TimeFields) = true := (validTod_iff _).2 ⟨hh, hm, hx⟩
  have hstep := step_due hp he rfl
  rw [deliver_tick_of_valid (s := { s with events := es }) h0 h1 h2 (hu ▸ hv), chipTick_valid h0 h1 h2 (hu ▸ hv),
    hu] at hstep
  have hnext := nextSecond_valid hv
  obtain ⟨hhours, hminutes, hseconds⟩ := (validTod_iff _).1 hnext
  have e0 := keepSeconds_toNat hseconds b0
  have e1 := keepMinutes_toNat hminutes b1
  have e2 := keepHours_toNat hhours b2
  refine ⟨_, _, _, _, nextSecond ⟨h, m, x⟩, hstep, rfl, rfl, ?_, ?_, ?_, nextSecond_eq hh hm hx,
    unpackTime_keepFlags hnext b0 b1 b2, by omega, by omega, by omega, by omega, by omega, by omega,
    fun r hr => storeTime_outside hr _ _ _ s.chip⟩ <;>
    simp [storeTime_read?]

end Sys2Proof.Machine
end

section
/-! PROOFS. The parser's statements of 43_mac_parser.md: what each operation answers for a record on loan and that it
refuses any other slot (R220 to R223), and the 14 record bytes its results depend on (R224). -/
namespace Sys2Proof.Machine

/-! ### The record bytes of a slot -/

theorem readSlot_of_not_loan {s : State} {h : Nat} (hl : onLoan s.cfg s.fifo h = false) (off n : Nat) :
    readSlot h off n s = .refused .slotNotOnLoan := if_neg (Bool.eq_false_iff.1 hl)

/-- A slot read of a run of slot bytes that are known one by one (R71). -/
theorem readSlot_of_slotBytes {s : State} {h off n : Nat} {l : List Byte} (hl : onLoan s.cfg s.fifo h = true)
    (ho : off + n ≤ s.cfg.recBytes) (hn : l.length = n) (hb : ∀ k, k < n → slotByte s.cfg s.fifo h (off + k) = l[k]?) :
    readSlot h off n s = .next l :=
  readSlot_of_bytes hl ho hn fun k hk => by
    rw [Nat.add_assoc]
    exact hb k hk

/-- A slot read of two slot bytes that are known. -/
theorem readSlot_of_two {s : State} {h off : Nat} {b0 b1 : Byte} (hl : onLoan s.cfg s.fifo h = true)
    (ho : off + 2 ≤ s.cfg.recBytes) (h0 : slotByte s.cfg s.fifo h off = some b0)
    (h1 : slotByte s.cfg s.fifo h (off + 1) = some b1) : readSlot h off 2 s = .next [b0, b1] :=
  readSlot_of_slotBytes hl ho rfl fun
    | 0, _ => h0
    | 1, _ => h1

/-- Reads of one run in two machines whose slots agree on it answer the same bytes. -/
theorem readSlot_agree {s s' : State} {h off n : Nat} {l l' : List Byte} (hc : s'.cfg = s.cfg)
    (hb : ∀ k, off ≤ k ∧ k < off + n → slotByte s.cfg s.fifo h k = slotByte s.cfg s'.fifo h k)
    (hl : readSlot h off n s = .next l) (hl' : readSlot h off n s' = .next l') : l = l' := by
  obtain ⟨-, -, hr⟩ := readSlot_eq_next.1 hl
  obtain ⟨-, -, hr'⟩ := readSlot_eq_next.1 hl'
  have hrun : s.fifo.slots.readList? (h * s.cfg.recBytes + off) n =
      s'.fifo.slots.readList? (h * s.cfg.recBytes + off) n := Memory.readList?_congr fun k hk => by
    rw [Nat.add_assoc]
    exact hb (off + k) ⟨Nat.le_add_right off k, Nat.add_lt_add_left hk off⟩
  exact Option.some.inj (hr.symm.trans (hrun.trans (hc ▸ hr')))

/-! ### A slot that is not on loan -/

theorem loadFc_of_not_loan {s : State} {h : Nat} (hl : onLoan s.cfg s.fifo h = false) :
    loadFc h s = .refused .slotNotOnLoan := by
  rw [loadFc, readSlot_of_not_loan hl, andThen_refused]

theorem extractAddrs_of_not_loan {s : State} {h : Nat} (hl : onLoan s.cfg s.fifo h = false) :
    extractAddrs h s = .refused .slotNotOnLoan := by
  rw [extractAddrs, readSlot_of_not_loan hl, andThen_refused]

theorem parseRecord_of_not_loan {s : State} {h : Nat} (hl : onLoan s.cfg s.fifo h = false) :
    parseRecord h s = .refused .slotNotOnLoan := by
  rw [parseRecord, loadFc_of_not_loan hl, andThen_refused]

/-! ### A record on loan -/

/-- `fc_reg` from the two record bytes at `FC_OFF` (R220, R73). -/
theorem loadFc_of_slotBytes {s : State} {h : Nat} {b0 b1 : Byte} (hp : LegalParams s.cfg)
    (hl : onLoan s.cfg s.fifo h = true) (h0 : slotByte s.cfg s.fifo h (s.cfg.metaBytes + s.cfg.fcOff) = some b0)
    (h1 : slotByte s.cfg s.fifo h (s.cfg.metaBytes + s.cfg.fcOff + 1) = some b1) :
    loadFc h s = .next { s with cons := { s.cons with fcReg := if s.cfg.fcLe then b1 ++ b0 else b0 ++ b1 } } := by
  obtain ⟨hfc, -, -⟩ := hp.fields_inside
  rw [← assembleFc_eq]
  exact loadFc_of_read (readSlot_of_two hl hfc h0 h1)

/-- The two addresses from their six record bytes each (R222, R77). -/
theorem extractAddrs_of_slotBytes {s : State} {h : Nat} {a b : List Byte} (hp : LegalParams s.cfg)
    (hl : onLoan s.cfg s.fifo h = true) (ha6 : a.length = 6) (hb6 : b.length = 6)
    (ha : ∀ k, k < 6 → slotByte s.cfg s.fifo h (s.cfg.metaBytes + s.cfg.addrAOff + k) = a[k]?)
    (hb : ∀ k, k < 6 → slotByte s.cfg s.fifo h (s.cfg.metaBytes + s.cfg.addrBOff + k) = b[k]?) :
    extractAddrs h s = .next { s with cons := { s.cons with addrA := a, addrB := b } } := by
  obtain ⟨-, haddrA, haddrB⟩ := hp.fields_inside
  exact extractAddrs_of_reads (readSlot_of_slotBytes hl haddrA ha6 ha) (readSlot_of_slotBytes hl haddrB hb6 hb)

/-- The two fields of a frame-control value lie in the byte that comes first with `FC_LE`, else in the second (R103,
R221). -/
theorem decodeFc_of_bytes (b0 b1 : Byte) (s : State) :
    decodeFc (if s.cfg.fcLe then b1 ++ b0 else b0 ++ b1) s = { s with cons := { s.cons with
      ftype := (if s.cfg.fcLe then b0 else b1).extractLsb' 2 2
      fsubtype := (if s.cfg.fcLe then b0 else b1).extractLsb' 4 4 } } := by
  obtain ⟨htype, hsubtype⟩ := assembleFc_fields s.cfg.fcLe b0 b1
  rw [decodeFc, ← assembleFc_eq, htype, hsubtype]

/-- The five registers of R223: the load, the decoding of what it loaded, the extraction. -/
theorem parseRecord_of_slotBytes {s : State} {h : Nat} {b0 b1 : Byte} {a b : List Byte} (hp : LegalParams s.cfg)
    (hl : onLoan s.cfg s.fifo h = true) (h0 : slotByte s.cfg s.fifo h (s.cfg.metaBytes + s.cfg.fcOff) = some b0)
    (h1 : slotByte s.cfg s.fifo h (s.cfg.metaBytes + s.cfg.fcOff + 1) = some b1)
    (ha6 : a.length = 6) (hb6 : b.length = 6)
    (ha : ∀ k, k < 6 → slotByte s.cfg s.fifo h (s.cfg.metaBytes + s.cfg.addrAOff + k) = a[k]?)
    (hb : ∀ k, k < 6 → slotByte s.cfg s.fifo h (s.cfg.metaBytes + s.cfg.addrBOff + k) = b[k]?) :
    parseRecord h s = .next { s with
      cons := { s.cons with
        fcReg := if s.cfg.fcLe then b1 ++ b0 else b0 ++ b1
        ftype := (if s.cfg.fcLe then b0 else b1).extractLsb' 2 2
        fsubtype := (if s.cfg.fcLe then b0 else b1).extractLsb' 4 4
        addrA := a
        addrB := b } } := by
  rw [parseRecord, loadFc_of_slotBytes hp hl h0 h1, andThen_next]
  exact (congrArg (extractAddrs h) (decodeFc_of_bytes b0 b1 _)).trans
    (extractAddrs_of_slotBytes hp hl ha6 hb6 ha hb)

/-! ### The four operations -/

theorem andThen_of_next {α β : Type} {x : Out α} {a : α} (h : x = .next a) (k : α → Out β) : andThen x k = k a := by
  rw [h, andThen_next]

theorem exec_macFcLoad {s : State} (hc : ConsumerActs s) (h : Nat) :
    exec (.macFcLoad h) s = andThen (loadFc h s) fun t => .next (withResult .done t) :=
  requireConsumer_of hc.1 hc.2 _

theorem exec_macFcDecode {s : State} (hc : s.agent = some .cons → s.cons.cstate ≠ .fatal) (fc : HalfWord) :
    exec (.macFcDecode fc) s = .next (withResult (fcFields fc) (decodeFc fc s)) :=
  unlessStuck_of (fun ⟨ha, hf⟩ => hc ha hf) _

theorem exec_macAddrExtract {s : State} (hc : ConsumerActs s) (h : Nat) :
    exec (.macAddrExtract h) s = andThen (extractAddrs h s) fun t => .next (withResult .done t) :=
  requireConsumer_of hc.1 hc.2 _

theorem exec_macParse {s : State} (hc : ConsumerActs s) (h : Nat) :
    exec (.macParse h) s = andThen (parseRecord h s) fun t => .next (withResult .done t) :=
  requireConsumer_of hc.1 hc.2 _

/-- A parse that answers, of a consumer that is not stuck, has parsed the record. -/
theorem exec_macParse_eq_next {s t : State} {h : Nat} (hf : s.cons.cstate ≠ .fatal)
    (ht : exec (.macParse h) s = .next t) : ∃ u, parseRecord h s = .next u ∧ t = withResult .done u := by
  obtain ⟨ha, -⟩ := requireConsumer_eq_next.1 ht
  rw [exec_macParse ⟨ha, hf⟩] at ht
  obtain ⟨u, hu, hdone⟩ := andThen_eq_next.1 ht
  cases hdone
  exact ⟨u, hu, rfl⟩

/-- The two fields beside the operation, as numbers (R114, R221). -/
theorem fcFields_eq (fc : HalfWord) : fcFields fc = .fields [fc.toNat / 4 % 4, fc.toNat / 16 % 16] := by
  have htype : (frameType fc).toNat = fc.toNat / 4 % 4 :=
    (congrArg BitVec.toNat (frameType_eq fc)).trans (bitField_toNat fc 2 2)
  have hsubtype : (frameSubtype fc).toNat = fc.toNat / 16 % 16 :=
    (congrArg BitVec.toNat (frameSubtype_eq fc)).trans (bitField_toNat fc 4 4)
  rw [fcFields, htype, hsubtype]

/-- The two fields written, as bit fields (R221). -/
theorem decodeFc_eq (fc : HalfWord) (s : State) :
    decodeFc fc s =
      { s with cons := { s.cons with ftype := fc.extractLsb' 2 2, fsubtype := fc.extractLsb' 4 4 } } := by
  rw [decodeFc, frameType_eq, frameSubtype_eq]

/-- Settles O32: the two bytes are inside the slot, and their assembly is their concatenation. -/
theorem fcLoadResult : Obligations.FcLoadResult := by
  intro s h ha hc
  rw [exec_macFcLoad ⟨ha, hc⟩]
  refine ⟨fun hl => ?refused, fun b0 b1 hp hl h0 h1 => ?loaded⟩
  case refused => rw [loadFc_of_not_loan hl, andThen_refused]
  case loaded => exact andThen_of_next (loadFc_of_slotBytes hp hl h0 h1) _

/-- Settles O33: no agent is asked for, and both fields are the value's bits. -/
theorem fcDecodeResult : Obligations.FcDecodeResult := by
  intro fc s hc
  have hexec := exec_macFcDecode hc fc
  rw [fcFields_eq, decodeFc_eq] at hexec
  exact hexec

/-- Settles O34: both runs are inside the slot, and each is read in record order. -/
theorem addrExtractResult : Obligations.AddrExtractResult := by
  intro s h ha hc
  rw [exec_macAddrExtract ⟨ha, hc⟩]
  refine ⟨fun hl => ?refused, fun a b hp hl ha6 hb6 hA hB => ?extracted⟩
  case refused => rw [extractAddrs_of_not_loan hl, andThen_refused]
  case extracted => exact andThen_of_next (extractAddrs_of_slotBytes hp hl ha6 hb6 hA hB) _

/-- Settles O35: the parse of a record on loan, with its result beside it. -/
theorem parseResult : Obligations.ParseResult := by
  intro s h ha hc
  rw [exec_macParse ⟨ha, hc⟩]
  refine ⟨fun hl => ?refused, fun b0 b1 a b hp hl h0 h1 ha6 hb6 hA hB => ?parsed⟩
  case refused => rw [parseRecord_of_not_loan hl, andThen_refused]
  case parsed => exact andThen_of_next (parseRecord_of_slotBytes hp hl h0 h1 ha6 hb6 hA hB) _

/-- Settles O36: the five registers are functions of the three runs read, which are the same in both machines. -/
theorem parserReadsFourteenBytes : Obligations.ParserReadsFourteenBytes := by
  intro s s' t t' h hcfg hf hf' hagree ht ht'
  obtain ⟨u, hu, rfl⟩ := exec_macParse_eq_next hf ht
  obtain ⟨u', hu', rfl⟩ := exec_macParse_eq_next hf' ht'
  obtain ⟨l, a, b, hl, ha, hb, rfl⟩ := parseRecord_eq_next hu
  obtain ⟨l', a', b', hl', ha', hb', rfl⟩ := parseRecord_eq_next hu'
  rw [hcfg] at hl' ha' hb'
  obtain rfl : l = l' := readSlot_agree hcfg (fun k hk => hagree k (.inl hk)) hl hl'
  obtain rfl : a = a' := readSlot_agree hcfg (fun k hk => hagree k (.inr (.inl hk))) ha ha'
  obtain rfl : b = b' := readSlot_agree hcfg (fun k hk => hagree k (.inr (.inr hk))) hb hb'
  have hfc : assembleFc s.cfg.fcLe (l.getD 0 0#8) (l.getD 1 0#8) =
      assembleFc s'.cfg.fcLe (l.getD 0 0#8) (l.getD 1 0#8) := by rw [hcfg]
  exact ⟨hfc, congrArg frameType hfc, congrArg frameSubtype hfc, rfl, rfl⟩

end Sys2Proof.Machine
end

section
/-! PROOFS. The running consumer of 44_sequencers.md: what each of its steps answers (R242 to R246), that it never stops
and keeps one loan (R249, R250), the edges of the control state (R249, R286) and the sampling law (R248) over every step
of the machine, and the net effect of one pass (R247). -/
namespace Sys2Proof.Machine

/-! ### What each step answers (R242 to R246) -/

/-- The step of the loop that has the given name. -/
def stepAt : CStep → State → Out State
  | .s1Pop => stepPop
  | .s2Clock => stepClock
  | .s3Parse => stepParse
  | .s4Sample => stepSample
  | .s5Release => stepRelease

/-- The running consumer takes the step that `cstep` names. -/
theorem consumerStep_of {s : State} {x : CStep} (hrun : s.cons.cstate = .running) (hs : s.cons.cstep = x) :
    consumerStep s = stepAt x s := by
  subst hs
  rw [consumerStep, if_neg (by simp [hrun])]
  cases s.cons.cstep <;> rfl

theorem exec_consStep {s : State} {x : CStep} (ha : s.agent = some .cons) (hrun : s.cons.cstate = .running)
    (hs : s.cons.cstep = x) : exec .consStep s = stepAt x s :=
  (requireAgent_of ha _).trans (consumerStep_of hrun hs)

theorem stepPop_of_empty {s : State} (hr : s.fifo.ready = true) (he : emptySeen s.cfg s.fifo = true) :
    stepPop s = .next { s with result := .hold } := by
  rw [stepPop, if_neg (by simp [hr]), if_pos he]
  rfl

theorem stepPop_of_block {s : State} (hr : s.fifo.ready = true) (he : emptySeen s.cfg s.fifo = false) :
    stepPop s = .next { s with
      fifo := popBlock s.cfg s.fifo
      cons := { s.cons with curHandle := nextHandle s.cfg s.fifo, curValid := true, cstep := .s2Clock }
      result := .done } := by
  rw [stepPop, if_neg (by simp [hr]), if_neg (by simp [he])]
  rfl

/-- Over an open bus the read of the three time bytes is never refused (R312). -/
theorem stepClock_of_open {s : State} (hp : LegalParams s.cfg) (hb : s.i2c.busOpen = true) :
    stepClock s = .next (finishClock (transceive s.cfg.timeBase 3 s)) := by
  obtain ⟨-, -, -, -, -, hbase⟩ := hp
  have hpass : readRefusal s.cfg.timeBase Config.readLen s = none :=
    readRefusal_eq_none hb (by decide) (show s.cfg.timeBase.toNat + 3 ≤ 256 by omega)
  rw [stepClock, hpass, orRefuse_none]
  rfl

theorem stepParse_of_parse {s u : State} (h : parseRecord s.cons.curHandle s = .next u) :
    stepParse s = .next { u with cons := { u.cons with cstep := .s4Sample }, result := .done } := andThen_of_next h _

theorem stepSample_of_not_due {s : State} (h : sampleDue s.cfg (s.cons.capCnt + 1) = false) :
    stepSample s = .next { s with
      cons := { s.cons with capCnt := s.cons.capCnt + 1, cstep := .s5Release }
      result := .done } := if_neg (by simp [h])

/-- A count that is due reads the metadata of the record (R245). -/
theorem stepSample_of_due {s : State} (h : sampleDue s.cfg (s.cons.capCnt + 1) = true) :
    stepSample s = andThen (readSlot s.cons.curHandle 0 s.cfg.metaBytes s) fun m => .next { s with
      cons := { s.cons with capCnt := s.cons.capCnt + 1, cstep := .s5Release }
      log := s.log ++ [sampleEvent m s]
      result := .done } := if_pos h

theorem stepRelease_of_loan {s : State} (hr : s.fifo.ready = true) (hl : loanedBlocks s.fifo ≠ 0)
    (hh : s.cons.curHandle = s.fifo.fr % depth s.cfg) :
    stepRelease s = .next { s with
      fifo := releaseBlock s.cfg s.fifo
      cons := { s.cons with curValid := false, cstep := .s1Pop }
      result := .done } := by
  rw [stepRelease, releaseRefusal_none.2 ⟨hr, hl, hh⟩, orRefuse_none]
  rfl

/-! ### How the loop moves on -/

/-- What one step of the running consumer does to its place in the loop, to the loan and to the FIFO. -/
inductive ConsumerMove (s t : State) : Prop
  | hold : s.cons.cstep = .s1Pop → t.cons = s.cons → t.fifo = s.fifo → ConsumerMove s t
  | pop : s.cons.cstep = .s1Pop → t.cons.cstep = .s2Clock → t.cons.curHandle = nextHandle s.cfg s.fifo →
      t.fifo = popBlock s.cfg s.fifo → ConsumerMove s t
  | onward : (s.cons.cstep = .s2Clock ∧ t.cons.cstep = .s3Parse) ∨
        (s.cons.cstep = .s3Parse ∧ t.cons.cstep = .s4Sample) ∨ (s.cons.cstep = .s4Sample ∧ t.cons.cstep = .s5Release) →
      t.cons.curHandle = s.cons.curHandle → t.fifo = s.fifo → ConsumerMove s t
  | release : s.cons.cstep = .s5Release → t.cons.cstep = .s1Pop → t.fifo = releaseBlock s.cfg s.fifo → ConsumerMove s t

/-- Whatever the transaction's outcome, `S2_CLOCK` leads to `S3_PARSE` and keeps the handle (R243, R273, R274). -/
theorem finishClock_control (s : State) :
    (finishClock s).cons.cstate = s.cons.cstate ∧ (finishClock s).cons.cstep = .s3Parse ∧
      (finishClock s).cons.curHandle = s.cons.curHandle := by
  rcases finishClock_cases s with ⟨-, e⟩ | ⟨-, _, -, e⟩ <;> rw [e] <;> exact ⟨rfl, rfl, rfl⟩

/-- The parser leaves the handle. -/
theorem parseRecord_curHandle {n : Nat} {s t : State} (h : parseRecord n s = .next t) :
    t.cons.curHandle = s.cons.curHandle := by
  obtain ⟨_, _, _, _, _, _, rfl⟩ := parseRecord_eq_next h
  rfl

/-- The consumer steps only while it runs, and it runs on (R249). -/
theorem consumerStep_move {s t : State} (h : consumerStep s = .next t) :
    s.cons.cstate = .running ∧ t.cons.cstate = .running ∧ ConsumerMove s t := by
  obtain ⟨hrun, h⟩ := consumerStep_eq_next h
  refine ⟨hrun, ?_⟩
  rcases h with ⟨hs, h⟩ | ⟨hs, h⟩ | ⟨hs, h⟩ | ⟨hs, h⟩ | ⟨hs, h⟩
  · obtain ⟨-, ⟨-, rfl⟩ | ⟨-, rfl⟩⟩ := stepPop_eq_next h
    · exact ⟨hrun, .hold hs rfl rfl⟩
    · exact ⟨hrun, .pop hs rfl rfl rfl⟩
  · obtain ⟨-, rfl⟩ := stepClock_eq_next h
    obtain ⟨hstate, hstep, hhandle⟩ := finishClock_control (transceive s.cfg.timeBase Config.readLen s)
    exact ⟨hstate.trans (by simpa using hrun), .onward (.inl ⟨hs, hstep⟩) (hhandle.trans (by simp)) (by simp)⟩
  · obtain ⟨u, hu, rfl⟩ := stepParse_eq_next h
    obtain ⟨hstate, -⟩ := parseRecord_control hu
    obtain ⟨hfifo, -⟩ := parseRecord_fifo hu
    have hhandle := parseRecord_curHandle hu
    exact ⟨hstate.trans hrun, .onward (.inr (.inl ⟨hs, rfl⟩)) hhandle hfifo⟩
  · rcases stepSample_eq_next h with ⟨-, rfl⟩ | ⟨-, _, -, rfl⟩ <;>
      exact ⟨hrun, .onward (.inr (.inr ⟨hs, rfl⟩)) rfl rfl⟩
  · obtain ⟨-, -, -, rfl⟩ := stepRelease_eq_next h
    exact ⟨hrun, .release hs rfl rfl⟩

/-! ### The running consumer never stops (R249, R250) -/

/-- A state in which the running consumer can go on: the invariant, and the one-loan law over an initialised channel. -/
structure RunsOn (s : State) : Prop where
  inv  : Inv s
  up   : ConsumerUp s
  loan : OneLoan s

section RunsOn
variable {s t : State} (h : RunsOn s)
include h

theorem RunsOn.running : s.cons.cstate = .running := h.up.1

theorem RunsOn.ready : s.fifo.ready = true := h.up.2

theorem RunsOn.counts : FifoCounts s.cfg s.fifo := h.inv.fifo h.ready

theorem RunsOn.busOpen : s.i2c.busOpen = true := h.inv.registers.runningBus h.running

/-- Off S1_POP the block of `cur_handle` is on loan (R89, R250). -/
theorem RunsOn.onLoan (hs : s.cons.cstep ≠ .s1Pop) : onLoan s.cfg s.fifo s.cons.curHandle = true := by
  obtain ⟨hone, hhandle⟩ := h.loan.2 hs
  have hlt : s.fifo.popped - s.fifo.released = 1 := hone
  refine (h.counts.onLoan_iff h.ready h.inv.depth_pos _).2 ⟨s.fifo.released, Nat.le_refl _, by omega, ?_⟩
  rw [hhandle, h.counts.frCount, mod_double_mod]

/-- The step `cstep` names is never refused and never faults. -/
theorem RunsOn.answers : ∃ t, consumerStep s = .next t := by
  rw [consumerStep_of h.running rfl]
  cases hs : s.cons.cstep with
  | s1Pop =>
    cases he : emptySeen s.cfg s.fifo with
    | true => exact ⟨_, stepPop_of_empty h.ready he⟩
    | false => exact ⟨_, stepPop_of_block h.ready he⟩
  | s2Clock => exact ⟨_, stepClock_of_open h.inv.params h.busOpen⟩
  | s3Parse =>
    obtain ⟨u, hu⟩ := h.inv.parseRecord_of_loan h.ready (h.onLoan (by simp [hs]))
    exact ⟨_, stepParse_of_parse hu⟩
  | s4Sample =>
    cases hd : sampleDue s.cfg (s.cons.capCnt + 1) with
    | false => exact ⟨_, stepSample_of_not_due hd⟩
    | true =>
      have hmeta : 0 + s.cfg.metaBytes ≤ s.cfg.recBytes := by
        obtain ⟨hfc, -, -⟩ := LegalParams.fields_inside h.inv.params
        omega
      obtain ⟨m, hm⟩ := h.counts.readSlot_of_loan h.ready h.inv.depth_pos (h.onLoan (by simp [hs])) hmeta
      exact ⟨_, (stepSample_of_due hd).trans (andThen_of_next hm _)⟩
  | s5Release =>
    obtain ⟨hone, hhandle⟩ := h.loan.2 (by simp [hs])
    exact ⟨_, stepRelease_of_loan h.ready (by omega) hhandle⟩

/-- Every move keeps the one-loan law: the pop makes the only loan, and the release ends it. -/
theorem RunsOn.oneLoan_move (hc : t.cfg = s.cfg) (hm : ConsumerMove s t) : OneLoan t := by
  cases hm with
  | hold hs hk hf =>
    rw [OneLoan, hk, hf, hc]
    exact h.loan
  | pop hs ht hh hf =>
    have hnone : s.fifo.popped - s.fifo.released = 0 := h.loan.1 hs
    have heq : s.fifo.popped = s.fifo.released := by
      have := h.counts.frLeRd
      omega
    refine ⟨fun he => by simp [ht] at he, fun _ => ⟨?_, ?_⟩⟩
    · rw [hf]
      show s.fifo.popped + 1 - s.fifo.released = 1
      omega
    · rw [hh, hf, hc, nextHandle, h.counts.rdCount, heq, ← h.counts.frCount]
      rfl
  | onward hs hh hf =>
    have hs1 : s.cons.cstep ≠ .s1Pop ∧ t.cons.cstep ≠ .s1Pop := by
      rcases hs with ⟨hs, ht⟩ | ⟨hs, ht⟩ | ⟨hs, ht⟩ <;> simp [hs, ht]
    rw [OneLoan, hh, hf, hc]
    exact ⟨fun he => absurd he hs1.2, fun _ => h.loan.2 hs1.1⟩
  | release hs ht hf =>
    have hone : s.fifo.popped - s.fifo.released = 1 := (h.loan.2 (by simp [hs])).1
    refine ⟨fun _ => ?_, fun he => absurd ht he⟩
    rw [hf]
    show s.fifo.popped - (s.fifo.released + 1) = 0
    omega

theorem RunsOn.of_step (ht : consumerStep s = .next t) : RunsOn t := by
  obtain ⟨-, hrun, hmove⟩ := consumerStep_move ht
  exact ⟨h.inv.consumerStep ht, ⟨hrun, (consumerStep_ready ht).trans h.ready⟩,
    h.oneLoan_move (consumerStep_extends ht).cfg hmove⟩

end RunsOn

/-- Settles O50: the step `cstep` names answers, and every move of the loop keeps the law. -/
theorem runningConsumerNeverStops : Obligations.RunningConsumerNeverStops := by
  intro s hinv hup hloan ha
  have h : RunsOn s := ⟨hinv, hup, hloan⟩
  obtain ⟨t, ht⟩ := h.answers
  obtain ⟨hinv', hup', hloan'⟩ := h.of_step ht
  exact ⟨t, (requireAgent_of ha _).trans ht, hinv', hup', hloan'⟩

/-! ### One pass, with the environment's turns (R247, R283) -/

/-- What no environment step but a reset touches while the consumer runs: its registers and its side of the FIFO. -/
structure KeepsConsumer (s t : State) : Prop where
  cons     : t.cons = s.cons
  ready    : t.fifo.ready = s.fifo.ready
  fr       : t.fifo.fr = s.fifo.fr
  popped   : t.fifo.popped = s.fifo.popped
  released : t.fifo.released = s.fifo.released

theorem runEvent_keepsConsumer {k : EventKind} (hk : k ≠ .reset) {s : State} (hrun : s.cons.cstate = .running) :
    KeepsConsumer s (runEvent k s) := by
  have hready := runEvent_ready hk s
  cases k with
  | frame p ft frame =>
    obtain ⟨-, hfr, hpopped, hreleased⟩ :=
      onFrame_consumerSide p { s with hwbuf := offeredBuffer p frame, agent := some .prod }
    exact ⟨radioFrame_cons p frame s, hready, hfr, hpopped, hreleased⟩
  | tick | chipFlags => exact ⟨rfl, rfl, rfl, rfl, rfl⟩
  | sync x y => rcases runEvent_sync_cases x y s with e | e <;> rw [e] <;> exact ⟨rfl, rfl, rfl, rfl, rfl⟩
  | radioInitFail =>
    have e : runEvent .radioInitFail s = { s with exc := s.exc ++ [.radioInit] } := if_neg (by simp [hrun])
    rw [e]
    exact ⟨rfl, rfl, rfl, rfl, rfl⟩
  | reset => exact absurd rfl hk

theorem KeepsConsumer.trans {s t u : State} (h : KeepsConsumer s t) (h' : KeepsConsumer t u) : KeepsConsumer s u :=
  ⟨h'.cons.trans h.cons, h'.ready.trans h.ready, h'.fr.trans h.fr, h'.popped.trans h.popped,
    h'.released.trans h.released⟩

theorem betweenSteps_keepsConsumer {s : State} (hrun : s.cons.cstate = .running) : KeepsConsumer s (betweenSteps s) :=
  betweenSteps_induct (P := KeepsConsumer s)
    (fun _ _ hk h => h.trans (runEvent_keepsConsumer hk ((congrArg Consumer.cstate h.cons).trans hrun)))
    (fun _ _ h => ⟨h.cons, h.ready, h.fr, h.popped, h.released⟩)
    (fun _ _ h => ⟨h.cons, h.ready, h.fr, h.popped, h.released⟩) ⟨rfl, rfl, rfl, rfl, rfl⟩

/-- The step after the named one. -/
def CStep.next : CStep → CStep
  | .s1Pop => .s2Clock
  | .s2Clock => .s3Parse
  | .s3Parse => .s4Sample
  | .s4Sample => .s5Release
  | .s5Release => .s1Pop

theorem nextConsumerStep_of {s : State} {x : CStep} (hrun : s.cons.cstate = .running) (hs : s.cons.cstep = x) :
    nextConsumerStep s = stepAt x (betweenSteps s) := by
  have hcons := (betweenSteps_keepsConsumer hrun).cons
  exact consumerStep_of (by rw [hcons, hrun]) (by rw [hcons, hs])

/-- Off S1_POP the loop never waits: each step leads to the next one. -/
theorem nextConsumerStep_onward {s t : State} {x : CStep} (hrun : s.cons.cstate = .running) (hs : s.cons.cstep = x)
    (hx : x ≠ .s1Pop) (h : nextConsumerStep s = .next t) :
    stepAt x (betweenSteps s) = .next t ∧ t.cons.cstate = .running ∧ t.cons.cstep = x.next := by
  obtain ⟨-, hrun', hmove⟩ := consumerStep_move h
  have hb : (betweenSteps s).cons.cstep = x := by rw [(betweenSteps_keepsConsumer hrun).cons, hs]
  refine ⟨(nextConsumerStep_of hrun hs).symm.trans h, hrun', ?_⟩
  cases hmove with
  | hold hs1 | pop hs1 => exact absurd (hb.symm.trans hs1) hx
  | onward hstep =>
    rcases hstep with ⟨h1, h2⟩ | ⟨h1, h2⟩ | ⟨h1, h2⟩ <;>
      · rw [h2, ← hb, h1]
        rfl
  | release h1 h2 =>
    rw [h2, ← hb, h1]
    rfl

/-- A pass is the pop and, unless that held, the four steps after it. -/
theorem execConsCycle_of {s : State} (ha : s.agent = some .cons) (hrun : s.cons.cstate = .running)
    (hs : s.cons.cstep = .s1Pop) :
    execConsCycle s =
      andThen (stepPop s) fun s1 => if s1.cons.cstep = .s1Pop then .next s1 else finishCycle s1 := by
  rw [execConsCycle, requireAgent_of ha, if_neg (by simp [hrun]), if_neg (by simp [hs]), consumerStep_of hrun hs]
  rfl

/-- The five steps of a pass that does not hold, with the environment's turn before each of the last four: the consumer
runs at each turn. -/
structure Pass (s s1 s2 s3 s4 t : State) : Prop where
  running : ∀ u ∈ [s1, s2, s3, s4], u.cons.cstate = .running
  pop     : stepPop s = .next s1
  clock   : stepClock (betweenSteps s1) = .next s2
  parse   : stepParse (betweenSteps s2) = .next s3
  sample  : stepSample (betweenSteps s3) = .next s4
  release : stepRelease (betweenSteps s4) = .next t

/-- A pass that answers has held at S1_POP over a FIFO it saw empty, or has gone through the five steps. -/
theorem execConsCycle_eq_next {s t : State} (h : execConsCycle s = .next t) :
    s.cons.cstate = .running ∧ s.cons.cstep = .s1Pop ∧
      ((emptySeen s.cfg s.fifo = true ∧ t = { s with result := .hold }) ∨
        (emptySeen s.cfg s.fifo = false ∧ ∃ s1 s2 s3 s4, Pass s s1 s2 s3 s4 t)) := by
  obtain ⟨ha, hguard⟩ := requireAgent_eq_next.1 h
  obtain ⟨hrun, hguard⟩ := ifRefused_eq_next.1 hguard
  obtain ⟨hs, -⟩ := ifRefused_eq_next.1 hguard
  have hrun : s.cons.cstate = .running := by simpa using hrun
  have hs : s.cons.cstep = .s1Pop := by simpa using hs
  refine ⟨hrun, hs, ?_⟩
  rw [execConsCycle_of ha hrun hs] at h
  obtain ⟨s1, h1, h⟩ := andThen_eq_next.1 h
  obtain ⟨-, ⟨he, rfl⟩ | ⟨he, e1⟩⟩ := stepPop_eq_next h1
  · rw [if_pos hs] at h
    cases h
    exact .inl ⟨he, rfl⟩
  · have hrun1 : s1.cons.cstate = .running := by rw [e1]; exact hrun
    have hs1 : s1.cons.cstep = .s2Clock := by rw [e1]
    rw [if_neg (by simp [hs1])] at h
    obtain ⟨s2, h2, h⟩ := andThen_eq_next.1 h
    obtain ⟨h2, hrun2, hs2⟩ := nextConsumerStep_onward hrun1 hs1 (by simp) h2
    obtain ⟨s3, h3, h⟩ := andThen_eq_next.1 h
    obtain ⟨h3, hrun3, hs3⟩ := nextConsumerStep_onward hrun2 hs2 (by simp [CStep.next]) h3
    obtain ⟨s4, h4, h⟩ := andThen_eq_next.1 h
    obtain ⟨h4, hrun4, hs4⟩ := nextConsumerStep_onward hrun3 hs3 (by simp [CStep.next]) h4
    obtain ⟨h5, -, -⟩ := nextConsumerStep_onward hrun4 hs4 (by simp [CStep.next]) h
    exact .inr ⟨he, s1, s2, s3, s4, by simp [hrun1, hrun2, hrun3, hrun4], h1, h2, h3, h4, h5⟩

/-- A pass leaves the running consumer where it began, held or done (R247). -/
theorem execConsCycle_control {s t : State} (h : execConsCycle s = .next t) :
    s.cons.cstate = .running ∧ t.cons.cstate = .running ∧ t.cons.cstep = s.cons.cstep := by
  obtain ⟨u, hu⟩ := execConsCycle_last h
  obtain ⟨-, hrun', -⟩ := consumerStep_move hu
  obtain ⟨hrun, hs, ⟨-, rfl⟩ | ⟨-, _, _, _, _, hpass⟩⟩ := execConsCycle_eq_next h
  · exact ⟨hrun, hrun', rfl⟩
  · obtain ⟨-, -, -, rfl⟩ := stepRelease_eq_next hpass.release
    exact ⟨hrun, hrun', hs.symm⟩

/-! ### The control state (R249, R286) -/

/-- The edges of R249: RUNNING and FATAL are not left, and `cstep` stays or goes once along the loop of the running
consumer. -/
structure ControlEdge (s t : State) : Prop where
  running : s.cons.cstate = .running → t.cons.cstate = .running
  fatal   : s.cons.cstate = .fatal → t.cons.cstate = .fatal
  cstep   : t.cons.cstep = s.cons.cstep ∨ (s.cons.cstate = .running ∧
    ((s.cons.cstep = .s1Pop ∧ t.cons.cstep = .s2Clock) ∨ (s.cons.cstep = .s2Clock ∧ t.cons.cstep = .s3Parse) ∨
      (s.cons.cstep = .s3Parse ∧ t.cons.cstep = .s4Sample) ∨ (s.cons.cstep = .s4Sample ∧ t.cons.cstep = .s5Release) ∨
      (s.cons.cstep = .s5Release ∧ t.cons.cstep = .s1Pop)))

theorem ControlEdge.of_eq {s t : State} (hstate : t.cons.cstate = s.cons.cstate) (hstep : t.cons.cstep = s.cons.cstep) :
    ControlEdge s t := ⟨hstate.trans, hstate.trans, .inl hstep⟩

theorem ControlEdge.of_cons {s t : State} (h : t.cons = s.cons) : ControlEdge s t :=
  .of_eq (congrArg Consumer.cstate h) (congrArg Consumer.cstep h)

theorem consumerStep_controlEdge {s t : State} (h : consumerStep s = .next t) : ControlEdge s t := by
  obtain ⟨hrun, hrun', hmove⟩ := consumerStep_move h
  refine ⟨fun _ => hrun', fun hf => (by cases hrun.symm.trans hf), ?_⟩
  cases hmove with
  | hold _ hk => exact .inl (congrArg Consumer.cstep hk)
  | pop h1 h2 => exact .inr ⟨hrun, .inl ⟨h1, h2⟩⟩
  | onward hs =>
    rcases hs with hs | hs | hs
    · exact .inr ⟨hrun, .inr (.inl hs)⟩
    · exact .inr ⟨hrun, .inr (.inr (.inl hs))⟩
    · exact .inr ⟨hrun, .inr (.inr (.inr (.inl hs)))⟩
  | release h1 h2 => exact .inr ⟨hrun, .inr (.inr (.inr (.inr ⟨h1, h2⟩)))⟩

/-- Start-up leaves `cstep` at the loop's first step. -/
theorem startConsumer_cstep {s : State} (hs : s.cons.cstep = .s1Pop) : (startConsumer s).cons.cstep = .s1Pop := by
  have hopen := (openBus_cstep s).trans hs
  unfold startConsumer
  split
  · rcases finishInit_cases (writeTime s.cfg.seedTod (openBus s)) with ⟨-, e⟩ | ⟨-, e⟩ <;> rw [e]
    exact hopen
  · exact hopen

/-- Under the invariant the bus of a running consumer is open, so no instruction can make it FATAL, and it starts at
S1_POP. -/
theorem Effect.controlEdge {s t : State} (h : Effect s t) (hinv : Inv s) : ControlEdge s t := by
  induction h with
  | unchanged | initFifo | push | draw | pop | release | packTime | unpackTime | transmit | writeTime | decodeFc =>
    exact .of_eq rfl rfl
  | result r _ ih => exact ⟨ih.running, ih.fatal, ih.cstep⟩
  | callback p => exact .of_cons (onFrame_cons p s)
  | openBus hc hb =>
    refine ⟨fun hrun => ?_, fun hf => absurd hf hc.2, .inl (openBus_cstep s)⟩
    rw [hinv.registers.runningBus hrun] at hb
    cases hb
  | transceive => exact .of_cons (transceive_cons _ _ s)
  | loadFc _ ht =>
    obtain ⟨_, -, rfl⟩ := loadFc_eq_next ht
    exact .of_eq rfl rfl
  | extractAddrs _ ht =>
    obtain ⟨_, _, -, -, rfl⟩ := extractAddrs_eq_next ht
    exact .of_eq rfl rfl
  | parseRecord _ ht =>
    obtain ⟨hstate, hstep⟩ := parseRecord_control ht
    exact .of_eq hstate hstep
  | start _ hi =>
    have hs := hinv.registers.initAtS1 hi
    exact ⟨fun h => (by cases hi.symm.trans h), fun h => (by cases hi.symm.trans h),
      .inl ((startConsumer_cstep hs).trans hs.symm)⟩
  | step _ ht => exact consumerStep_controlEdge ht
  | cycle _ ht =>
    obtain ⟨hrun, hrun', hs⟩ := execConsCycle_control ht
    exact .of_eq (hrun'.trans hrun.symm) hs

/-- Of the environment only the host's radio failure moves `cstate`, and only out of INIT (R276). -/
theorem runEvent_controlEdge {k : EventKind} (hk : k ≠ .reset) (s : State) : ControlEdge s (runEvent k s) := by
  cases k with
  | frame p ft frame => exact .of_cons (radioFrame_cons p frame s)
  | tick | chipFlags => exact .of_eq rfl rfl
  | sync x y => rcases runEvent_sync_cases x y s with e | e <;> rw [e] <;> exact .of_eq rfl rfl
  | radioInitFail =>
    by_cases hi : s.cons.cstate = .init
    · have e : runEvent .radioInitFail s = raise .radioInit s := if_pos hi
      rw [e]
      exact ⟨fun h => (by cases hi.symm.trans h), fun _ => rfl, .inl rfl⟩
    · have e : runEvent .radioInitFail s = { s with exc := s.exc ++ [.radioInit] } := if_neg hi
      rw [e]
      exact .of_eq rfl rfl
  | reset => exact absurd rfl hk

theorem deliver_controlEdge {e : Event} (he : e.kind ≠ .reset) (s : State) : ControlEdge s (deliver e s) := by
  obtain ⟨hrun, hf, hs⟩ := runEvent_controlEdge he { s with draws := { s.draws with script := e.draws } }
  exact ⟨hrun, hf, hs⟩

theorem runAs_controlEdge {a : Agent} {ds : List Nat} {i : Instr} {s t : State} (hinv : Inv s)
    (h : runAs a ds i s = .next t) : ControlEdge s t := by
  obtain ⟨u, hu, rfl⟩ := runAs_eq_next.1 h
  have hin : Inv (enterAs a ds s) := hinv.congr
  obtain ⟨hrun, hf, hs⟩ := (exec_effect hu).controlEdge hin
  exact ⟨hrun, hf, hs⟩

theorem runStep_controlEdge {s t : State} (hinv : Inv s) (hn : ¬ ResetDue s) (h : runStep s = .next t) :
    ControlEdge s t := by
  rcases runStep_cases h with ⟨e, es, hs, hw, rfl⟩ | ⟨-, a, ds, i, ls, hr, -⟩ | ⟨-, rfl⟩
  · have he : e.kind ≠ .reset := fun hk => hn ⟨e.draws, es, by rw [hs, ← hw, ← hk]⟩
    obtain ⟨hrun, hf, hstep⟩ := deliver_controlEdge he { s with events := es }
    exact ⟨hrun, hf, hstep⟩
  · have hin : Inv { s with events := countDown s.events, sched := ls } := hinv.congr
    obtain ⟨hrun, hf, hstep⟩ := runAs_controlEdge hin hr
    exact ⟨hrun, hf, hstep⟩
  · exact .of_eq rfl rfl

/-- Settles O52: every effect of an instruction and every environment step but a reset goes along an edge of R249. -/
theorem controlStateEdges : Obligations.ControlStateEdges := by
  intro s t hinv h
  refine ⟨fun ⟨d, es, hs⟩ => ?reset, fun hn => ?edges⟩
  case reset =>
    rw [step_due hinv.params hs rfl] at h
    cases h
    rfl
  case edges =>
    obtain ⟨hrun, hf, hstep⟩ := runStep_controlEdge hinv hn (step_eq_next.1 h).2
    exact ⟨hrun, hf, hstep⟩

/-! ### The sampling law (R248) -/

/-- The number of `LogSample` events is `cap_cnt div SAMPLE_N` (R248). -/
def SampleLaw (s : State) : Prop := sampleCount s.log = s.cons.capCnt / s.cfg.sampleN

/-- The law looks at `LOG`, `cap_cnt` and `SAMPLE_N` alone. -/
theorem SampleLaw.congr {s t : State} (h : SampleLaw s) (hl : t.log = s.log := by rfl)
    (hn : t.cons.capCnt = s.cons.capCnt := by rfl) (hc : t.cfg = s.cfg := by rfl) : SampleLaw t := by
  rw [SampleLaw, hl, hn, hc]
  exact h

theorem sampleCount_append (l : List LogEvent) (e : LogEvent) :
    sampleCount (l ++ [e]) = sampleCount l + if isSample e then 1 else 0 := by
  cases h : isSample e <;> simp [sampleCount, h]

/-- The quotient grows by one exactly where the incremented count is due. -/
theorem SampleLaw.stepSample {s t : State} (h : SampleLaw s) (ht : stepSample s = .next t) : SampleLaw t := by
  have hdiv : (s.cons.capCnt + 1) / s.cfg.sampleN =
      s.cons.capCnt / s.cfg.sampleN + if s.cfg.sampleN ∣ s.cons.capCnt + 1 then 1 else 0 := Nat.succ_div
  rcases stepSample_eq_next ht with ⟨hd, rfl⟩ | ⟨hd, m, -, rfl⟩
  · have hn : ¬ s.cfg.sampleN ∣ s.cons.capCnt + 1 := fun hdvd =>
      of_decide_eq_false hd (Nat.mod_eq_zero_of_dvd hdvd)
    rw [if_neg hn] at hdiv
    exact Eq.trans h hdiv.symm
  · rw [if_pos (Nat.dvd_of_mod_eq_zero (of_decide_eq_true hd))] at hdiv
    show sampleCount (s.log ++ [sampleEvent m s]) = (s.cons.capCnt + 1) / s.cfg.sampleN
    rw [hdiv, sampleCount_append, show sampleCount s.log = _ from h]
    rfl

theorem finishClock_capCnt (s : State) : (finishClock s).cons.capCnt = s.cons.capCnt := by
  rcases finishClock_cases s with ⟨-, e⟩ | ⟨-, _, -, e⟩ <;> rw [e]

theorem SampleLaw.consumerStep {s t : State} (h : SampleLaw s) (ht : consumerStep s = .next t) : SampleLaw t := by
  obtain ⟨-, ht⟩ := consumerStep_eq_next ht
  rcases ht with ⟨-, ht⟩ | ⟨-, ht⟩ | ⟨-, ht⟩ | ⟨-, ht⟩ | ⟨-, ht⟩
  · obtain ⟨-, ⟨-, rfl⟩ | ⟨-, rfl⟩⟩ := stepPop_eq_next ht <;> exact h.congr
  · obtain ⟨-, rfl⟩ := stepClock_eq_next ht
    exact h.congr (by simp) (by simp [finishClock_capCnt]) (by simp)
  · obtain ⟨u, hu, rfl⟩ := stepParse_eq_next ht
    obtain ⟨_, _, _, -, -, -, rfl⟩ := parseRecord_eq_next hu
    exact h.congr
  · exact h.stepSample ht
  · obtain ⟨-, -, -, rfl⟩ := stepRelease_eq_next ht
    exact h.congr

/-- The seed is no `LogSample` (R122). -/
theorem SampleLaw.finishInit {s : State} (h : SampleLaw s) : SampleLaw (finishInit s) := by
  rcases finishInit_cases s with ⟨-, e⟩ | ⟨-, e⟩ <;> rw [e]
  · exact (sampleCount_append s.log _).trans h
  · exact h.congr

theorem SampleLaw.openBus {s : State} (h : SampleLaw s) : SampleLaw (openBus s) := by
  rcases openBus_cases s with ⟨-, e⟩ | ⟨-, e⟩ <;> rw [e] <;> exact h.congr

theorem SampleLaw.startConsumer {s : State} (h : SampleLaw s) : SampleLaw (startConsumer s) := by
  unfold Machine.startConsumer
  split
  · exact SampleLaw.finishInit (h.openBus.congr (t := writeTime s.cfg.seedTod (Machine.openBus s)))
  · exact h.openBus.congr

/-- A reset empties `LOG` and clears `cap_cnt`; no other environment step touches either. -/
theorem SampleLaw.runEvent {s : State} (h : SampleLaw s) (k : EventKind) : SampleLaw (runEvent k s) := by
  cases k with
  | frame p ft frame => exact h.congr (radioFrame_log p frame s) (by simp [Machine.runEvent]) (radioFrame_cfg p frame s)
  | tick | chipFlags => exact h.congr
  | sync x y => rcases runEvent_sync_cases x y s with e | e <;> rw [e] <;> exact h.congr
  | radioInitFail =>
    show SampleLaw (radioInitFailed s)
    unfold radioInitFailed
    split <;> exact h.congr
  | reset => exact (Nat.zero_div _).symm

theorem SampleLaw.execConsCycle {s t : State} (h : SampleLaw s) (ht : execConsCycle s = .next t) : SampleLaw t :=
  consCycle_induct (fun _ _ h ht => h.consumerStep ht)
    (fun _ h => betweenSteps_induct (fun k _ _ h => h.runEvent k) (fun _ _ h => h.congr) (fun _ _ h => h.congr) h) h ht

theorem SampleLaw.effect {s t : State} (h : SampleLaw s) (ht : Effect s t) : SampleLaw t := by
  induction ht with
  | result r _ ih => exact ih.congr
  | unchanged | initFifo | push | draw | pop | release | packTime | unpackTime | transmit | writeTime | decodeFc =>
    exact h.congr
  | callback p => exact h.congr (by simp) (by simp) (by simp)
  | openBus => exact h.openBus
  | transceive => exact h.congr (by simp) (by simp) (by simp)
  | loadFc _ ht =>
    obtain ⟨_, -, rfl⟩ := loadFc_eq_next ht
    exact h.congr
  | extractAddrs _ ht =>
    obtain ⟨_, _, -, -, rfl⟩ := extractAddrs_eq_next ht
    exact h.congr
  | parseRecord _ ht =>
    obtain ⟨_, _, _, -, -, -, rfl⟩ := parseRecord_eq_next ht
    exact h.congr
  | start => exact h.startConsumer
  | step _ ht => exact h.consumerStep ht
  | cycle _ ht => exact h.execConsCycle ht

/-- Settles O53: only S4_SAMPLE touches both sides of the law, and a reset sets both to zero. -/
theorem sampleCountIsKept : Obligations.SampleCountIsKept := by
  intro s t hlaw h
  have hs : SampleLaw s := hlaw
  exact runStep_induct (P := SampleLaw) (fun k _ h => h.runEvent k) (fun _ _ _ h ht => h.effect (exec_effect ht))
    (fun _ _ h => h.congr) (fun _ _ h => h.congr) (fun _ _ h => h.congr) (fun _ _ h => h.congr) (fun _ _ h => h.congr)
    hs (step_eq_next.1 h).2

/-! ### The net effect of a pass (R247) -/

/-- The consumer still runs on where the invariant, its registers and its side of the FIFO are kept. -/
theorem RunsOn.keep {s t : State} (h : RunsOn s) (hinv : Inv t) (hc : t.cfg = s.cfg) (hk : KeepsConsumer s t) :
    RunsOn t := by
  obtain ⟨hcons, hready, hfr, hpopped, hreleased⟩ := hk
  refine ⟨hinv, ⟨(congrArg Consumer.cstate hcons).trans h.running, hready.trans h.ready⟩, ?_⟩
  rw [OneLoan, loanedBlocks, hcons, hpopped, hreleased, hfr, hc]
  exact h.loan

theorem RunsOn.runEvent {s : State} (h : RunsOn s) {k : EventKind} (hk : k ≠ .reset) : RunsOn (runEvent k s) :=
  h.keep (h.inv.runEvent k) (runEvent_cfg k s) (runEvent_keepsConsumer hk h.running)

theorem RunsOn.betweenSteps {s : State} (h : RunsOn s) : RunsOn (betweenSteps s) :=
  h.keep (betweenSteps_induct (fun k _ _ h => h.runEvent k) (fun _ _ h => h.congr) (fun _ _ h => h.congr) h.inv)
    (betweenSteps_cfg s) (betweenSteps_keepsConsumer h.running)

theorem RunsOn.nextStep {s : State} (h : RunsOn s) : ∃ t, nextConsumerStep s = .next t ∧ RunsOn t := by
  obtain ⟨t, ht⟩ := h.betweenSteps.answers
  exact ⟨t, ht, h.betweenSteps.of_step ht⟩

/-- A pass of a consumer that runs on answers, whatever the environment does in it. -/
theorem RunsOn.execConsCycle {s : State} (h : RunsOn s) (ha : s.agent = some .cons) (hs : s.cons.cstep = .s1Pop) :
    ∃ t, execConsCycle s = .next t := by
  obtain ⟨s1, h1⟩ := h.answers
  obtain ⟨s2, h2, r2⟩ := (h.of_step h1).nextStep
  obtain ⟨s3, h3, r3⟩ := r2.nextStep
  obtain ⟨s4, h4, r4⟩ := r3.nextStep
  obtain ⟨t, h5, -⟩ := r4.nextStep
  have hpop : stepPop s = .next s1 := (consumerStep_of h.running hs).symm.trans h1
  rw [execConsCycle_of ha h.running hs, hpop, andThen_next]
  split
  · exact ⟨s1, rfl⟩
  · rw [finishCycle, h2, andThen_next, h3, andThen_next, h4, andThen_next]
    exact ⟨t, h5⟩

/-- From `s` to `t` the counts `RD`, `FR` and `cap_cnt` have grown by the given numbers and the two streams by the given
entries; the parameters, the context and the schedule stand. -/
structure Adds (s t : State) (popped released capCnt : Nat) (bus : List BusEvent) (log : List LogEvent) : Prop where
  cfg      : t.cfg = s.cfg
  agent    : t.agent = s.agent
  sched    : t.sched = s.sched
  popped   : t.fifo.popped = s.fifo.popped + popped
  released : t.fifo.released = s.fifo.released + released
  capCnt   : t.cons.capCnt = s.cons.capCnt + capCnt
  bus      : t.bus = s.bus ++ bus
  log      : t.log = s.log ++ log

theorem Adds.trans {s t u : State} {p r c p' r' c' : Nat} {b b' : List BusEvent} {l l' : List LogEvent}
    (h : Adds s t p r c b l) (h' : Adds t u p' r' c' b' l') :
    Adds s u (p + p') (r + r') (c + c') (b ++ b') (l ++ l') where
  cfg      := h'.cfg.trans h.cfg
  agent    := h'.agent.trans h.agent
  sched    := h'.sched.trans h.sched
  popped   := by rw [h'.popped, h.popped, Nat.add_assoc]
  released := by rw [h'.released, h.released, Nat.add_assoc]
  capCnt   := by rw [h'.capCnt, h.capCnt, Nat.add_assoc]
  bus      := by rw [h'.bus, h.bus, List.append_assoc]
  log      := by rw [h'.log, h.log, List.append_assoc]

theorem betweenSteps_adds {s : State} (hrun : s.cons.cstate = .running) : Adds s (betweenSteps s) 0 0 0 [] [] := by
  obtain ⟨hcons, -, -, hpopped, hreleased⟩ := betweenSteps_keepsConsumer hrun
  exact ⟨betweenSteps_cfg s, betweenSteps_agent s, betweenSteps_sched s, hpopped, hreleased,
    congrArg Consumer.capCnt hcons, by simp, by simp⟩

theorem stepPop_adds {s t : State} (h : stepPop s = .next t) (he : emptySeen s.cfg s.fifo = false) :
    Adds s t 1 0 0 [] [] := by
  obtain ⟨-, ⟨he', -⟩ | ⟨-, rfl⟩⟩ := stepPop_eq_next h
  · rw [he] at he'
    cases he'
  · exact ⟨rfl, rfl, rfl, rfl, rfl, rfl, (List.append_nil _).symm, (List.append_nil _).symm⟩

theorem stepClock_adds {s t : State} (h : stepClock s = .next t) :
    ∃ o r, Adds s t 0 0 0 [.writeRead [s.cfg.timeBase] 3 o r] [] := by
  obtain ⟨-, rfl⟩ := stepClock_eq_next h
  exact ⟨_, _, by simp, by simp, by simp, by simp, by simp, by simp [finishClock_capCnt],
    (finishClock_bus _).trans (transceive_bus _ _ s), by simp⟩

theorem stepParse_adds {s t : State} (h : stepParse s = .next t) : Adds s t 0 0 0 [] [] := by
  obtain ⟨u, hu, rfl⟩ := stepParse_eq_next h
  obtain ⟨_, _, _, -, -, -, rfl⟩ := parseRecord_eq_next hu
  exact ⟨rfl, rfl, rfl, rfl, rfl, rfl, (List.append_nil _).symm, (List.append_nil _).symm⟩

theorem stepSample_adds {s t : State} (h : stepSample s = .next t) :
    ∃ l, (l = [] ∨ ∃ e, isSample e = true ∧ l = [e]) ∧ Adds s t 0 0 1 [] l := by
  rcases stepSample_eq_next h with ⟨-, rfl⟩ | ⟨-, m, -, rfl⟩
  · exact ⟨[], .inl rfl, rfl, rfl, rfl, rfl, rfl, rfl, (List.append_nil _).symm, (List.append_nil _).symm⟩
  · exact ⟨[sampleEvent m s], .inr ⟨_, rfl, rfl⟩, rfl, rfl, rfl, rfl, rfl, rfl, (List.append_nil _).symm, rfl⟩

theorem stepRelease_adds {s t : State} (h : stepRelease s = .next t) : Adds s t 0 1 0 [] [] := by
  obtain ⟨-, -, -, rfl⟩ := stepRelease_eq_next h
  exact ⟨rfl, rfl, rfl, rfl, rfl, rfl, (List.append_nil _).symm, (List.append_nil _).symm⟩

/-- What a whole pass adds: the sum of its five steps, the environment's turns adding nothing. -/
theorem Pass.adds {s s1 s2 s3 s4 t : State} (h : Pass s s1 s2 s3 s4 t) (he : emptySeen s.cfg s.fifo = false) :
    ∃ o r l, (l = [] ∨ ∃ e, isSample e = true ∧ l = [e]) ∧ Adds s t 1 1 1 [.writeRead [s.cfg.timeBase] 3 o r] l := by
  have hturn : ∀ u ∈ [s1, s2, s3, s4], Adds u (betweenSteps u) 0 0 0 [] [] := fun u hu =>
    betweenSteps_adds (h.running u hu)
  have hpop := (stepPop_adds h.pop he).trans (hturn s1 (by simp))
  obtain ⟨o, r, hclock⟩ := stepClock_adds h.clock
  have hparse := (hturn s2 (by simp)).trans (stepParse_adds h.parse)
  obtain ⟨l, hl, hsample⟩ := stepSample_adds h.sample
  have hrelease := (hturn s4 (by simp)).trans (stepRelease_adds h.release)
  rw [hpop.cfg] at hclock
  have hall := (hpop.trans hclock).trans ((hparse.trans ((hturn s3 (by simp)).trans hsample)).trans hrelease)
  exact ⟨o, r, l, hl, by simpa using hall⟩

/-- Settles O49: the pass answers from every state in which the consumer runs on, and its five steps add up. -/
theorem cycleNetEffect : Obligations.CycleNetEffect := by
  intro s hinv hup hloan ha hs
  have hr : RunsOn s := ⟨hinv, hup, hloan⟩
  obtain ⟨t, ht⟩ := hr.execConsCycle ha hs
  obtain ⟨-, -, hcases⟩ := execConsCycle_eq_next ht
  refine ⟨fun hblock => ?pass, fun hempty => ?hold⟩
  case pass =>
    obtain ⟨he, -⟩ | ⟨he, s1, s2, s3, s4, hpass⟩ := hcases
    · have := (emptySeen_iff s.cfg s.fifo).1 he
      omega
    · obtain ⟨-, hrun, hstep⟩ := execConsCycle_control ht
      obtain ⟨o, r, l, hl, hadds⟩ := hpass.adds he
      refine ⟨t, ht, hadds.popped, hadds.released, hadds.capCnt, hstep.trans hs, hrun, hadds.agent, hadds.cfg,
        hadds.sched, ⟨o, r, hadds.bus⟩, ?_⟩
      obtain rfl | ⟨e, hsample, rfl⟩ := hl
      · exact .inl (hadds.log.trans (List.append_nil _))
      · exact .inr ⟨e, hsample, hadds.log⟩
  case hold =>
    have he := (emptySeen_iff s.cfg s.fifo).2 hempty
    obtain ⟨-, rfl⟩ | ⟨he', -⟩ := hcases
    · exact ht
    · rw [he] at he'
      cases he'

end Sys2Proof.Machine
end

section
/-! PROOFS. What each operation of 44_sequencers.md answers: the five steps of the consumer's loop (R242 to R246), the
producer's callback (R240, R251), the consumer's start-up (R241) and its refusals. -/
namespace Sys2Proof.Machine

/-! ### The five steps (R242 to R246) -/

/-- Settles O44: the pop's two answers, by what the consumer sees of the FIFO. -/
theorem stepPopResult : Obligations.StepPopResult := by
  intro s ha hrun hs hr
  rw [exec_consStep ha hrun hs]
  refine ⟨fun hblock => stepPop_of_block hr ?_, fun hempty => stepPop_of_empty hr ((emptySeen_iff _ _).2 hempty)⟩
  exact Bool.eq_false_iff.2 fun he => Nat.ne_of_gt hblock ((emptySeen_iff _ _).1 he)

theorem sampleDue_iff (c : Params) (n : Nat) : sampleDue c n = true ↔ n % c.sampleN = 0 := decide_eq_true_iff

/-- A count that is due logs the metadata it reads (R245). -/
theorem stepSample_of_read {s : State} {m : List Byte} (hd : sampleDue s.cfg (s.cons.capCnt + 1) = true)
    (hm : readSlot s.cons.curHandle 0 s.cfg.metaBytes s = .next m) :
    stepSample s = .next { s with
      cons := { s.cons with capCnt := s.cons.capCnt + 1, cstep := .s5Release }
      log := s.log ++ [sampleEvent m s]
      result := .done } := (stepSample_of_due hd).trans (andThen_of_next hm _)

/-- The metadata of a record on loan lies in its slot (R101, R312). -/
theorem readSlot_metadata {s : State} {h : Nat} {m : List Byte} (hp : LegalParams s.cfg)
    (hl : onLoan s.cfg s.fifo h = true) (hlen : m.length = s.cfg.metaBytes)
    (hm : ∀ k, k < s.cfg.metaBytes → slotByte s.cfg s.fifo h k = m[k]?) :
    readSlot h 0 s.cfg.metaBytes s = .next m := by
  obtain ⟨hfc, -, -⟩ := hp.fields_inside
  exact readSlot_of_slotBytes hl (by omega) hlen fun k hk => by rw [Nat.zero_add, hm k hk]

/-- Settles O47: the incremented count decides whether the metadata is read and logged. -/
theorem stepSampleResult : Obligations.StepSampleResult := by
  intro s ha hp hrun hs
  rw [exec_consStep ha hrun hs]
  refine ⟨fun hn => stepSample_of_not_due ?notDue, fun m hdue hl hlen hm => ?due⟩
  case notDue => exact Bool.eq_false_iff.2 (mt (sampleDue_iff _ _).1 hn)
  case due => exact stepSample_of_read ((sampleDue_iff _ _).2 hdue) (readSlot_metadata hp hl hlen hm)

/-- Settles O48: a loan that is the oldest one is released. -/
theorem stepReleaseResult : Obligations.StepReleaseResult := by
  intro s ha hrun hs hr hl hh
  rw [exec_consStep ha hrun hs]
  exact stepRelease_of_loan hr hl hh

/-- Settles O46: the parse of the record of `cur_handle`, and one step onward. -/
theorem stepParseResult : Obligations.StepParseResult := by
  intro s b0 b1 a b ha hp hrun hs hl h0 h1 ha6 hb6 hA hB
  rw [exec_consStep ha hrun hs]
  exact stepParse_of_parse (parseRecord_of_slotBytes hp hl h0 h1 ha6 hb6 hA hB)

/-! ### The clock's step (R243, R273, R274) -/

theorem finishClock_ok {s : State} {r0 r1 r2 : Byte} (ho : s.i2c.busStatus = .ok) (hr : s.i2c.rxbuf = [r0, r1, r2]) :
    finishClock s = { s with
      cons := { s.cons with todLast := unpackTime r0 r1 r2, timeValid := true, cstep := .s3Parse }
      result := .done } := by
  rcases finishClock_cases s with ⟨-, e⟩ | ⟨hn, -⟩
  · rw [e, hr]
    rfl
  · exact absurd ho hn

/-- The cause a failed transaction of `S2_CLOCK` raises (R273, R274). -/
theorem finishClock_failed {s : State} (ho : s.i2c.busStatus ≠ .ok) {c : Cause}
    (hc : c = if s.i2c.busStatus = .timeout then .busTimeout else .busError) :
    finishClock s = { s with
      cons := { s.cons with timeValid := false, busErrCnt := s.cons.busErrCnt + 1, cstep := .s3Parse }
      exc := s.exc ++ [c]
      result := .raised c } := by
  rcases finishClock_cases s with ⟨ho', -⟩ | ⟨-, c', hc', e⟩
  · exact absurd ho' ho
  · rw [e, hc', hc]

/-- A failed read leaves the chip's registers as they are (R192). -/
theorem transceive_chip_failed {s : State} (ho : (drawStatus s.draws).1 ≠ .ok) (w : Byte) (n : Nat) :
    (transceive w n s).chip = { s.chip with ptr := (transceive w n s).chip.ptr } := by
  rw [transceive, if_neg ho]
  rfl

/-- The bytes of a read of `READ_LEN` registers, named (R16). -/
theorem eq_three_bytes {l : List Byte} (h : l.length = 3) : ∃ r0 r1 r2, l = [r0, r1, r2] :=
  match l, h with
  | [r0, r1, r2], _ => ⟨r0, r1, r2, rfl⟩

/-- Settles O45: one read of three bytes; its status decides between the decoded time and the transient cause. -/
theorem stepClockResult : Obligations.StepClockResult := by
  intro s ha hp hb hrun hs
  have hexec : exec .consStep s = .next (finishClock (transceive s.cfg.timeBase 3 s)) :=
    (exec_consStep ha hrun hs).trans (stepClock_of_open hp hb)
  have hframe := transceive_frame s.cfg.timeBase 3 s
  refine ⟨fun ho => ?ok, fun ho => ?failed⟩
  case ok =>
    obtain ⟨r0, r1, r2, hr⟩ := eq_three_bytes (transceive_rxbuf_length s.cfg.timeBase 3 s)
    rw [finishClock_ok ((transceive_busStatus _ _ s).trans ho) hr] at hexec
    rw [ho, if_pos rfl, hr] at hframe
    have hvalue : ∀ {j : Nat} {b r : Byte}, s.cfg.rtcAtomicRead = true → j < 3 →
        (transceive s.cfg.timeBase 3 s).i2c.rxbuf[j]? = some r →
        s.chip.regs.read? (s.cfg.timeBase.toNat + j) = some b → r = b := fun hatomic hj hr hread =>
      Option.some.inj (hr.symm.trans (transceive_value (.inl hatomic) ho hj (by omega) (by omega) hread))
    refine ⟨_, r0, r1, r2, hexec, ?_, fun r hu => transceive_read? hu _ _, fun hatomic => ⟨
      transceive_regs (.inl hatomic) _ _,
      fun b => hvalue hatomic (j := 0) (by omega) (by rw [hr]; rfl),
      fun b => hvalue hatomic (j := 1) (by omega) (by rw [hr]; rfl),
      fun b => hvalue hatomic (j := 2) (by omega) (by rw [hr]; rfl)⟩⟩
    rw [hframe]
  case failed =>
    rw [finishClock_failed (by rwa [transceive_busStatus]) rfl, transceive_busStatus] at hexec
    rw [if_neg ho, transceive_chip_failed ho] at hframe
    refine ⟨_, _, hexec, rfl, ?_⟩
    rw [hframe]

/-! ### The callback (R240, R251) -/

theorem exec_prodOnFrame {s : State} (ha : s.agent = some .prod) (p : Option Nat) (ft : Nat) :
    exec (.prodOnFrame p ft) s = .next (withResult .done (onFrame p s)) := requireAgent_of ha _

theorem onFrame_of_not_ready {s : State} (hr : s.fifo.ready = false) (p : Option Nat) : onFrame p s = s := by
  cases p with
  | none => rfl
  | some a => exact if_pos hr

/-- The `REC_BYTES` bytes the callback reads at a pointer, and the draws left after it (R240, U27). -/
def copiedBlock (a : Nat) (s : State) : List Byte × Draws := readHwbuf s.hwbuf a s.cfg.recBytes s.draws

theorem copiedBlock_length (a : Nat) (s : State) : (copiedBlock a s).1.length = s.cfg.recBytes :=
  readHwbuf_length _ _ _ _

theorem onFrame_some {s : State} (hr : s.fifo.ready = true) (a : Nat) :
    onFrame (some a) s = pushOrDrop (copiedBlock a s).1 { s with draws := (copiedBlock a s).2 } :=
  if_neg (by simp [hr])

theorem onFrame_full {s : State} (hr : s.fifo.ready = true) (hf : fullSeen s.cfg s.fifo = true) (a : Nat) :
    onFrame (some a) s =
      { s with dropCnt := s.dropCnt + 1, exc := s.exc ++ [.fifoFull], draws := (copiedBlock a s).2 } :=
  (onFrame_some hr a).trans (if_pos hf)

theorem onFrame_push {s : State} (hr : s.fifo.ready = true) (hf : fullSeen s.cfg s.fifo = false) (a : Nat) :
    onFrame (some a) s =
      { s with fifo := pushBlock s.cfg (copiedBlock a s).1 s.fifo, draws := (copiedBlock a s).2 } :=
  (onFrame_some hr a).trans (if_neg (by simp [hf]))

/-- A push leaves every byte outside its slot. -/
theorem pushBlock_read?_outside {c : Params} {b : List Byte} {f : Fifo} (hb : b.length = c.recBytes) {r : Nat}
    (h : r < f.wr % depth c * c.recBytes ∨ f.wr % depth c * c.recBytes + c.recBytes ≤ r) :
    (pushBlock c b f).slots.read? r = f.slots.read? r := Memory.read?_writeList_outside (hb ▸ h) f.slots

/-- A byte of the slot a push writes is the block's. -/
theorem slotByte_pushBlock_new {c : Params} {b : List Byte} {f : Fifo} (hb : b.length = c.recBytes) {k : Nat}
    (hk : k < c.recBytes) : slotByte c (pushBlock c b f) (f.wr % depth c) k = b[k]? :=
  (slotByte_pushBlock hb hk).trans (if_pos rfl)

/-- Settles O38: the callback's four ends; the pushed block has the buffer's bytes where they have values. -/
theorem onFrameResult : Obligations.OnFrameResult := by
  intro s ft ha
  refine ⟨fun p hr => ?notReady, exec_prodOnFrame ha none ft, fun a hr hfull => ?full, fun a hr hfree => ?push⟩
  case notReady => rw [exec_prodOnFrame ha, onFrame_of_not_ready hr]; rfl
  case full =>
    refine ⟨_, exec_prodOnFrame ha (some a) ft, ?_⟩
    rw [onFrame_full hr ((fullSeen_iff _ _).2 hfull)]
    rfl
  case push =>
    have hf : fullSeen s.cfg s.fifo = false := Bool.eq_false_iff.2 (mt (fullSeen_iff _ _).1 hfree)
    have hlen := copiedBlock_length a s
    have hexec := exec_prodOnFrame ha (some a) ft
    rw [onFrame_push hr hf] at hexec
    refine ⟨_, hexec, rfl, fun k b hk hread => ?value, fun k hk => ?written, fun r hr => ?outside⟩
    case value => exact (slotByte_pushBlock_new hlen hk).trans (readHwbuf_getElem? hk hread s.draws)
    case written =>
      refine (congrArg Option.isSome (slotByte_pushBlock_new hlen hk)).trans ?_
      simp [hlen, hk]
    case outside => exact pushBlock_read?_outside hlen hr

/-- Settles O39: the callback answers `done`, and each of its ends changes the FIFO and `drop_cnt` at most by one. -/
theorem producerIsBounded : Obligations.ProducerIsBounded := by
  intro s p ft ha
  refine ⟨_, exec_prodOnFrame ha p ft, nofun, by simp, by simp, by simp, by simp, by simp, ?_⟩
  show (onFrame p s).fifo.pushed + (onFrame p s).dropCnt ≤ _
  rcases onFrame_cases p s with ⟨-, e⟩ | ⟨-, a, b, d, -, -, -, ⟨-, e⟩ | ⟨-, e⟩⟩ <;> rw [e]
  · exact Nat.le_succ _
  · exact Nat.le_refl _
  · show s.fifo.pushed + 1 + s.dropCnt ≤ _
    omega

/-! ### Start-up (R241, R271, R272) -/

theorem exec_consInit {s : State} (ha : s.agent = some .cons) (hp : LegalParams s.cfg) (hi : s.cons.cstate = .init)
    (hb : s.i2c.busOpen = false) : exec .consInit s = .next (startConsumer s) := by
  show execConsInit s = _
  rw [execConsInit, requireAgent_of ha, if_neg (by simp [hi]), if_neg (by simp [hb]), seedRefusal_legal hp,
    orRefuse_none]

/-- The machine whose bus has just been claimed (R190). -/
def busClaimed (s : State) : State :=
  { s with draws := (drawBelow 2 s.draws).2, i2c := { s.i2c with busOpen := true } }

theorem openBus_of_claimed {s : State} (hd : (drawBelow 2 s.draws).1 = 0) : openBus s = busClaimed s := if_pos hd

/-- The bus cannot be claimed: `E_BUS_INIT`, and nothing is sent (R271). -/
theorem startConsumer_busFailed {s : State} (hb : s.i2c.busOpen = false) (hd : (drawBelow 2 s.draws).1 ≠ 0) :
    startConsumer s = { s with
      cons := { s.cons with cstate := .fatal }
      exc := s.exc ++ [.busInit]
      draws := (drawBelow 2 s.draws).2
      result := .raised .busInit } := by
  obtain ⟨hd', -⟩ | ⟨-, e⟩ := openBus_cases s
  · exact absurd hd' hd
  · rw [startConsumer, e, if_neg (by simp [hb])]
    rfl

theorem startConsumer_of_claimed {s : State} (hd : (drawBelow 2 s.draws).1 = 0) :
    startConsumer s = finishInit (writeTime s.cfg.seedTod (busClaimed s)) := by
  rw [startConsumer, openBus_of_claimed hd]
  rfl

/-- The seed is written: the consumer runs from S1_POP, and the seed is logged. -/
theorem startConsumer_ok {s : State} (hd : (drawBelow 2 s.draws).1 = 0)
    (ho : (drawStatus (drawBelow 2 s.draws).2).1 = .ok) :
    startConsumer s = { writeTime s.cfg.seedTod (busClaimed s) with
      cons := { s.cons with cstate := .running, cstep := .s1Pop, todLast := s.cfg.seedTod }
      log := s.log ++ [.seed s.cfg.seedTod]
      result := .done } := by
  rw [startConsumer_of_claimed hd]
  exact if_pos ho

/-- The seed cannot be written: `E_SEED_WRITE` (R272). -/
theorem startConsumer_seedFailed {s : State} (hd : (drawBelow 2 s.draws).1 = 0)
    (ho : (drawStatus (drawBelow 2 s.draws).2).1 ≠ .ok) :
    startConsumer s = { writeTime s.cfg.seedTod (busClaimed s) with
      cons := { s.cons with cstate := .fatal }
      exc := s.exc ++ [.seedWrite]
      result := .raised .seedWrite } := by
  rw [startConsumer_of_claimed hd]
  exact if_neg ho

/-- A write of the time changes the chip, the draws, `bus_status`, `txbuf` and `BUS` alone. -/
theorem writeTime_frame (t : TimeFields) (s : State) : writeTime t s = { s with
    chip := (writeTime t s).chip
    draws := (writeTime t s).draws
    i2c := { s.i2c with txbuf := clockFrame s.cfg t, busStatus := (drawStatus s.draws).1 }
    bus := s.bus ++ [.write (clockFrame s.cfg t) (drawStatus s.draws).1] } := rfl

/-- Settles O42: the two draws decide between the three ends, and the seed is one write of the clock's frame. -/
theorem consInitResult : Obligations.ConsInitResult := by
  intro s ha hp hi hb
  have hexec := exec_consInit ha hp hi hb
  have hframe := writeTime_frame s.cfg.seedTod (busClaimed s)
  have houtside : ∀ r, r < s.cfg.timeBase.toNat ∨ s.cfg.timeBase.toNat + 7 ≤ r →
      (writeTime s.cfg.seedTod (busClaimed s)).chip.regs.read? r = s.chip.regs.read? r := fun r hr =>
    writeTime_read?_outside (s := busClaimed s) hr _
  refine ⟨fun hd ho => ?running, fun hd => ?busFailed, fun hd ho => ?seedFailed⟩
  case running =>
    rw [startConsumer_ok hd ho] at hexec
    have ho' : (drawStatus (busClaimed s).draws).1 = .ok := ho
    rw [ho'] at hframe
    refine ⟨_, hexec, ?_, rfl, fun k hk hu => writeTime_read? (s := busClaimed s) hu ho hk _, houtside⟩
    rw [hframe]
    rfl
  case busFailed => rw [hexec, startConsumer_busFailed hb hd]
  case seedFailed =>
    rw [startConsumer_seedFailed hd ho] at hexec
    exact ⟨_, hexec, rfl, rfl, houtside⟩

/-! ### The refusals (R241, R242, R247, U30) -/

theorem stepPop_of_not_ready {s : State} (hr : s.fifo.ready = false) : stepPop s = .refused .channelNotReady :=
  if_pos hr

theorem stepClock_of_closed {s : State} (hb : s.i2c.busOpen = false) : stepClock s = .refused .busNotOpen := by
  rw [stepClock, readRefusal_closed hb, orRefuse_some]

theorem stepParse_of_not_loan {s : State} (hl : onLoan s.cfg s.fifo s.cons.curHandle = false) :
    stepParse s = .refused .slotNotOnLoan := by
  rw [stepParse, parseRecord_of_not_loan hl, andThen_refused]

theorem stepSample_of_not_loan {s : State} (hl : onLoan s.cfg s.fifo s.cons.curHandle = false)
    (hd : sampleDue s.cfg (s.cons.capCnt + 1) = true) : stepSample s = .refused .slotNotOnLoan := by
  rw [stepSample_of_due hd, readSlot_of_not_loan hl, andThen_refused]

theorem stepRelease_of_refusal {s : State} {r : Refusal} (h : releaseRefusal s.cfg s.cons.curHandle s.fifo = some r) :
    stepRelease s = .refused r := by
  rw [stepRelease, h, orRefuse_some]

/-- Settles O43: a stuck consumer's operation changes nothing; each other refusal is the guard of the operation, or of
the operation the step runs. -/
theorem consumerRefusals : Obligations.ConsumerRefusals := by
  intro s ha
  refine ⟨fun i hf hi => ?stuck, fun hi => ?notInInit, fun hi hb => ?initAgain, fun hrun hs hr => ?popNotReady,
    fun hrun hs hb => ?busClosed, fun hrun hs hl => ?parseNotLoan, fun hrun hs hl hd => ?sampleNotLoan,
    fun hrun hs hr => ?releaseNotReady, fun hrun hs hr => ⟨fun hl => ?nothingOnLoan, fun hl hh => ?notOldest⟩,
    fun hrun => ⟨?stepNotRunning, ?cycleNotRunning⟩, fun hrun hs => ?cycleNotAtS1⟩
  case stuck =>
    obtain ⟨d, rfl⟩ | ⟨h, rfl⟩ | ⟨t, rfl⟩ | ⟨x, y, z, rfl⟩ | rfl | ⟨l, rfl⟩ | ⟨w, n, rfl⟩ | ⟨t, rfl⟩ | ⟨a, n, rfl⟩ |
      ⟨h, rfl⟩ | ⟨fc, rfl⟩ | ⟨h, rfl⟩ | ⟨h, rfl⟩ := hi
    any_goals exact requireConsumer_fatal ha hf _
    -- `MAC.FC_DECODE` alone asks for no agent
    exact if_pos ⟨ha, hf⟩
  case notInInit => exact (requireAgent_of ha _).trans (if_pos hi)
  case initAgain => exact (requireAgent_of ha _).trans ((if_neg (by simp [hi])).trans (if_pos hb))
  case popNotReady =>
    have hpop := stepPop_of_not_ready hr
    refine ⟨(exec_consStep ha hrun hs).trans hpop, (execConsCycle_of ha hrun hs).trans ?_⟩
    rw [hpop, andThen_refused]
  case busClosed => exact (exec_consStep ha hrun hs).trans (stepClock_of_closed hb)
  case parseNotLoan => exact (exec_consStep ha hrun hs).trans (stepParse_of_not_loan hl)
  case sampleNotLoan =>
    exact (exec_consStep ha hrun hs).trans (stepSample_of_not_loan hl ((sampleDue_iff _ _).2 hd))
  case releaseNotReady => exact (exec_consStep ha hrun hs).trans (stepRelease_of_refusal (if_pos hr))
  case nothingOnLoan =>
    exact (exec_consStep ha hrun hs).trans (stepRelease_of_refusal ((if_neg (by simp [hr])).trans (if_pos hl)))
  case notOldest =>
    exact (exec_consStep ha hrun hs).trans
      (stepRelease_of_refusal ((if_neg (by simp [hr])).trans ((if_neg hl).trans (if_pos hh))))
  case stepNotRunning => exact (requireAgent_of ha _).trans (if_pos hrun)
  case cycleNotRunning => exact (requireAgent_of ha _).trans (if_pos hrun)
  case cycleNotAtS1 => exact (requireAgent_of ha _).trans ((if_neg (by simp [hrun])).trans (if_pos hs))

end Sys2Proof.Machine
end

section
/-! PROOFS. A frame's way from the radio to `LOG` (R252): the start-up leaves the seed in the chip, the frame event queues
the frame's record, and one pass brings both to the consumer's registers and to `LOG`. -/
namespace Sys2Proof.Machine

/-! ### What starts the way: the start-up and the frame event -/

/-- A start-up that ends in RUNNING has claimed the bus and written the seed. -/
theorem startConsumer_running {s : State} (hb : s.i2c.busOpen = false)
    (hrun : (startConsumer s).cons.cstate = .running) :
    (drawBelow 2 s.draws).1 = 0 ∧ (drawStatus (drawBelow 2 s.draws).2).1 = .ok := by
  by_cases hd : (drawBelow 2 s.draws).1 = 0
  · by_cases ho : (drawStatus (drawBelow 2 s.draws).2).1 = .ok
    · exact ⟨hd, ho⟩
    · rw [startConsumer_seedFailed hd ho] at hrun
      cases hrun
  · rw [startConsumer_busFailed hb hd] at hrun
    cases hrun

/-- The callback copies the first `REC_BYTES` bytes of a frame that has them. -/
theorem readHwbuf_offeredBuffer {frame : List Byte} {n : Nat} (hn : n ≤ frame.length) (p : Nat) (d : Draws) :
    (readHwbuf (offeredBuffer (some p) frame) p n d).1 = frame.take n := by
  refine List.ext_getElem? fun k => ?_
  by_cases hk : k < n
  · have hbyte : (offeredBuffer (some p) frame).read? (p + k) = some frame[k] := by
      rw [offeredBuffer, Memory.read?_writeList, if_pos (by omega), Nat.add_sub_cancel_left, List.getElem?_eq_getElem]
    rw [readHwbuf_getElem? hk hbyte d, List.getElem?_take_of_lt hk, List.getElem?_eq_getElem]
  · rw [List.getElem?_eq_none (by simp; omega), List.getElem?_eq_none (by simp; omega)]

/-- A frame event over a FIFO with a free slot pushes the frame's record (R240, R280). -/
theorem radioFrame_push {s : State} {frame : List Byte} (hr : s.fifo.ready = true)
    (hf : fullSeen s.cfg s.fifo = false) (hlen : s.cfg.recBytes ≤ frame.length) (p : Nat) :
    radioFrame (some p) frame s = { s with
      fifo := pushBlock s.cfg (frame.take s.cfg.recBytes) s.fifo
      hwbuf := []
      draws := (radioFrame (some p) frame s).draws } := by
  have hblock : (copiedBlock p { s with hwbuf := offeredBuffer (some p) frame, agent := some .prod }).1 =
      frame.take s.cfg.recBytes := readHwbuf_offeredBuffer hlen p s.draws
  rw [radioFrame, onFrame_push (s := { s with hwbuf := offeredBuffer (some p) frame, agent := some .prod }) hr hf,
    hblock]

/-! ### The pass over the frame's record -/

/-- With no event to come the environment has no turn. -/
theorem betweenSteps_of_none {s : State} (h : s.events = []) : betweenSteps s = s := by
  show deliverDue s.events s = s
  rw [h]
  show { s with events := [] } = s
  rw [← h]

theorem stepPop_events {s t : State} (h : stepPop s = .next t) : t.events = s.events := by
  obtain ⟨-, ⟨-, rfl⟩ | ⟨-, rfl⟩⟩ := stepPop_eq_next h <;> rfl

theorem stepClock_events {s t : State} (h : stepClock s = .next t) : t.events = s.events := by
  obtain ⟨-, rfl⟩ := stepClock_eq_next h
  simp

theorem stepParse_events {s t : State} (h : stepParse s = .next t) : t.events = s.events := by
  obtain ⟨u, hu, rfl⟩ := stepParse_eq_next h
  obtain ⟨_, _, _, -, -, -, rfl⟩ := parseRecord_eq_next hu
  rfl

theorem stepSample_events {s t : State} (h : stepSample s = .next t) : t.events = s.events := by
  rcases stepSample_eq_next h with ⟨-, rfl⟩ | ⟨-, _, -, rfl⟩ <;> rfl

/-- A pass with no event to come is its five steps. -/
theorem Pass.of_no_events {s s1 s2 s3 s4 t : State} (h : Pass s s1 s2 s3 s4 t) (he : s.events = []) :
    stepPop s = .next s1 ∧ stepClock s1 = .next s2 ∧ stepParse s2 = .next s3 ∧ stepSample s3 = .next s4 ∧
      stepRelease s4 = .next t := by
  obtain ⟨-, h1, h2, h3, h4, h5⟩ := h
  have e1 := (stepPop_events h1).trans he
  rw [betweenSteps_of_none e1] at h2
  have e2 := (stepClock_events h2).trans e1
  rw [betweenSteps_of_none e2] at h3
  have e3 := (stepParse_events h3).trans e2
  rw [betweenSteps_of_none e3] at h4
  have e4 := (stepSample_events h4).trans e3
  rw [betweenSteps_of_none e4] at h5
  exact ⟨h1, h2, h3, h4, h5⟩

/-- A read of the chip's time that ended OK, with no tick inside, makes it `tod_last` (R199, R243). -/
theorem HoldsTime.stepClock {s t : State} {tod : TimeFields} (h : HoldsTime s.cfg s.chip tod)
    (hatomic : s.cfg.rtcAtomicRead = true) (ho : (drawStatus s.draws).1 = .ok) (ht : stepClock s = .next t) :
    t.cons = { s.cons with todLast := tod, timeValid := true, cstep := .s3Parse } ∧ t.cfg = s.cfg ∧ t.fifo = s.fifo ∧
      t.log = s.log := by
  obtain ⟨-, rfl⟩ := stepClock_eq_next ht
  obtain ⟨r0, r1, r2, hr, hunpack⟩ := h.transceive hatomic ho
  have hfinish := finishClock_ok (s := Machine.transceive s.cfg.timeBase 3 s) (by rwa [transceive_busStatus]) hr
  rw [hunpack, transceive_cons] at hfinish
  exact ⟨congrArg State.cons hfinish, by simp, by simp, by simp⟩

/-- Slot `h` holds the record at the beginning of a frame (R71, R101). -/
def SlotHolds (c : Params) (f : Fifo) (h : Nat) (frame : List Byte) : Prop :=
  ∀ k, k < c.recBytes → slotByte c f h k = frame[k]?

/-- Every run of the record lies in the slot as it lies in the frame. -/
theorem SlotHolds.slice {c : Params} {f : Fifo} {h : Nat} {frame : List Byte} (hs : SlotHolds c f h frame)
    {off n : Nat} (ho : off + n ≤ c.recBytes) :
    ∀ k, k < n → slotByte c f h (off + k) = ((frame.drop off).take n)[k]? := fun k hk =>
  (hs (off + k) (by omega)).trans (sliceBytes_getElem? frame off hk).symm

/-- The parse of a frame's record on loan gives the frame's fields (R244). -/
theorem SlotHolds.stepParse {s t : State} {frame : List Byte} {b0 b1 : Byte} (ht : stepParse s = .next t)
    (hp : LegalParams s.cfg) (hl : onLoan s.cfg s.fifo s.cons.curHandle = true)
    (hs : SlotHolds s.cfg s.fifo s.cons.curHandle frame) (hlen : s.cfg.recBytes ≤ frame.length)
    (h0 : frame[s.cfg.metaBytes + s.cfg.fcOff]? = some b0)
    (h1 : frame[s.cfg.metaBytes + s.cfg.fcOff + 1]? = some b1) :
    t = { s with
      cons := { s.cons with
        fcReg := if s.cfg.fcLe then b1 ++ b0 else b0 ++ b1
        ftype := (if s.cfg.fcLe then b0 else b1).extractLsb' 2 2
        fsubtype := (if s.cfg.fcLe then b0 else b1).extractLsb' 4 4
        addrA := (frame.drop (s.cfg.metaBytes + s.cfg.addrAOff)).take 6
        addrB := (frame.drop (s.cfg.metaBytes + s.cfg.addrBOff)).take 6
        cstep := .s4Sample }
      result := .done } := by
  obtain ⟨hfc, haddrA, haddrB⟩ := hp.fields_inside
  have hparse := parseRecord_of_slotBytes hp hl ((hs _ (by omega)).trans h0) ((hs _ (by omega)).trans h1)
    (sliceBytes_length (Nat.le_trans haddrA hlen)) (sliceBytes_length (Nat.le_trans haddrB hlen)) (hs.slice haddrA)
    (hs.slice haddrB)
  exact Host.Outcome.next.inj (ht.symm.trans (stepParse_of_parse hparse))

/-- The sample of a frame's record on loan logs the frame's metadata where the count is due (R245). -/
theorem SlotHolds.stepSample {s t : State} {frame : List Byte} (ht : stepSample s = .next t)
    (hp : LegalParams s.cfg) (hl : onLoan s.cfg s.fifo s.cons.curHandle = true)
    (hs : SlotHolds s.cfg s.fifo s.cons.curHandle frame) (hlen : s.cfg.recBytes ≤ frame.length) :
    t = { s with
      cons := { s.cons with capCnt := s.cons.capCnt + 1, cstep := .s5Release }
      log := s.log ++
        if (s.cons.capCnt + 1) % s.cfg.sampleN = 0 then [sampleEvent (frame.take s.cfg.metaBytes) s] else []
      result := .done } := by
  obtain ⟨hfc, -, -⟩ := hp.fields_inside
  by_cases hd : (s.cons.capCnt + 1) % s.cfg.sampleN = 0
  · have hmeta : readSlot s.cons.curHandle 0 s.cfg.metaBytes s = .next (frame.take s.cfg.metaBytes) := by
      refine readSlot_metadata hp hl (by rw [List.length_take]; omega) fun k hk => ?_
      rw [List.getElem?_take_of_lt hk]
      exact hs k (by omega)
    rw [if_pos hd]
    exact Host.Outcome.next.inj (ht.symm.trans (stepSample_of_read ((sampleDue_iff _ _).2 hd) hmeta))
  · rw [if_neg hd, List.append_nil]
    exact Host.Outcome.next.inj
      (ht.symm.trans (stepSample_of_not_due (Bool.eq_false_iff.2 (mt (sampleDue_iff _ _).1 hd))))

/-- The consumer that runs on waits at S1_POP with a frame's record next in the FIFO; the chip holds the time `tod`, and
no event is to come. -/
structure FrameQueued (s : State) (tod : TimeFields) (frame : List Byte) : Prop where
  runs    : RunsOn s
  agent   : s.agent = some .cons
  cstep   : s.cons.cstep = .s1Pop
  visible : emptySeen s.cfg s.fifo = false
  slot    : SlotHolds s.cfg s.fifo (nextHandle s.cfg s.fifo) frame
  length  : s.cfg.recBytes ≤ frame.length
  atomic  : s.cfg.rtcAtomicRead = true
  time    : HoldsTime s.cfg s.chip tod
  events  : s.events = []

/-- The pass over a queued frame with a read that ends OK: the chip's time, the frame's fields, and a `LogSample` of
them where the count is due. -/
theorem FrameQueued.cycle {s : State} {tod : TimeFields} {frame : List Byte} (h : FrameQueued s tod frame)
    (ho : (drawStatus s.draws).1 = .ok) {b0 b1 : Byte} (h0 : frame[s.cfg.metaBytes + s.cfg.fcOff]? = some b0)
    (h1 : frame[s.cfg.metaBytes + s.cfg.fcOff + 1]? = some b1) :
    ∃ t, execConsCycle s = .next t ∧ t.cons.todLast = tod ∧ t.cons.timeValid = true ∧
      t.cons.ftype = (if s.cfg.fcLe then b0 else b1).extractLsb' 2 2 ∧
      t.cons.fsubtype = (if s.cfg.fcLe then b0 else b1).extractLsb' 4 4 ∧
      t.cons.addrA = (frame.drop (s.cfg.metaBytes + s.cfg.addrAOff)).take 6 ∧
      t.cons.addrB = (frame.drop (s.cfg.metaBytes + s.cfg.addrBOff)).take 6 ∧
      t.cons.capCnt = s.cons.capCnt + 1 ∧
      t.log = s.log ++
        (if (s.cons.capCnt + 1) % s.cfg.sampleN = 0 then
          [.sample tod true (frame.take s.cfg.metaBytes) t.cons.addrA t.cons.addrB t.cons.ftype t.cons.fsubtype]
        else []) := by
  obtain ⟨t, ht⟩ := h.runs.execConsCycle h.agent h.cstep
  have hvisible := h.visible
  obtain ⟨-, -, ⟨he, -⟩ | ⟨-, s1, s2, s3, s4, hpass⟩⟩ := execConsCycle_eq_next ht
  · rw [hvisible] at he
    cases he
  obtain ⟨hpop, hclock, hparse, hsample, hrelease⟩ := hpass.of_no_events h.events
  have hruns1 : RunsOn s1 := h.runs.of_step ((consumerStep_of h.runs.running h.cstep).trans hpop)
  have e1 := Host.Outcome.next.inj (hpop.symm.trans (stepPop_of_block h.runs.ready hvisible))
  have hs1 : s1.cons.cstep = .s2Clock := by rw [e1]
  have hruns2 : RunsOn s2 := hruns1.of_step ((consumerStep_of hruns1.running hs1).trans hclock)
  have htime : HoldsTime s1.cfg s1.chip tod := by rw [e1]; exact h.time
  obtain ⟨hcons, hcfg, hfifo, hlog⟩ := htime.stepClock (by rw [e1]; exact h.atomic) (by rw [e1]; exact ho) hclock
  rw [e1] at hcons hcfg hfifo hlog
  have hloan : onLoan s2.cfg s2.fifo s2.cons.curHandle = true := hruns2.onLoan (by simp [hcons])
  have hslot : SlotHolds s2.cfg s2.fifo s2.cons.curHandle frame := by
    rw [hcfg, hfifo, hcons]
    exact h.slot
  have hcfg : s2.cfg = s.cfg := hcfg
  have hlen : s2.cfg.recBytes ≤ frame.length := hcfg ▸ h.length
  obtain rfl := SlotHolds.stepParse hparse hruns2.inv.params hloan hslot hlen (hcfg ▸ h0) (hcfg ▸ h1)
  obtain rfl := SlotHolds.stepSample hsample hruns2.inv.params hloan hslot hlen
  obtain ⟨-, -, -, rfl⟩ := stepRelease_eq_next hrelease
  exact ⟨_, ht, by simp [hcons], by simp [hcons], by simp [hcfg], by simp [hcfg], by simp [hcfg], by simp [hcfg],
    by simp [hcons], by simp [hcons, hcfg, hlog, sampleEvent]⟩

/-! ### The whole way -/

/-- A frame event over a FIFO that holds no block and hides none: the frame's record is the next block. -/
theorem RunsOn.frameQueued {s : State} {tod : TimeFields} {frame : List Byte} (h : RunsOn s)
    (ha : s.agent = some .cons) (hs : s.cons.cstep = .s1Pop) (hv : s.cfg.visLag = .exact)
    (hempty : s.fifo.pushed = s.fifo.released) (hlen : s.cfg.recBytes ≤ frame.length)
    (hatomic : s.cfg.rtcAtomicRead = true) (htime : HoldsTime s.cfg s.chip tod) (he : s.events = []) (p ft : Nat) :
    FrameQueued (Machine.runEvent (.frame (some p) ft frame) s) tod frame := by
  have hle := h.counts.frLeRd
  have hle' := h.counts.rdLeWr
  have hdepth := h.inv.depth_pos
  have hfree : fullSeen s.cfg s.fifo = false := by
    refine Bool.eq_false_iff.2 fun hf => ?_
    have hused := (fullSeen_iff s.cfg s.fifo).1 hf
    simp only [releasedView, hv] at hused
    omega
  have hblock : (frame.take s.cfg.recBytes).length = s.cfg.recBytes := by
    rw [List.length_take]
    omega
  have hfifo : (radioFrame (some p) frame s).fifo = pushBlock s.cfg (frame.take s.cfg.recBytes) s.fifo :=
    congrArg State.fifo (radioFrame_push h.ready hfree hlen p)
  have hruns := h.runEvent (k := .frame (some p) ft frame) nofun
  show FrameQueued (radioFrame (some p) frame s) tod frame
  refine ⟨hruns, by simpa, by simpa, ?_, fun k hk => ?_, by simpa, by simpa, by simpa, by simpa⟩
  · rw [hfifo, radioFrame_cfg]
    refine Bool.eq_false_iff.2 fun hf => ?_
    have hnone := (emptySeen_iff _ _).1 hf
    simp only [pushedView, hv, pushBlock_pushed, pushBlock_popped] at hnone
    omega
  · rw [radioFrame_cfg] at hk ⊢
    have hnext : nextHandle s.cfg (pushBlock s.cfg (frame.take s.cfg.recBytes) s.fifo) = s.fifo.wr % depth s.cfg := by
      rw [nextHandle, pushBlock_rd, h.counts.rdCount, h.counts.wrCount, show s.fifo.popped = s.fifo.pushed by omega]
    rw [hfifo, hnext, slotByte_pushBlock_new hblock hk, List.getElem?_take_of_lt hk]

/-- What a start-up that ended in RUNNING leaves: the registers and `LOG` of R241, the seed in the chip where no tick
landed inside the write, and everything else the pass looks at as it was. -/
structure Started (s t : State) : Prop where
  cons   : t.cons = { s.cons with cstate := .running, cstep := .s1Pop, todLast := s.cfg.seedTod }
  log    : t.log = s.log ++ [.seed s.cfg.seedTod]
  time   : s.cfg.rtcAtomicRead = true → HoldsTime s.cfg t.chip s.cfg.seedTod
  cfg    : t.cfg = s.cfg
  agent  : t.agent = s.agent
  fifo   : t.fifo = s.fifo
  events : t.events = s.events

theorem startConsumer_started {s : State} (hv : validTod s.cfg.seedTod = true) (hb : s.i2c.busOpen = false)
    (hrun : (startConsumer s).cons.cstate = .running) : Started s (startConsumer s) := by
  obtain ⟨hd, ho⟩ := startConsumer_running hb hrun
  rw [startConsumer_ok hd ho]
  exact ⟨rfl, rfl, fun hatomic => writeTime_holdsTime (s := busClaimed s) hatomic ho hv, rfl, rfl, rfl, rfl⟩

/-- Settles O56: the start-up leaves the seed in the chip, the frame event queues the frame's record, and the pass
brings both to the registers and to `LOG`. -/
theorem endToEnd : Obligations.EndToEnd := by
  intro s s1 p ft frame hinv hatomic hv hr hempty hinit hrun hlen he ho
  obtain ⟨ha, hi, hb, -, rfl⟩ := execConsInit_eq_next hinit
  have hinv1 := hinv.startConsumer hi
  obtain ⟨hcons, hlog, htime, hcfg, hagent, hfifo, -⟩ := startConsumer_started hinv.seedTod_valid hb hrun
  generalize startConsumer s = s1 at *
  have hle := (hinv.fifo hr).rdLeWr
  have hloan : OneLoan s1 := by
    refine ⟨fun _ => ?_, fun hs => absurd (by rw [hcons]) hs⟩
    rw [loanedBlocks, hfifo]
    omega
  have hruns : RunsOn s1 := ⟨hinv1, ⟨hrun, by rw [hfifo, hr]⟩, hloan⟩
  have hqueued : FrameQueued (runEvent (.frame (some p) ft frame) s1) s.cfg.seedTod frame :=
    hruns.frameQueued (by rw [hagent, ha]) (by rw [hcons]) (by rw [hcfg, hv]) (by rw [hfifo, hempty])
      (by rwa [hcfg]) (by rwa [hcfg]) (by rw [hcfg]; exact htime hatomic) he p ft
  have hcfg2 : (runEvent (.frame (some p) ft frame) s1).cfg = s.cfg := (radioFrame_cfg (some p) frame s1).trans hcfg
  have hcons2 : (runEvent (.frame (some p) ft frame) s1).cons.capCnt = s.cons.capCnt :=
    (congrArg Consumer.capCnt (radioFrame_cons (some p) frame s1)).trans (by rw [hcons])
  have hlog2 : (runEvent (.frame (some p) ft frame) s1).log = s.log ++ [.seed s.cfg.seedTod] :=
    (radioFrame_log (some p) frame s1).trans hlog
  obtain ⟨hfc, -, -⟩ := LegalParams.fields_inside hinv.params
  obtain ⟨b0, h0⟩ : ∃ b0, frame[s.cfg.metaBytes + s.cfg.fcOff]? = some b0 :=
    ⟨_, List.getElem?_eq_getElem (by omega)⟩
  obtain ⟨b1, h1⟩ : ∃ b1, frame[s.cfg.metaBytes + s.cfg.fcOff + 1]? = some b1 :=
    ⟨_, List.getElem?_eq_getElem (by omega)⟩
  have hcycle := hqueued.cycle ho (by rw [hcfg2, h0]) (by rw [hcfg2, h1])
  rw [hcfg2, hcons2, hlog2] at hcycle
  obtain ⟨t, ht, hrest⟩ := hcycle
  exact ⟨t, b0, b1, ht, h0, h1, hrest⟩

end Sys2Proof.Machine
end

section
/-! PROOFS. The environment's steps of 60_exceptions.md and R90: a due frame event runs the whole callback over the
frame's bytes (R280, R283), and the host's radio failure before `CONS.INIT` is fatal (R276). -/
namespace Sys2Proof.Machine

/-! ### What the callback copies from the radio's buffer (R90) -/

/-- The machine as a frame event enters the callback: in the interrupt context, over the buffer the radio offers, with
the outcomes the event names (R90, R280). -/
def enterCallback (d : List Nat) (p : Option Nat) (frame : List Byte) (s : State) : State :=
  { s with hwbuf := offeredBuffer p frame, agent := some .prod, draws := { s.draws with script := d } }

theorem offeredBuffer_read? {frame : List Byte} {k : Nat} (hk : k < frame.length) (a : Nat) :
    (offeredBuffer (some a) frame).read? (a + k) = frame[k]? := by
  rw [offeredBuffer, Memory.read?_writeList, if_pos (by omega), Nat.add_sub_cancel_left]

/-- The block the callback copies has the frame's bytes, as far as the frame goes. -/
theorem copiedBlock_enterCallback {frame : List Byte} {s : State} {k : Nat} (hk : k < s.cfg.recBytes)
    (hlen : k < frame.length) (d : List Nat) (a : Nat) :
    (copiedBlock a (enterCallback d (some a) frame s)).1[k]? = frame[k]? := by
  have hbyte := offeredBuffer_read? hlen a
  rw [List.getElem?_eq_getElem hlen] at hbyte ⊢
  exact readHwbuf_getElem? hk hbyte _

/-! ### The frame event (R280, R283, R240) -/

section
variable (n ft : Nat) (d : List Nat) (frame : List Byte) {s : State}

/-- A frame event is the callback; then the interrupted context goes on, the buffer is gone, and the running line has
its own outcomes again. -/
theorem deliver_frame (p : Option Nat) (s : State) :
    deliver ⟨n, d, .frame p ft frame⟩ s =
      let t := onFrame p (enterCallback d p frame s)
      { t with hwbuf := [], agent := s.agent, draws := { t.draws with script := s.draws.script } } := rfl

/-- What a frame event leaves unchanged: all but the FIFO, the drop count, the causes reported and the draws. -/
theorem deliver_frame_unchanged (p : Option Nat) (s : State) :
    deliver ⟨n, d, .frame p ft frame⟩ s = { s with
      fifo := (deliver ⟨n, d, .frame p ft frame⟩ s).fifo
      dropCnt := (deliver ⟨n, d, .frame p ft frame⟩ s).dropCnt
      exc := (deliver ⟨n, d, .frame p ft frame⟩ s).exc
      hwbuf := []
      draws := (deliver ⟨n, d, .frame p ft frame⟩ s).draws } := by
  rw [deliver_frame]
  rcases onFrame_cases p (enterCallback d p frame s) with ⟨-, e⟩ | ⟨-, _, _, _, -, -, -, ⟨-, e⟩ | ⟨-, e⟩⟩ <;>
    · rw [e]
      rfl

/-- Before `FIFO.INIT`, and for a null pointer, the callback does nothing. -/
theorem deliver_frame_idle {p : Option Nat} (h : s.fifo.ready = false ∨ p = none) :
    deliver ⟨n, d, .frame p ft frame⟩ s = { s with hwbuf := [] } := by
  obtain hr | rfl := h
  · rw [deliver_frame, onFrame_of_not_ready (s := enterCallback d p frame s) hr]
    rfl
  · rfl

/-- Over a full FIFO the frame is dropped, counted and reported (R275). -/
theorem deliver_frame_full (hr : s.fifo.ready = true) (hf : fullSeen s.cfg s.fifo = true) (a : Nat) :
    deliver ⟨n, d, .frame (some a) ft frame⟩ s = { s with
      dropCnt := s.dropCnt + 1
      exc := s.exc ++ [.fifoFull]
      hwbuf := []
      draws := (deliver ⟨n, d, .frame (some a) ft frame⟩ s).draws } := by
  rw [deliver_frame, onFrame_full (s := enterCallback d (some a) frame s) hr hf]
  rfl

/-- Over a FIFO with a free slot the block the callback copied is pushed. -/
theorem deliver_frame_push (hr : s.fifo.ready = true) (hf : fullSeen s.cfg s.fifo = false) (a : Nat) :
    deliver ⟨n, d, .frame (some a) ft frame⟩ s = { s with
      fifo := pushBlock s.cfg (copiedBlock a (enterCallback d (some a) frame s)).1 s.fifo
      hwbuf := []
      draws := (deliver ⟨n, d, .frame (some a) ft frame⟩ s).draws } := by
  rw [deliver_frame, onFrame_push (s := enterCallback d (some a) frame s) hr hf]
  rfl

end

/-- Settles O40: the due event is the next step; the callback it runs does nothing, drops the frame or pushes the block
it copied. -/
theorem frameEventRunsCallback : Obligations.FrameEventRunsCallback := by
  intro s p ft frame d es hp he
  refine ⟨_, step_due hp he rfl, deliver_frame_unchanged 0 ft d frame p { s with events := es }, fun hidle => ?idle,
    fun hr hne hfull => ?full, fun hr hne hfree => ?push⟩
  case idle =>
    rw [deliver_frame_idle (s := { s with events := es }) 0 ft d frame hidle]
    exact ⟨rfl, rfl, rfl⟩
  case full =>
    obtain ⟨a, rfl⟩ := Option.ne_none_iff_exists'.1 hne
    rw [deliver_frame_full (s := { s with events := es }) 0 ft d frame hr ((fullSeen_iff _ _).2 hfull) a]
    exact ⟨rfl, rfl, rfl⟩
  case push =>
    obtain ⟨a, rfl⟩ := Option.ne_none_iff_exists'.1 hne
    have hf : fullSeen s.cfg s.fifo = false := Bool.eq_false_iff.2 (mt (fullSeen_iff _ _).1 hfree)
    have hlen : (copiedBlock a (enterCallback d (some a) frame { s with events := es })).1.length = s.cfg.recBytes :=
      copiedBlock_length _ _
    rw [deliver_frame_push (s := { s with events := es }) 0 ft d frame hr hf a]
    refine ⟨rfl, rfl, rfl, fun k hk hframe => ?value, fun k hk => ?written, fun r hr => ?outside⟩
    case value => exact (slotByte_pushBlock_new hlen hk).trans (copiedBlock_enterCallback hk hframe d a)
    case written =>
      refine (congrArg Option.isSome (slotByte_pushBlock_new hlen hk)).trans ?_
      simpa [hlen] using hk
    case outside => exact pushBlock_read?_outside hlen hr

/-! ### The host's radio failure (R276) -/

/-- Before `CONS.INIT` the failure is raised, a fatal cause; it takes no draw, so the outcomes its event names change
nothing. -/
theorem deliver_radioInitFail_of_init {s : State} (h : s.cons.cstate = .init) (n : Nat) (d : List Nat) :
    deliver ⟨n, d, .radioInitFail⟩ s =
      { s with cons := { s.cons with cstate := .fatal }, exc := s.exc ++ [.radioInit] } := by
  simp only [deliver, runEvent, radioInitFailed, h, if_true]
  rfl

/-- Settles O41: the due event is the next step, and before `CONS.INIT` its cause is raised. -/
theorem radioInitFailureIsFatal : Obligations.RadioInitFailureIsFatal := by
  intro s d es hp hi he
  rw [step_due hp he rfl, deliver_radioInitFail_of_init (s := { s with events := es }) hi]

end Sys2Proof.Machine
end

section
/-! PROOFS. Reset and quiescence: the values a reset leaves and the chip it keeps (R310, R313), and that a quiescent run
stays where it is (R314). -/
namespace Sys2Proof.Machine

/-! ### Reset (R310, R313) -/

/-- The reset takes no draw, so the outcomes its event names change nothing. -/
theorem deliver_reset (n : Nat) (d : List Nat) (s : State) : deliver ⟨n, d, .reset⟩ s = resetBlock s := rfl

/-- Settles O1: the values are those of `State.reset`, and a reset that is due is the next step. -/
theorem resetLeavesStatedValues : Obligations.ResetLeavesStatedValues := by
  refine ⟨rfl, rfl, rfl, rfl, rfl, rfl, rfl, rfl, rfl, rfl, rfl, rfl, rfl, fun s d es hp he => ?_⟩
  rw [step_due hp he rfl, deliver_reset]
  rfl

/-! ### Quiescence (R314) -/

/-- With no event to come a step is the block's own. -/
theorem step_of_no_events {s : State} (hp : LegalParams s.cfg) (he : s.events = []) : step s = runBlock s := by
  have hsame : { s with events := countDown s.events } = s := by
    rw [he]
    show { s with events := [] } = s
    rw [← he]
  rw [step_block hp (by simp [he]), hsame]

/-- A held operation that answers with nothing but its result changed leaves all else but the context and its draws. -/
theorem resume_of_result {x : Hold} {r : Result} {s : State}
    (h : exec x.instr (enterAs .cons [] s) = .next { enterAs .cons [] s with result := r }) :
    resume x s = .next { s with
      agent := some .cons
      held := if r = .hold then some x else none
      draws := { s.draws with script := [] }
      result := r } := by
  rw [resume_eq, h]
  rfl

/-- At S1_POP over a FIFO seen empty the consumer's own operations hold (R242, R247). -/
theorem ConsumerHolds.exec_hold {s : State} (h : ConsumerHolds s) (ha : s.agent = some .cons) {x : Hold}
    (hx : ∀ d, x ≠ .pop d) : exec x.instr s = .next { s with result := .hold } := by
  obtain ⟨hrun, hs, hr, he, -⟩ := h
  have hpop : stepPop s = .next { s with result := .hold } := stepPop_of_empty hr he
  cases x with
  | pop d => exact absurd rfl (hx d)
  | step => exact (exec_consStep ha hrun hs).trans hpop
  | cycle =>
    refine (execConsCycle_of ha hrun hs).trans ?_
    rw [hpop, andThen_next]
    exact if_pos hs

/-- With no line left a consumer that holds tries its held operation again, or, not yet held, its own step (R249). -/
theorem ConsumerHolds.runBlock {s : State} (h : ConsumerHolds s) (hs : s.sched = []) :
    ∃ x : Hold, (∀ d, x ≠ .pop d) ∧ runBlock s = resume x s := by
  obtain ⟨hrun, -, -, -, hnopop⟩ := h
  cases hh : s.held with
  | none => exact ⟨.step, nofun, (runBlock_free hs hh).trans (if_pos hrun)⟩
  | some x => exact ⟨x, fun d hd => hnopop d (hh.trans (congrArg some hd)), runBlock_resume hs hh⟩

/-- With no line left a block whose consumer is stuck idles, unless a pop is held: no other operation is held in FATAL
(R288), and the pop is tried again. -/
theorem HeldAtPop.runBlock_fatal {s : State} (h : HeldAtPop s) (hf : s.cons.cstate = .fatal) (hs : s.sched = []) :
    runBlock s = .next s ∨ ∃ d, runBlock s = resume (.pop d) s := by
  cases hh : s.held with
  | none => exact .inl ((runBlock_free hs hh).trans (if_neg (by simp [hf])))
  | some x =>
    obtain ⟨-, ⟨d, rfl⟩ | ⟨hrun, -⟩⟩ := h x hh
    · exact .inr ⟨d, runBlock_resume hs hh⟩
    · rw [hf] at hrun
      cases hrun

/-- Settles O55: the consumer holds again at its held operation or its own step; after a fatal cause the block idles, or
a held pop answers `stuck`. -/
theorem quiescenceIsStable : Obligations.QuiescenceIsStable := by
  rintro s hinv hheld ⟨hframe, havail, hloan, hconsumer⟩ hs he
  rw [step_of_no_events hinv.params he]
  rcases hconsumer with hholds | hf
  case inl =>
    obtain ⟨x, hx, hblock⟩ := hholds.runBlock hs
    have henter : ConsumerHolds (enterAs .cons [] s) := hholds
    rw [hblock, resume_of_result (henter.exec_hold rfl hx)]
    obtain ⟨hrun, hstep, hready, hempty, -⟩ := hholds
    refine ⟨_, rfl, rfl, ⟨hframe, havail, hloan, .inl ⟨hrun, hstep, hready, hempty, fun d hd => ?_⟩⟩, fun _ => rfl⟩
    exact hx d (Option.some.inj hd)
  case inr =>
    have hnotRunning : s.cons.cstate ≠ .running := by simp [hf]
    rcases hheld.runBlock_fatal hf hs with hblock | ⟨d, hblock⟩
    · exact ⟨s, hblock, rfl, ⟨hframe, havail, hloan, .inr hf⟩, fun hrun => absurd hrun hnotRunning⟩
    · have hstuck : exec (Hold.pop d).instr (enterAs .cons [] s) = .next (withResult .stuck (enterAs .cons [] s)) :=
        requireConsumer_fatal (s := enterAs .cons [] s) rfl hf _
      rw [hblock, resume_of_result hstuck]
      exact ⟨_, rfl, rfl, ⟨hframe, havail, hloan, .inr hf⟩, fun hrun => absurd hrun hnotRunning⟩

end Sys2Proof.Machine
end
